-- ==== Sys2Proof/Word.lean ====
section
/-! DEFINITION. The word types of the engine: what the spec treats as bits (`00_scope.md` R13, `30_encoding.md`
R91). Every other quantity of the engine is a natural number (R12). -/

namespace Sys2Proof

/-- A byte: a command byte, a data byte, a byte of the line buffer (R13). -/
abbrev Byte := BitVec 8

/-- A 16-bit operand of a request: a window coordinate, a payload length; and a 16-bit colour (R91, R103). -/
abbrev Half := BitVec 16

/-- The framebuffer handle of `RENDER`, 32 bits (R25, R105). -/
abbrev Handle := BitVec 32

/-- The request word `req_word[67:0]` (R91). -/
abbrev ReqWord := BitVec 68

end Sys2Proof
end

