-- ==== Sys2Proof/Config.lean ====
section
/-! DEFINITION. What an implementation fixes (the parameters of `00_scope.md` R9) and the values the spec leaves
open (the free values: constants with no body, of which nothing can be proved). -/

namespace Sys2Proof

/-- The transport the framer drives (R9, R130). -/
inductive Variant where
  /-- Hardware-assisted: a serial peripheral and a mode line. -/
  | A
  /-- Bit-synchronised software transport: clock and data pins. -/
  | B
deriving DecidableEq, Repr

/-- A positive duration, the type R9 gives `T_BIT`. -/
abbrev Duration := { d : Nat // 0 < d }

/-- The parameter table of R9, "fixed at build/configuration time ... Never changes at runtime". Dimensions and
offsets are naturals (R12); which values are legal is R10 (`Machine.firstBroken`). -/
structure Config where
  variant : Variant
  /-- `W_SRC`. -/
  wSrc : Nat
  /-- `H_SRC`. -/
  hSrc : Nat
  /-- `WORD_BITS`. -/
  wordBits : Nat
  /-- `STRIDE`: not free; R10 demands `ceil(W_SRC / WORD_BITS)`. -/
  stride : Nat
  /-- `W_DST`. -/
  wDst : Nat
  /-- `H_DST`. -/
  hDst : Nat
  /-- `X_OFF`. -/
  xOff : Nat
  /-- `Y_OFF`. -/
  yOff : Nat
  /-- `CMD_CASET`. -/
  cmdCaset : Byte
  /-- `CMD_RASET`. -/
  cmdRaset : Byte
  /-- `CMD_RAMWR`. -/
  cmdRamwr : Byte
  /-- `T_BIT`, in a unit the spec does not fix; no rule depends on it (R276). -/
  tBit : Duration
  /-- `CS_ASSERT_LEVEL`: the electrical level of an asserted `CS` (R27). -/
  csAssertLevel : Bool
  /-- `DC_DATA_LEVEL`: the electrical level of `DC = data` (R28). -/
  dcDataLevel : Bool
  /-- `B_RAW_MODE_BIT` (R141). -/
  bRawModeBit : Bool
deriving DecidableEq, Repr

/-- The reference configuration of R11, with the defaults of R9. DESIGN CHOICE (log 1): the variant is open and
the model names A here, and `T_BIT` is 1; unsafe, so no statement rests on either. -/
def Config.reference : Config where
  variant := .A
  wSrc := 512
  hSrc := 342
  wordBits := 8
  stride := 64
  wDst := 240
  hDst := 320
  xOff := 0
  yOff := 0
  cmdCaset := 0x2A#8
  cmdRaset := 0x2B#8
  cmdRamwr := 0x2C#8
  tBit := ⟨1, Nat.one_pos⟩
  csAssertLevel := false
  dcDataLevel := true
  bRawModeBit := true

/-- FREE VALUE (log 3): what the working register number `which` holds after the RENDER number `epoch` has ended;
16 bits, nothing else is known (R23, R24, U8). -/
opaque Config.deadRegister (epoch which : Nat) : BitVec 16

/-- FREE VALUE (log 3): what `FB` holds after the RENDER number `epoch` has ended (R25, U8). -/
opaque Config.deadHandle (epoch : Nat) : Handle

/-- FREE VALUE (log 3): what byte `index` of the line buffer holds after the RENDER number `epoch` has ended
(R31, U8). -/
opaque Config.deadByte (epoch index : Nat) : Byte

/-- FREE VALUE (log 6): which content the read for active pixel (`row`, `col`) of the RENDER number `epoch` sees
when the framebuffer owner changes the word meanwhile; taken modulo the number of contents the word has (R67, U7). -/
opaque Config.tornPick (epoch row col : Nat) : Nat

end Sys2Proof
end

