-- ==== Sys2Proof/Syntax.lean ====
section
/-! DEFINITION. The instructions of the engine, one constructor for each row of `spec/opcode_table.json`, and the
forms in which an instruction stands on the engine's ports (`30_encoding.md` R90 to R106). -/

namespace Sys2Proof

/-- One row of the opcode table each: the nine operations (R4, R92), the seven reserved operation codes (R94), the
four bus frames (R96 to R98), the two data blocks (R101, R102) and the three panel command bytes (R106). -/
inductive Instr where
  /-- `SEND_CMD code` (R138). -/
  | sendCmd (code : Byte)
  /-- `SEND_DATA bytes, length` (R139); `length` is the number of bytes (R93). -/
  | sendData (bytes : List Byte)
  /-- `BEGIN_STREAM` (R140). -/
  | beginStream
  /-- `RAW_WRITE bytes, length` (R141). -/
  | rawWrite (bytes : List Byte)
  /-- `END_STREAM` (R142). -/
  | endStream
  /-- `SET_WINDOW x0, y0, x1, y1` (R171). -/
  | setWindow (x0 y0 x1 y1 : Half)
  /-- `BEGIN_FRAME` (R172). -/
  | beginFrame
  /-- `END_FRAME` (R173). -/
  | endFrame
  /-- `RENDER fb` (R203). -/
  | render (fb : Handle)
  /-- The reserved operation codes (R94). -/
  | reserved0
  | reservedA
  | reservedB
  | reservedC
  | reservedD
  | reservedE
  | reservedF
  /-- The variant A command frame: `DC = cmd`, then one byte (R96). -/
  | frameACmd (code : Byte)
  /-- The variant A data frame of one byte: `DC = data`, then the byte (R96). -/
  | frameAData (byte : Byte)
  /-- The variant B command frame: 8 clocked bits (R97). -/
  | frameBCmd (code : Byte)
  /-- The variant B data frame: a 1, then 8 clocked bits (R98). -/
  | frameBData (byte : Byte)
  /-- The four parameter bytes of a window command (R101). -/
  | windowParamBlock (first last : Half)
  /-- The two bytes of a pixel, high byte first (R102). -/
  | pixelPair (colour : Half)
  /-- The column-address-set command byte (R106). -/
  | cmdCaset
  /-- The row-address-set command byte (R106). -/
  | cmdRaset
  /-- The memory-write command byte (R106). -/
  | cmdRamwr
deriving DecidableEq, Repr

/-- What stands on a port: a request word with its payload (R91, R93), or one of the engine's other encodings in
the format `spec/opcode_table.json` gives it. `unknown` is any other string of bits. -/
inductive Encoded where
  | request (word : ReqWord) (payload : List Byte)
  /-- 9 symbols: the `DC` level (0 = cmd, 1 = data), then the byte (R96). -/
  | frameA (symbols : BitVec 9)
  /-- 8 clocked bits of variant B (R97). -/
  | frameB8 (bits : BitVec 8)
  /-- 9 clocked bits of variant B (R98). -/
  | frameB9 (bits : BitVec 9)
  /-- A four-byte data block, the first byte in the highest bits (R101). -/
  | data4 (bits : BitVec 32)
  /-- A two-byte data block, the first byte in the highest bits (R102). -/
  | data2 (bits : BitVec 16)
  /-- One of the three panel command bytes, by the table's number for it (R106). -/
  | panelCommand (bits : BitVec 8)
  | unknown (nbits w : Nat)
deriving DecidableEq, Repr

end Sys2Proof
end

