-- ==== Sys2Proof/WellFormed.lean ====
section
/-! DEFINITION. Which terms of `Instr` are instructions of the engine: the payload length is a 16-bit count
(`30_encoding.md` R93); every other operand has the width its encoding gives it by its type. -/

namespace Sys2Proof

/-- The payload of an instruction that takes one (R93). -/
def Instr.payload : Instr → List Byte
  | .sendData bytes => bytes
  | .rawWrite bytes => bytes
  | .sendCmd _ | .beginStream | .endStream | .setWindow _ _ _ _ | .beginFrame | .endFrame | .render _ => []
  | .reserved0 | .reservedA | .reservedB | .reservedC | .reservedD | .reservedE | .reservedF => []
  | .frameACmd _ | .frameAData _ | .frameBCmd _ | .frameBData _ => []
  | .windowParamBlock _ _ | .pixelPair _ | .cmdCaset | .cmdRaset | .cmdRamwr => []

/-- "`length` is `arg0`, `0 .. 65535`" (R93). -/
abbrev Instr.WellFormed (i : Instr) : Prop := i.payload.length ≤ 65535

end Sys2Proof
end

