-- ==== Sys2Proof/Decode.lean ====
section
/-! DEFINITION. The decoder, total on every form a port can carry and rejecting by name, and after it the encoder,
written from the same tables (`30_encoding.md` R91 to R106). -/

namespace Sys2Proof

/-- Why a form is no instruction. -/
inductive DecodeError where
  /-- The payload port does not carry exactly `length` bytes (R42, R93). -/
  | payloadLength (wanted got : Nat)
  /-- A 9-bit variant B frame whose leading bit is not the mode bit 1 (R98, `91_not_in_source.md` N9). -/
  | noModeBit
  /-- A panel command byte the table has no row for (R106). -/
  | noPanelCommand (bits : BitVec 8)
  /-- Bits in no format of the table (R90). -/
  | unknownFormat (nbits w : Nat)
deriving DecidableEq, Repr

/-! ## The fields of the request word (R91) -/

/-- `op`, bits 67:64. -/
def ReqWord.op (w : ReqWord) : BitVec 4 := w.extractLsb' 64 4

/-- `arg0`, bits 63:48. -/
def ReqWord.arg0 (w : ReqWord) : Half := w.extractLsb' 48 16

/-- `arg1`, bits 47:32. -/
def ReqWord.arg1 (w : ReqWord) : Half := w.extractLsb' 32 16

/-- `arg2`, bits 31:16. -/
def ReqWord.arg2 (w : ReqWord) : Half := w.extractLsb' 16 16

/-- `arg3`, bits 15:0. -/
def ReqWord.arg3 (w : ReqWord) : Half := w.extractLsb' 0 16

/-- How many payload bytes a request word announces: `length = arg0` for `SEND_DATA` (`op` 2) and `RAW_WRITE`
(`op` 4), none for the others (R92, R93). -/
def ReqWord.payloadBytes (w : ReqWord) : Nat :=
  if w.op = 2#4 ∨ w.op = 4#4 then w.arg0.toNat else 0

/-- The operation of a request word (R92, R94); bits no operation uses are ignored (R95). -/
def decodeOp (w : ReqWord) (payload : List Byte) : Instr :=
  match w.op.toNat with
  | 0 => .reserved0
  | 1 => .sendCmd (w.arg0.extractLsb' 0 8)
  | 2 => .sendData payload
  | 3 => .beginStream
  | 4 => .rawWrite payload
  | 5 => .endStream
  | 6 => .setWindow w.arg0 w.arg1 w.arg2 w.arg3
  | 7 => .beginFrame
  | 8 => .endFrame
  | 9 => .render (w.arg0 ++ w.arg1)
  | 10 => .reservedA
  | 11 => .reservedB
  | 12 => .reservedC
  | 13 => .reservedD
  | 14 => .reservedE
  | _ => .reservedF

/-- The payload port carries exactly `n` bytes; checked byte by byte, as they arrive (R42, R93). -/
def carries : List Byte → Nat → Bool
  | [], 0 => true
  | _ :: rest, n + 1 => carries rest n
  | [], _ + 1 => false
  | _ :: _, 0 => false

/-- A request: its word and a payload of exactly the announced length (R93). -/
def decodeRequest (w : ReqWord) (payload : List Byte) : Except DecodeError Instr :=
  if carries payload w.payloadBytes then .ok (decodeOp w payload)
  else .error (.payloadLength w.payloadBytes payload.length)

/-- A panel command byte, by the number the table has for it. The numbers are defaults of open parameters; which
byte the engine sends is `Config.cmdCaset` and so on (R106, log 12). -/
def decodePanelCommand (b : BitVec 8) : Except DecodeError Instr :=
  if b = 0x2A#8 then .ok .cmdCaset
  else if b = 0x2B#8 then .ok .cmdRaset
  else if b = 0x2C#8 then .ok .cmdRamwr
  else .error (.noPanelCommand b)

/-- The decoder. -/
def decode : Encoded → Except DecodeError Instr
  | .request w payload => decodeRequest w payload
  | .frameA b => .ok (if b.getLsbD 8 then .frameAData (b.extractLsb' 0 8) else .frameACmd (b.extractLsb' 0 8))
  | .frameB8 b => .ok (.frameBCmd b)
  | .frameB9 b => if b.getLsbD 8 then .ok (.frameBData (b.extractLsb' 0 8)) else .error .noModeBit
  | .data4 b => .ok (.windowParamBlock (b.extractLsb' 16 16) (b.extractLsb' 0 16))
  | .data2 b => .ok (.pixelPair b)
  | .panelCommand b => decodePanelCommand b
  | .unknown nbits w => .error (.unknownFormat nbits w)

/-! ## The encoder -/

/-- A request word from its five fields (R91). -/
def mkWord (op : BitVec 4) (a0 a1 a2 a3 : Half) : ReqWord := op ++ a0 ++ a1 ++ a2 ++ a3

/-- A request word with no operand; unused bits are written as zero (R95). -/
def bareWord (op : BitVec 4) : ReqWord := mkWord op 0 0 0 0

/-- The words of an instruction (R92 to R102, R106). -/
def encode : Instr → Encoded
  | .sendCmd code => .request (mkWord 1 (0#8 ++ code) 0 0 0) []
  | .sendData bytes => .request (mkWord 2 (BitVec.ofNat 16 bytes.length) 0 0 0) bytes
  | .beginStream => .request (bareWord 3) []
  | .rawWrite bytes => .request (mkWord 4 (BitVec.ofNat 16 bytes.length) 0 0 0) bytes
  | .endStream => .request (bareWord 5) []
  | .setWindow x0 y0 x1 y1 => .request (mkWord 6 x0 y0 x1 y1) []
  | .beginFrame => .request (bareWord 7) []
  | .endFrame => .request (bareWord 8) []
  | .render fb => .request (mkWord 9 (fb.extractLsb' 16 16) (fb.extractLsb' 0 16) 0 0) []
  | .reserved0 => .request (bareWord 0) []
  | .reservedA => .request (bareWord 0xA) []
  | .reservedB => .request (bareWord 0xB) []
  | .reservedC => .request (bareWord 0xC) []
  | .reservedD => .request (bareWord 0xD) []
  | .reservedE => .request (bareWord 0xE) []
  | .reservedF => .request (bareWord 0xF) []
  | .frameACmd code => .frameA (0#1 ++ code)
  | .frameAData byte => .frameA (1#1 ++ byte)
  | .frameBCmd code => .frameB8 code
  | .frameBData byte => .frameB9 (1#1 ++ byte)
  | .windowParamBlock first last => .data4 (first ++ last)
  | .pixelPair colour => .data2 colour
  | .cmdCaset => .panelCommand 0x2A
  | .cmdRaset => .panelCommand 0x2B
  | .cmdRamwr => .panelCommand 0x2C

/-! ## The table's words -/

/-- The form a string of `nbits` bits, numbered as the opcode table numbers them, takes on the ports. A request
word has 68 bits (72 in whole bytes) and the payload bytes it announces are zeros. The table's 9-bit and 8-bit rows
do not say which format they are in: log 12 says how they are told apart here. -/
def Encoded.ofTable (nbits w : Nat) : Encoded :=
  if (nbits = 68 ∨ nbits = 72) ∧ w < 2 ^ 68 then
    .request (BitVec.ofNat 68 w) (List.replicate (ReqWord.payloadBytes (BitVec.ofNat 68 w)) 0)
  else if nbits = 32 ∧ w < 2 ^ 32 then .data4 (BitVec.ofNat 32 w)
  else if (nbits = 9 ∨ nbits = 16) ∧ w < 2 ^ 9 then .frameA (BitVec.ofNat 9 w)
  else if nbits = 16 ∧ w < 2 ^ 16 then .data2 (BitVec.ofNat 16 w)
  else if nbits = 8 ∧ (w = 0x2A ∨ w = 0x2B ∨ w = 0x2C) then .panelCommand (BitVec.ofNat 8 w)
  else if nbits = 8 ∧ w < 2 ^ 8 then .frameB8 (BitVec.ofNat 8 w)
  else .unknown nbits w

/-- The instruction the decoder reads from the bits `w` of a table row of `nbits` bits. -/
def decodeTableWord (nbits w : Nat) : Option Instr :=
  (decode (Encoded.ofTable nbits w)).toOption

end Sys2Proof
end

