-- ==== Sys2Proof/Machine/State.lean ====
section
/-! DEFINITION. The state of the engine: everything `10_state.md` gives it, with the parameters and the inputs a
step needs beside it, all plain data. INVENTORY.md lists each field with its rule and its reset value. -/

namespace Sys2Proof.Machine

/-- `SESS` (R26). -/
inductive Sess where
  /-- No session is open. -/
  | closed
  /-- The session of one `SEND_CMD` or `SEND_DATA`. -/
  | single
  /-- The session of a pixel stream. -/
  | stream
deriving DecidableEq, Repr

/-- The levels of `CS` (R27). -/
inductive CsLevel where
  | idle
  | asserted
deriving DecidableEq, Repr

/-- The levels of `DC` (R28). -/
inductive DcLevel where
  | cmd
  | data
deriving DecidableEq, Repr

/-- The pins the engine drives (R27 to R30). Variant A drives `CS` and `DC`; variant B drives `CS`, `SCK` and
`SDA`; a pin the variant has not keeps its value and is never read. -/
structure Pins where
  cs : CsLevel
  dc : DcLevel
  sck : Bool
  sda : Bool
deriving DecidableEq, Repr

/-- The bus events (R15). -/
inductive Event where
  | setCS (level : CsLevel)
  /-- Variant A only. -/
  | setDC (level : DcLevel)
  /-- Variant A only: the bytes handed to the serial peripheral, in order. -/
  | xfer (bytes : List Byte)
  /-- Variant B only. -/
  | setSDA (v : Bool)
  /-- Variant B only. -/
  | setSCK (v : Bool)
  /-- Variant B only: wait `T_BIT`. -/
  | delay
deriving DecidableEq, Repr

/-- The viewport registers (R23), naturals that fit 16 bits. -/
structure Viewport where
  /-- `ACT_W`. -/
  actW : Nat
  /-- `ACT_H`. -/
  actH : Nat
  /-- `X_PAD`. -/
  xPad : Nat
  /-- `Y_PAD`. -/
  yPad : Nat
deriving DecidableEq, Repr

/-- The renderer's counters (R24), naturals that fit 16 bits. -/
structure Counters where
  /-- `ROW`. -/
  row : Nat
  /-- `COL`. -/
  col : Nat
  /-- `SRC_Y`. -/
  srcY : Nat
  /-- `SRC_X`. -/
  srcX : Nat
deriving DecidableEq, Repr

/-- `SEQ` (R33): `Idle`, or the operation in progress and the index of its next event. -/
inductive Seq where
  | idle
  | busy (op : Instr) (k : Nat)
deriving DecidableEq, Repr

/-- The nine operations by name (R4), as `ProtocolViolation` records them. -/
inductive Op where
  | sendCmd
  | sendData
  | beginStream
  | rawWrite
  | endStream
  | setWindow
  | beginFrame
  | endFrame
  | render
deriving DecidableEq, Repr

/-- The bounds of R10, one name each, in the order R10 lists them: what `IllegalConfig` records (R231). -/
inductive Bound where
  | wSrcMin
  | hSrcMin
  | wDstMin
  | hDstMin
  | wordBitsMin
  | wSrcMax
  | hSrcMax
  | wDstMax
  | hDstMax
  | xOffMax
  | yOffMax
  | stride
deriving DecidableEq, Repr

/-- What `FAULT` records (R36, R231). -/
inductive FaultMark where
  /-- Code 1: `SESS` is not the value the operation requires (R232). -/
  | protocolViolation (op : Op) (sess : Sess)
  /-- Code 2: the `op` field names no operation (R233). -/
  | reservedOp (op : BitVec 4)
  /-- Code 3: a request arrives while `BUSY = 1`: the operation in progress and the new one (R234). -/
  | overlap (pending : Seq) (new : Instr)
  /-- Code 4: the renderer reads the word `index` and it is not readable (R235). -/
  | sourceUndefined (index : Nat)
  /-- Code 5: the configuration breaks this bound of R10 (R236, log 9). -/
  | illegalConfig (broken : Bound)
deriving DecidableEq, Repr

/-- One storage word of a source framebuffer: the address `{FB, src_index}` (`srcAddr`) and the word. -/
abbrev SrcCell := Nat × Nat

/-- The source framebuffers: the readable storage words, addresses strictly rising (`Memory.wf`). A word not
listed has no value (`Memory.unlisted`). -/
abbrev Memory := List SrcCell

/-- What an unlisted word reads as: no value, because a word outside the buffer is undefined (R66, R235; log 4). -/
def Memory.unlisted : Option Nat := none

/-- A change the framebuffer owner makes to one storage word; `none` takes the word away. -/
structure SrcWrite where
  addr : Nat
  value : Option Nat
deriving DecidableEq, Repr

/-- A move of an agent outside the engine (R21, R42; log 7). -/
inductive Input where
  /-- The host requests an operation and waits for its end: one step. The owner writes `during` meanwhile. -/
  | request (e : Encoded) (during : List SrcWrite)
  /-- The host's request is accepted and the step ends there; the events follow one a step (R33). -/
  | start (e : Encoded)
  /-- Nothing arrives: the operation in progress, if any, makes its next event. -/
  | tick
  /-- The owner writes one storage word of the framebuffer `fb`, or takes it away. -/
  | source (fb : Handle) (index : BitVec 32) (value : Option Nat)
  /-- The reset of R260. -/
  | reset
deriving DecidableEq, Repr

/-- The state of the machine. -/
structure State where
  /-- The parameters of R9; no step writes them. -/
  cfg : Config
  /-- `SESS` (R26). -/
  sess : Sess
  /-- `CS`, `DC`, `SCK`, `SDA` (R27 to R30). -/
  pins : Pins
  /-- `ACT_W`, `ACT_H`, `X_PAD`, `Y_PAD` (R23). -/
  vp : Viewport
  /-- `ROW`, `COL`, `SRC_Y`, `SRC_X` (R24). -/
  ctr : Counters
  /-- `FB` (R25). -/
  fb : Handle
  /-- `LB` (R31). -/
  lb : List Byte
  /-- `BUSY` (R32). -/
  busy : Bool
  /-- `SEQ` (R33). -/
  seq : Seq
  /-- `BUS` (R35), the oldest event first. -/
  bus : List Event
  /-- `FAULT` (R36). -/
  fault : Option FaultMark
  /-- The source framebuffers (R38, R60): an input, which the engine never writes (R62). -/
  source : Memory
  /-- The words the owner changes while the operation in progress runs, in order (R67). -/
  inFlight : List SrcWrite
  /-- What the agents outside do next, the first move first. -/
  tape : List Input
  /-- The model's own counter: which RENDER the free values belong to (log 3). -/
  epoch : Nat
deriving DecidableEq, Repr

/-- The reason a step stops with a fault. -/
inductive Fault where
  /-- Raised by every instruction given to a machine whose `FAULT` is set: "A model may stop at the first fault";
  only reset leads out (R241, log 8). Safe: the real engine goes on in a way nothing here describes. -/
  | faulted (mark : FaultMark)
deriving DecidableEq, Repr

/-- The reasons a step is refused. -/
inductive Refusal where
  /-- Raised by `exec` for an instruction that has no meaning yet. Safe. -/
  | notModelled (mnemonic : String)
  /-- Raised by `step` when the port carries no instruction (R94 names none of these; log 12), ahead of the checks of
  R239 (log 20). Safe. -/
  | undecodable (why : DecodeError)
  /-- Raised by the two bus frames of the variant that is not active: "Exactly one variant is active" (R130), and the
  other's pins are not there (R28 to R30; log 10); after `FAULT` and `IllegalConfig`, ahead of `Overlap` (log 20).
  Safe. -/
  | inactiveVariant (active : Variant)
deriving DecidableEq, Repr

/-- The pins at reset: `CS` idle (R27); the others are unspecified (R28 to R30) and DESIGN CHOICE values here
(log 2). -/
def Pins.reset : Pins := { cs := .idle, dc := .cmd, sck := false, sda := false }

/-- The machine of configuration `c` right after reset (R260), with no framebuffer and no input. The values of
`vp`, `ctr`, `fb`, `lb` are unspecified there and DESIGN CHOICE zeros here (log 2). -/
def State.boot (c : Config) : State where
  cfg := c
  sess := .closed
  pins := Pins.reset
  vp := { actW := 0, actH := 0, xPad := 0, yPad := 0 }
  ctr := { row := 0, col := 0, srcY := 0, srcX := 0 }
  fb := 0#32
  lb := List.replicate (2 * c.wDst) 0#8
  busy := false
  seq := .idle
  bus := []
  fault := none
  source := []
  inFlight := []
  tape := []
  epoch := 0

/-- The machine right after reset, in the reference configuration (R11, log 1). -/
def State.reset : State := State.boot Config.reference

end Sys2Proof.Machine
end

