-- ==== Sys2Proof/Machine/Operands.lean ====
section
/-! DEFINITION. The operand forms: bit fields (`00_scope.md` R13), the bytes of a window block and of a pixel, the
colour mapper (`30_encoding.md` R101 to R105), the source address and bit position (`20_memory.md` R60 to R64) and
the derived quantities of the renderer (`42_renderer.md` R191 to R198). -/

namespace Sys2Proof.Machine

/-- `hi8(v) = v[15:8]` (R13). -/
def hi8 (v : Half) : Byte := v.extractLsb' 8 8

/-- `lo8(v) = v[7:0]` (R13). -/
def lo8 (v : Half) : Byte := v.extractLsb' 0 8

/-- The four data bytes of a window command, in transmission order (R101). -/
def windowBytes (first last : Half) : List Byte := [hi8 first, lo8 first, hi8 last, lo8 last]

/-- The two bytes of a pixel, in the line buffer and on the bus (R102). -/
def pixelBytes (c : Half) : List Byte := [hi8 c, lo8 c]

/-- `COLOR_ON` (R9). -/
def colorOn : Half := 0xFFFF#16

/-- `COLOR_OFF` (R9). -/
def colorOff : Half := 0x0000#16

/-- The colour mapper (R104). -/
def colour (b : Bool) : Half := if b then colorOn else colorOff

/-- The bits of a byte in the order variant B shifts them: bit 7 first (R70, R136). -/
def bitsMsbFirst (b : Byte) : List Bool := [7, 6, 5, 4, 3, 2, 1, 0].map b.getLsbD

/-- The address of word `w` behind the handle `fb`: `{FB, src_index}` with a 32-bit index (R42, R63). Handles are
opaque, so two handles never share a word here (log 4). -/
def srcAddr (fb : Handle) (w : Nat) : Nat := fb.toNat * 2 ^ 32 + w

/-- The index of the storage word that holds source pixel (`sx`, `sy`) (R64). -/
def wordIndex (c : Config) (sx sy : Nat) : Nat := sy * c.stride + sx / c.wordBits

/-- The position of source column `sx` in its storage word (R64): the leftmost column is the highest bit (R60). -/
def bitPosition (c : Config) (sx : Nat) : Nat := c.wordBits - 1 - sx % c.wordBits

/-- How many storage words the caller guarantees (R60). -/
def sourceWords (c : Config) : Nat := c.hSrc * c.stride

/-- The scaled height of the width fit, `(W_DST × H_SRC) / W_SRC` (R191). -/
def widthFitHeight (c : Config) : Nat := c.wDst * c.hSrc / c.wSrc

/-- `SRC_Y` of a destination row inside the band (R196). -/
def srcRow (c : Config) (vp : Viewport) (y : Nat) : Nat := (y - vp.yPad) * c.hSrc / vp.actH

/-- `SRC_X` of an active column, counted from the left edge of the band (R198). -/
def srcCol (c : Config) (vp : Viewport) (x : Nat) : Nat := x * c.wSrc / vp.actW

/-- The first column and row of the panel as window coordinates (R195). -/
def windowX0 (c : Config) : Half := BitVec.ofNat 16 c.xOff
def windowY0 (c : Config) : Half := BitVec.ofNat 16 c.yOff

/-- The last column and row of the panel as window coordinates, inclusive (R174, R195). -/
def windowX1 (c : Config) : Half := BitVec.ofNat 16 (c.xOff + c.wDst - 1)
def windowY1 (c : Config) : Half := BitVec.ofNat 16 (c.yOff + c.hDst - 1)

end Sys2Proof.Machine
end

