-- ==== Sys2Proof/Machine/Flags.lean ====
section
/-! DEFINITION. The engine has no condition codes (`10_state.md` R34). What stands here is what takes their place:
the legality of a configuration (`00_scope.md` R10), the two comparisons of the renderer (R191, R197), the session
discipline (`40_framer.md` R132) and the codes of the model's outcomes (`60_exceptions.md` R231). -/

namespace Sys2Proof.Machine

/-- The configuration meets a bound of R10. -/
def Bound.met (c : Config) : Bound → Bool
  | .wSrcMin => 1 ≤ c.wSrc
  | .hSrcMin => 1 ≤ c.hSrc
  | .wDstMin => 1 ≤ c.wDst
  | .hDstMin => 1 ≤ c.hDst
  | .wordBitsMin => 1 ≤ c.wordBits
  | .wSrcMax => c.wSrc ≤ 65535
  | .hSrcMax => c.hSrc ≤ 65535
  | .wDstMax => c.wDst ≤ 65535
  | .hDstMax => c.hDst ≤ 65535
  | .xOffMax => c.xOff + c.wDst - 1 ≤ 65535
  | .yOffMax => c.yOff + c.hDst - 1 ≤ 65535
  | .stride => c.stride = (c.wSrc + c.wordBits - 1) / c.wordBits

/-- The bounds in the order of R10. -/
def bounds : List Bound :=
  [.wSrcMin, .hSrcMin, .wDstMin, .hDstMin, .wordBitsMin, .wSrcMax, .hSrcMax, .wDstMax, .hDstMax, .xOffMax, .yOffMax,
   .stride]

/-- The first bound of R10 that a configuration breaks, `none` for a legal one. -/
def firstBroken (c : Config) : Option Bound := bounds.find? fun b => !b.met c

/-- The first comparison of R34: the width fit "exceeds" the panel, strictly (R191). -/
def exceedsHeight (c : Config) : Bool := c.hDst < widthFitHeight c

/-- The second comparison of R34: the band test (R197). -/
def inBand (vp : Viewport) (y : Nat) : Bool := vp.yPad ≤ y ∧ y < vp.yPad + vp.actH

/-- The value of `SESS` an operation requires at its start (R132, R171 to R173, R203). -/
def requiredSess : Op → Sess
  | .sendCmd => .closed
  | .sendData => .closed
  | .beginStream => .closed
  | .rawWrite => .stream
  | .endStream => .stream
  | .setWindow => .closed
  | .beginFrame => .closed
  | .endFrame => .stream
  | .render => .closed

/-- The value of `SESS` an operation leaves (R132, R171 to R173, R203). -/
def finalSess : Op → Sess
  | .sendCmd => .closed
  | .sendData => .closed
  | .beginStream => .stream
  | .rawWrite => .stream
  | .endStream => .closed
  | .setWindow => .closed
  | .beginFrame => .stream
  | .endFrame => .closed
  | .render => .closed

/-- The code of a recorded outcome (R231). -/
def faultCode : FaultMark → Nat
  | .protocolViolation _ _ => 1
  | .reservedOp _ => 2
  | .overlap _ _ => 3
  | .sourceUndefined _ => 4
  | .illegalConfig _ => 5

/-- The code of an outcome of a step (R231): that of what `FAULT` records; none for normal completion and for the
model's own refusals, which R231 does not list (log 20). -/
def outcomeCode : Host.Outcome State Fault Refusal → Option Nat
  | .next s => s.fault.map faultCode
  | .fault (.faulted mark) => some (faultCode mark)
  | .refused _ => none

end Sys2Proof.Machine
end

