-- ==== Sys2Proof/Machine/Ops.lean ====
section
/-! DEFINITION. The shared operations: acts on the bus, the source memory, the line buffer, taking a fault, and the
acceptance and completion of a request. Every meaning is built from these. -/

namespace Sys2Proof.Machine

/-! ## Acts on the bus -/

/-- One thing the sequencer does to the outside; each emits exactly one event. -/
inductive Act where
  /-- `OpenSession(kind)` (R131). -/
  | openS (kind : Sess)
  /-- `CloseSession` (R131). -/
  | closeS
  /-- `emit e` for an event that is not about `CS` (R14). -/
  | drive (e : Event)
deriving DecidableEq, Repr

/-- The event an act emits (R131). -/
def Act.event : Act → Event
  | .openS _ => .setCS .asserted
  | .closeS => .setCS .idle
  | .drive e => e

/-- `SESS` after an act (R131). -/
def Act.sess (q : Sess) : Act → Sess
  | .openS kind => kind
  | .closeS => .closed
  | .drive _ => q

/-- The pins after an event (R15). -/
def Pins.apply (p : Pins) : Event → Pins
  | .setCS l => { p with cs := l }
  | .setDC l => { p with dc := l }
  | .xfer _ => p
  | .setSDA v => { p with sda := v }
  | .setSCK v => { p with sck := v }
  | .delay => p

/-- The pins after a list of events. -/
def Pins.applyAll (p : Pins) (es : List Event) : Pins := es.foldl Pins.apply p

/-- The events of a list of acts, in order. -/
def events (acts : List Act) : List Event := acts.map Act.event

/-- `SESS` after a list of acts. -/
def sessAfter (q : Sess) (acts : List Act) : Sess := acts.foldl Act.sess q

/-- Make the acts in order: append their events to `BUS`, change the pins as the events say and `SESS` as the acts
say (R14, R131). Every event completes (R143, log 13). -/
def State.run (acts : List Act) (s : State) : State :=
  { s with
    bus := s.bus ++ events acts
    pins := s.pins.applyAll (events acts)
    sess := sessAfter s.sess acts }

/-! ## The source framebuffers (R60 to R67) -/

/-- The canonical form: addresses strictly rising, every word below `2^wordBits` (R63). No entry can equal what an
unlisted word reads as, which is no value. -/
def Memory.wf (wordBits : Nat) : Memory → Bool
  | [] => true
  | [(_, v)] => v < 2 ^ wordBits
  | (a, v) :: (b, w) :: rest => v < 2 ^ wordBits && a < b && Memory.wf wordBits ((b, w) :: rest)

/-- The storage word at an address. -/
def Memory.read (a : Nat) : Memory → Option Nat
  | [] => Memory.unlisted
  | (b, v) :: rest => if a = b then some v else Memory.read a rest

/-- Put a storage word at an address, or take it away; the canonical form stays. -/
def Memory.write (a : Nat) (v : Option Nat) : Memory → Memory
  | [] => match v with
    | some x => [(a, x)]
    | none => []
  | (b, y) :: rest =>
    if a < b then
      match v with
      | some x => (a, x) :: (b, y) :: rest
      | none => (b, y) :: rest
    else if a = b then
      match v with
      | some x => (a, x) :: rest
      | none => rest
    else (b, y) :: Memory.write a v rest

/-- Cut a word to the storage word's width: a storage word is "a natural below `2^WORD_BITS`" (R63). -/
def clipWord (wordBits : Nat) (v : Option Nat) : Option Nat := v.map (· % 2 ^ wordBits)

/-- The changes of the owner, applied in order. -/
def Memory.writeAll (wordBits : Nat) (ws : List SrcWrite) (m : Memory) : Memory :=
  ws.foldl (fun m w => Memory.write w.addr (clipWord wordBits w.value) m) m

/-- The contents the owner gives the word at `a` while the present request runs (R67). -/
def State.newContents (s : State) (a : Nat) : List (Option Nat) :=
  (s.inFlight.filter (fun w => w.addr = a)).map (fun w => clipWord s.cfg.wordBits w.value)

/-- `MemRead(FB, w)` (R63), made for the active pixel (`ROW`, `COL`): the word behind the handle, or, where the
owner changes that word meanwhile, its old or one of its new contents, which one is free (R67, log 6). `none` is a
word that cannot be read. -/
def State.memRead (s : State) (w : Nat) : Option Nat :=
  let old := Memory.read (srcAddr s.fb w) s.source
  match s.newContents (srcAddr s.fb w) with
  | [] => old
  | n :: ns =>
    let contents := old :: n :: ns
    (contents[Config.tornPick s.epoch s.ctr.row s.ctr.col % contents.length]?).getD old

/-- `SampleBit(FB, SRC_X, SRC_Y)` (R64): the bit, or the index of the word that cannot be read. -/
def State.sampleBit (s : State) : Except Nat Bool :=
  let w := wordIndex s.cfg s.ctr.srcX s.ctr.srcY
  match s.memRead w with
  | none => .error w
  | some v => .ok (v.testBit (bitPosition s.cfg s.ctr.srcX))

/-! ## Faults, acceptance and completion -/

/-- Taking a fault (R240): `FAULT` is set, by the first fault only (R36); `BUSY` returns to 0 and with it `SEQ` to
`Idle` (R33); nothing else is written and nothing is tidied up. There is no trap entry and no way back but reset
(R241). -/
def State.takeFault (f : FaultMark) (s : State) : State :=
  { s with
    fault := some (s.fault.getD f)
    busy := false
    seq := .idle }

/-- The end of an operation (R32, R33). -/
def State.complete (s : State) : State := { s with busy := false, seq := .idle }

/-- The checks every instruction meets first: a machine that has taken a fault has stopped (R241, log 8); a
configuration that breaks R10 is recorded in `FAULT` with the bound and nothing runs (R236, R240, log 9). -/
def guarded (s : State) (body : State → Host.Outcome State Fault Refusal) : Host.Outcome State Fault Refusal :=
  match s.fault with
  | some f => .fault (.faulted f)
  | none =>
    match firstBroken s.cfg with
    | some b => .next (s.takeFault (.illegalConfig b))
    | none => body s

/-- The acceptance of a request, in the order of R239: `IllegalConfig`, `Overlap`, then `body` with `BUSY = 1` and
`SEQ` at the operation's first event (R32, R33). -/
def accept (i : Instr) (s : State) (body : State → Host.Outcome State Fault Refusal) :
    Host.Outcome State Fault Refusal :=
  guarded s fun s =>
    if s.busy then .next (s.takeFault (.overlap s.seq i))
    else body { s with busy := true, seq := .busy i 0 }

/-- The session discipline (R132, R232): the required value of `SESS`, or `ProtocolViolation` with no event. -/
def withSession (op : Op) (s : State) (body : State → Host.Outcome State Fault Refusal) :
    Host.Outcome State Fault Refusal :=
  if s.sess = requiredSess op then body s
  else .next (s.takeFault (.protocolViolation op s.sess))

/-- A whole framer or driver operation: acceptance, session discipline, its acts, completion. -/
def perform (i : Instr) (op : Op) (acts : List Act) (s : State) : Host.Outcome State Fault Refusal :=
  accept i s fun s => withSession op s fun s => .next (s.run acts).complete

/-- A request whose `op` names no operation (R94, R233): recorded, nothing else. -/
def reject (i : Instr) (code : BitVec 4) (s : State) : Host.Outcome State Fault Refusal :=
  accept i s fun s => .next (s.takeFault (.reservedOp code))

/-- What exists in one variant only (R15, R130): `body` where that variant is active. DESIGN CHOICE (logs 10 and 20):
this refusal is not in the order of checks of R239; it stands after `FAULT` and `IllegalConfig` and ahead of
`Overlap`. -/
def onVariant (v : Variant) (s : State) (body : State → Host.Outcome State Fault Refusal) :
    Host.Outcome State Fault Refusal :=
  guarded s fun s => if s.cfg.variant = v then body s else .refused (.inactiveVariant s.cfg.variant)

/-- Reset (R260, R262): whatever was in progress is abandoned. The configuration, the framebuffers and the inputs
still to come are not the engine's and stay; the panel is not reset either. -/
def State.powerReset (s : State) : State :=
  { State.boot s.cfg with
    source := s.source
    tape := s.tape
    epoch := s.epoch + 1 }

/-- The owner's changes made during an operation, put in place (R67, R79). -/
def State.settle (s : State) : State :=
  { s with
    source := Memory.writeAll s.cfg.wordBits s.inFlight s.source
    inFlight := [] }

/-- The owner's changes are in place once the operation has ended; while it runs they stay in flight (R67). -/
def State.settleIfOver (s : State) : State :=
  { s with
    source := if s.busy then s.source else Memory.writeAll s.cfg.wordBits s.inFlight s.source
    inFlight := if s.busy then s.inFlight else [] }

end Sys2Proof.Machine
end

