-- ==== Sys2Proof/Machine/Framer.lean ====
section
/-! DEFINITION. The Transaction Framer (`40_framer.md`): the framing of both variants and the meanings of
`SEND_CMD`, `SEND_DATA`, `BEGIN_STREAM`, `RAW_WRITE`, `END_STREAM`. -/

namespace Sys2Proof.Machine

/-! ## Framing (R134 to R137) -/

/-- `CmdA(c)` (R134). -/
def cmdA (c : Byte) : List Act := [.drive (.setDC .cmd), .drive (.xfer [c])]

/-- The `Xfer` of `n` bytes; none of zero bytes is ever emitted (R133). -/
def xferActs (bytes : List Byte) : List Act := if bytes = [] then [] else [.drive (.xfer bytes)]

/-- `DataA(b_0 ... b_{n-1})` (R134). -/
def dataA (bytes : List Byte) : List Act := .drive (.setDC .data) :: xferActs bytes

/-- `ShiftBit(v)` (R135). -/
def shiftBit (v : Bool) : List Act :=
  [.drive (.setSDA v), .drive (.setSCK false), .drive .delay, .drive (.setSCK true), .drive .delay]

/-- `ShiftByte(b)` (R136). -/
def shiftByte (b : Byte) : List Act := (bitsMsbFirst b).flatMap shiftBit

/-- `CmdB(c)` (R137): 8 bits, no mode bit. -/
def cmdB (c : Byte) : List Act := shiftByte c

/-- One variant B data frame: the mode bit 1, then the byte (R98). -/
def dataFrameB (b : Byte) : List Act := shiftBit true ++ shiftByte b

/-- `DataB(b_0 ... b_{n-1})` (R137). -/
def dataB (bytes : List Byte) : List Act := bytes.flatMap dataFrameB

/-- One raw byte of variant B (R141). -/
def rawByteB (modeBit : Bool) (b : Byte) : List Act := (if modeBit then shiftBit true else []) ++ shiftByte b

/-- One command byte in the active variant. -/
def cmdActs (c : Config) (code : Byte) : List Act :=
  match c.variant with
  | .A => cmdA code
  | .B => cmdB code

/-- Data bytes in the active variant. -/
def dataActs (c : Config) (bytes : List Byte) : List Act :=
  match c.variant with
  | .A => dataA bytes
  | .B => dataB bytes

/-! ## The acts of the five operations -/

/-- `SEND_CMD code` (R138). -/
def sendCmdActs (c : Config) (code : Byte) : List Act := [.openS .single] ++ cmdActs c code ++ [.closeS]

/-- `SEND_DATA bytes, length` (R139). -/
def sendDataActs (c : Config) (bytes : List Byte) : List Act := [.openS .single] ++ dataActs c bytes ++ [.closeS]

/-- `BEGIN_STREAM` (R140). -/
def beginStreamActs (c : Config) : List Act :=
  match c.variant with
  | .A => [.openS .stream, .drive (.setDC .data)]
  | .B => [.openS .stream]

/-- `RAW_WRITE bytes, length` (R141). -/
def rawWriteActs (c : Config) (bytes : List Byte) : List Act :=
  match c.variant with
  | .A => xferActs bytes
  | .B => bytes.flatMap (rawByteB c.bRawModeBit)

/-- `END_STREAM` (R142). -/
def endStreamActs : List Act := [.closeS]

/-! ## The meanings -/

/-- `SEND_CMD` (R138). -/
def execSendCmd (code : Byte) (s : State) : Host.Outcome State Fault Refusal :=
  perform (.sendCmd code) .sendCmd (sendCmdActs s.cfg code) s

/-- `SEND_DATA` (R139). -/
def execSendData (bytes : List Byte) (s : State) : Host.Outcome State Fault Refusal :=
  perform (.sendData bytes) .sendData (sendDataActs s.cfg bytes) s

/-- `BEGIN_STREAM` (R140). -/
def execBeginStream (s : State) : Host.Outcome State Fault Refusal :=
  perform .beginStream .beginStream (beginStreamActs s.cfg) s

/-- `RAW_WRITE` (R141). -/
def execRawWrite (bytes : List Byte) (s : State) : Host.Outcome State Fault Refusal :=
  perform (.rawWrite bytes) .rawWrite (rawWriteActs s.cfg bytes) s

/-- `END_STREAM` (R142). -/
def execEndStream (s : State) : Host.Outcome State Fault Refusal :=
  perform .endStream .endStream endStreamActs s

end Sys2Proof.Machine
end

