-- ==== Sys2Proof/Machine/Panel.lean ====
section
/-! DEFINITION. The Panel Controller Driver (`41_panel_driver.md`): `SET_WINDOW`, `BEGIN_FRAME`, `END_FRAME`, all
composed of framer operations (R108, R170). -/

namespace Sys2Proof.Machine

/-- `SET_WINDOW x0, y0, x1, y1` (R171). -/
def setWindowActs (c : Config) (x0 y0 x1 y1 : Half) : List Act :=
  sendCmdActs c c.cmdCaset ++ sendDataActs c (windowBytes x0 x1) ++
  sendCmdActs c c.cmdRaset ++ sendDataActs c (windowBytes y0 y1)

/-- `BEGIN_FRAME` (R172). -/
def beginFrameActs (c : Config) : List Act := sendCmdActs c c.cmdRamwr ++ beginStreamActs c

/-- `END_FRAME` (R173). -/
def endFrameActs : List Act := endStreamActs

/-- `SET_WINDOW` (R171). -/
def execSetWindow (x0 y0 x1 y1 : Half) (s : State) : Host.Outcome State Fault Refusal :=
  perform (.setWindow x0 y0 x1 y1) .setWindow (setWindowActs s.cfg x0 y0 x1 y1) s

/-- `BEGIN_FRAME` (R172). -/
def execBeginFrame (s : State) : Host.Outcome State Fault Refusal :=
  perform .beginFrame .beginFrame (beginFrameActs s.cfg) s

/-- `END_FRAME` (R173). -/
def execEndFrame (s : State) : Host.Outcome State Fault Refusal :=
  perform .endFrame .endFrame endFrameActs s

end Sys2Proof.Machine
end

