-- ==== Sys2Proof/Machine/Frames.lean ====
section
/-! DEFINITION. The rows of the opcode table that are not requests: the four bus frames (`30_encoding.md` R96 to
R98), the two data blocks (R101, R102) and the three panel command bytes (R106). Each runs as the framer operation
that carries it, with that operation's session: "the enable line brackets each transfer" (R96). A command frame and a
panel command byte are a `SEND_CMD`, a data frame and a window block a `SEND_DATA` (R138, R139, R171), a pixel pair a
`RAW_WRITE` (R141, R175). A bus frame exists in its own variant only (logs 10 and 11). -/

namespace Sys2Proof.Machine

/-- `FRAME_A_CMD` (R96): the `CmdA` of R134 in its session. -/
def execFrameACmd (code : Byte) (s : State) : Host.Outcome State Fault Refusal :=
  onVariant .A s (perform (.frameACmd code) .sendCmd (sendCmdActs s.cfg code))

/-- `FRAME_A_DATA` (R96): the `DataA` of R134 in its session. -/
def execFrameAData (byte : Byte) (s : State) : Host.Outcome State Fault Refusal :=
  onVariant .A s (perform (.frameAData byte) .sendData (sendDataActs s.cfg [byte]))

/-- `FRAME_B_CMD` (R97): the `CmdB` of R137 in its session. -/
def execFrameBCmd (code : Byte) (s : State) : Host.Outcome State Fault Refusal :=
  onVariant .B s (perform (.frameBCmd code) .sendCmd (sendCmdActs s.cfg code))

/-- `FRAME_B_DATA` (R98): the `DataB` of R137 in its session. -/
def execFrameBData (byte : Byte) (s : State) : Host.Outcome State Fault Refusal :=
  onVariant .B s (perform (.frameBData byte) .sendData (sendDataActs s.cfg [byte]))

/-- The acts of `WINDOW_PARAM_BLOCK` (R101). -/
def windowBlockActs (c : Config) (first last : Half) : List Act := sendDataActs c (windowBytes first last)

/-- The acts of `PIXEL_PAIR` (R102). -/
def pixelPairActs (c : Config) (colour : Half) : List Act := rawWriteActs c (pixelBytes colour)

/-- `WINDOW_PARAM_BLOCK` (R101). -/
def execWindowParamBlock (first last : Half) (s : State) : Host.Outcome State Fault Refusal :=
  perform (.windowParamBlock first last) .sendData (windowBlockActs s.cfg first last) s

/-- `PIXEL_PAIR` (R102). -/
def execPixelPair (colour : Half) (s : State) : Host.Outcome State Fault Refusal :=
  perform (.pixelPair colour) .rawWrite (pixelPairActs s.cfg colour) s

/-- `CMD_CASET` (R106). -/
def execCmdCaset (s : State) : Host.Outcome State Fault Refusal :=
  perform .cmdCaset .sendCmd (sendCmdActs s.cfg s.cfg.cmdCaset) s

/-- `CMD_RASET` (R106). -/
def execCmdRaset (s : State) : Host.Outcome State Fault Refusal :=
  perform .cmdRaset .sendCmd (sendCmdActs s.cfg s.cfg.cmdRaset) s

/-- `CMD_RAMWR` (R106). -/
def execCmdRamwr (s : State) : Host.Outcome State Fault Refusal :=
  perform .cmdRamwr .sendCmd (sendCmdActs s.cfg s.cfg.cmdRamwr) s

end Sys2Proof.Machine
end

