-- ==== Sys2Proof/Machine/Renderer.lean ====
section
/-! DEFINITION. The Scaling Renderer (`42_renderer.md`): `RENDER`, step by step as R203 gives it. -/

namespace Sys2Proof.Machine

/-- The viewport and the padding (R191, R193). The first-try height can be wider than 16 bits and is not stored
before the comparison (log 14). -/
def viewport (c : Config) : Viewport :=
  let actH := if exceedsHeight c then c.hDst else widthFitHeight c
  let actW := if exceedsHeight c then c.hDst * c.wSrc / c.hSrc else c.wDst
  { actW := actW, actH := actH, xPad := (c.wDst - actW) / 2, yPad := (c.hDst - actH) / 2 }

/-- Phases window and begin (R195). -/
def prologueActs (c : Config) : List Act :=
  setWindowActs c (windowX0 c) (windowY0 c) (windowX1 c) (windowY1 c) ++ beginFrameActs c

/-- `FB <- fb` and phase viewport (R203). -/
def State.startRender (fb : Handle) (s : State) : State := { s with fb := fb, vp := viewport s.cfg }

/-- `LB[i] <- b` (R14). -/
def State.setLb (i : Nat) (b : Byte) (s : State) : State := { s with lb := s.lb.set i b }

/-- One pixel into the line buffer at pixel position `p` (R102, R199). -/
def State.putPixel (p : Nat) (c : Half) (s : State) : State := (s.setLb (2 * p) (hi8 c)).setLb (2 * p + 1) (lo8 c)

/-- One column of a row inside the band (R198, R199); the error is the word that cannot be read, with the state the
failing read leaves (R235, R240). -/
def State.fillColumn (x : Nat) (s : State) : Except (Nat × State) State :=
  let s := { s with ctr := { s.ctr with col := x, srcX := srcCol s.cfg s.vp x } }
  match s.sampleBit with
  | .error w => .error (w, s)
  | .ok b => .ok (s.putPixel (s.vp.xPad + x) (colour b))

/-- The columns of a row, in the given order (R198: ascending). -/
def State.fillColumns : List Nat → State → Except (Nat × State) State
  | [], s => .ok s
  | x :: xs, s =>
    match s.fillColumn x with
    | .error e => .error e
    | .ok s => s.fillColumns xs

/-- A row into the line buffer: the clear (R200), the band test (R197), the row map (R196) and the columns; `COL`
reaches `ACT_W` when its loop ends (R24). -/
def State.loadRow (y : Nat) (s : State) : Except (Nat × State) State :=
  let s := { s with ctr := { s.ctr with row := y }, lb := List.replicate (2 * s.cfg.wDst) 0#8 }
  if inBand s.vp y then
    match { s with ctr := { s.ctr with srcY := srcRow s.cfg s.vp y } }.fillColumns (List.range s.vp.actW) with
    | .error e => .error e
    | .ok s => .ok { s with ctr := { s.ctr with col := s.vp.actW } }
  else .ok s

/-- The row transmit: one `RAW_WRITE` of the line buffer (R201). -/
def State.sendRow (s : State) : State := s.run (rawWriteActs s.cfg s.lb)

/-- The rows, in the given order (R203: ascending). -/
def State.renderRows : List Nat → State → Except (Nat × State) State
  | [], s => .ok s
  | y :: ys, s =>
    match s.loadRow y with
    | .error e => .error e
    | .ok s => s.sendRow.renderRows ys

/-- After the last row: `ROW` reaches `H_DST` (R24), and `END_FRAME` (R202). -/
def State.closeFrame (s : State) : State :=
  { s with ctr := { s.ctr with row := s.cfg.hDst } }.run endFrameActs

/-- What RENDER leaves in its working registers: "their values outside a `RENDER` are unspecified" (R23 to R25, R31,
U8), so each is a free value of its width (log 3). -/
def State.retire (s : State) : State :=
  let dead := fun which => (Config.deadRegister s.epoch which).toNat
  { s with
    vp := { actW := dead 0, actH := dead 1, xPad := dead 2, yPad := dead 3 }
    ctr := { row := dead 4, col := dead 5, srcY := dead 6, srcX := dead 7 }
    fb := Config.deadHandle s.epoch
    lb := (List.range (2 * s.cfg.wDst)).map (Config.deadByte s.epoch)
    epoch := s.epoch + 1 }

/-- `RENDER fb` after its acceptance (R203). -/
def State.renderBody (fb : Handle) (s : State) : Except (Nat × State) State :=
  match ((s.startRender fb).run (prologueActs s.cfg)).renderRows (List.range s.cfg.hDst) with
  | .error e => .error e
  | .ok s => .ok s.closeFrame

/-- The outcome of a RENDER: its end, or `SourceUndefined` taken at the failing read (R235, log 5). -/
def renderOutcome : Except (Nat × State) State → Host.Outcome State Fault Refusal
  | .error (w, s) => .next (s.takeFault (.sourceUndefined w))
  | .ok s => .next s.retire.complete

/-- `RENDER` (R203). -/
def execRender (fb : Handle) (s : State) : Host.Outcome State Fault Refusal :=
  accept (.render fb) s fun s => withSession .render s fun s => renderOutcome (s.renderBody fb)

end Sys2Proof.Machine
end

