-- ==== Sys2Proof/Machine/Reserved.lean ====
section
/-! DEFINITION. The seven reserved operation codes (`30_encoding.md` R94, `60_exceptions.md` R233): each is recorded
in `FAULT` as `ReservedOp` with the `op` field, emits no event and changes nothing else. -/

namespace Sys2Proof.Machine

def execReserved0 (s : State) : Host.Outcome State Fault Refusal := reject .reserved0 0x0#4 s
def execReservedA (s : State) : Host.Outcome State Fault Refusal := reject .reservedA 0xA#4 s
def execReservedB (s : State) : Host.Outcome State Fault Refusal := reject .reservedB 0xB#4 s
def execReservedC (s : State) : Host.Outcome State Fault Refusal := reject .reservedC 0xC#4 s
def execReservedD (s : State) : Host.Outcome State Fault Refusal := reject .reservedD 0xD#4 s
def execReservedE (s : State) : Host.Outcome State Fault Refusal := reject .reservedE 0xE#4 s
def execReservedF (s : State) : Host.Outcome State Fault Refusal := reject .reservedF 0xF#4 s

end Sys2Proof.Machine
end

