-- ==== Sys2Proof/Machine/Dispatch.lean ====
section
/-! DEFINITION. The dispatch of an instruction to its meaning. -/

namespace Sys2Proof.Machine

def exec (i : Instr) (s : State) : Host.Outcome State Fault Refusal :=
  match i with
  | .sendCmd code => Sys2Proof.Machine.execSendCmd code s
  | .sendData bytes => Sys2Proof.Machine.execSendData bytes s
  | .beginStream => Sys2Proof.Machine.execBeginStream s
  | .rawWrite bytes => Sys2Proof.Machine.execRawWrite bytes s
  | .endStream => Sys2Proof.Machine.execEndStream s
  | .setWindow x0 y0 x1 y1 => Sys2Proof.Machine.execSetWindow x0 y0 x1 y1 s
  | .beginFrame => Sys2Proof.Machine.execBeginFrame s
  | .endFrame => Sys2Proof.Machine.execEndFrame s
  | .render fb => Sys2Proof.Machine.execRender fb s
  | .reserved0 => Sys2Proof.Machine.execReserved0 s
  | .reservedA => Sys2Proof.Machine.execReservedA s
  | .reservedB => Sys2Proof.Machine.execReservedB s
  | .reservedC => Sys2Proof.Machine.execReservedC s
  | .reservedD => Sys2Proof.Machine.execReservedD s
  | .reservedE => Sys2Proof.Machine.execReservedE s
  | .reservedF => Sys2Proof.Machine.execReservedF s
  | .frameACmd code => Sys2Proof.Machine.execFrameACmd code s
  | .frameAData byte => Sys2Proof.Machine.execFrameAData byte s
  | .frameBCmd code => Sys2Proof.Machine.execFrameBCmd code s
  | .frameBData byte => Sys2Proof.Machine.execFrameBData byte s
  | .windowParamBlock first last => Sys2Proof.Machine.execWindowParamBlock first last s
  | .pixelPair colour => Sys2Proof.Machine.execPixelPair colour s
  | .cmdCaset => Sys2Proof.Machine.execCmdCaset s
  | .cmdRaset => Sys2Proof.Machine.execCmdRaset s
  | .cmdRamwr => Sys2Proof.Machine.execCmdRamwr s

end Sys2Proof.Machine
end

