-- ==== Sys2Proof/Machine/Sequencer.lean ====
section
/-! DEFINITION. The sequencer at the grain of one event (`10_state.md` R33): acceptance alone, and one event of the
operation in progress. The meanings run a whole operation in one step, as R33 and R42 allow; this is the same
machine seen between two events (log 7). -/

namespace Sys2Proof.Machine

/-- The operation an instruction is accepted as; `none` for the reserved codes, which are over in one step. -/
def opOf : Instr → Option Op
  | .sendCmd _ => some .sendCmd
  | .sendData _ => some .sendData
  | .beginStream => some .beginStream
  | .rawWrite _ => some .rawWrite
  | .endStream => some .endStream
  | .setWindow _ _ _ _ => some .setWindow
  | .beginFrame => some .beginFrame
  | .endFrame => some .endFrame
  | .render _ => some .render
  | .reserved0 | .reservedA | .reservedB | .reservedC | .reservedD | .reservedE | .reservedF => none
  | .frameACmd _ | .frameBCmd _ => some .sendCmd
  | .frameAData _ | .frameBData _ => some .sendData
  | .windowParamBlock _ _ => some .sendData
  | .pixelPair _ => some .rawWrite
  | .cmdCaset | .cmdRaset | .cmdRamwr => some .sendCmd

/-- The acts of an operation whose events do not depend on the source: "an operation's event list is fixed by its
operands, the configuration and the source contents" (R33). -/
def actsOf (c : Config) : Instr → List Act
  | .sendCmd code => sendCmdActs c code
  | .sendData bytes => sendDataActs c bytes
  | .beginStream => beginStreamActs c
  | .rawWrite bytes => rawWriteActs c bytes
  | .endStream => endStreamActs
  | .setWindow x0 y0 x1 y1 => setWindowActs c x0 y0 x1 y1
  | .beginFrame => beginFrameActs c
  | .endFrame => endFrameActs
  | .windowParamBlock first last => windowBlockActs c first last
  | .pixelPair colour => pixelPairActs c colour
  | .cmdCaset => sendCmdActs c c.cmdCaset
  | .cmdRaset => sendCmdActs c c.cmdRaset
  | .cmdRamwr => sendCmdActs c c.cmdRamwr
  | .render _ => []
  | .reserved0 | .reservedA | .reservedB | .reservedC | .reservedD | .reservedE | .reservedF => []
  | .frameACmd code | .frameBCmd code => sendCmdActs c code
  | .frameAData byte | .frameBData byte => sendDataActs c [byte]

/-- How many events one row transmit has (R145, R201). -/
def rowEvents (c : Config) : Nat :=
  match c.variant with
  | .A => 1
  | .B => 2 * c.wDst * (if c.bRawModeBit then 45 else 40)

/-- The one variant an instruction exists in; `none` for those of both (R96 to R98, R130). -/
def onlyIn : Instr → Option Variant
  | .frameACmd _ | .frameAData _ => some .A
  | .frameBCmd _ | .frameBData _ => some .B
  | .sendCmd _ | .sendData _ | .beginStream | .rawWrite _ | .endStream => none
  | .setWindow _ _ _ _ | .beginFrame | .endFrame | .render _ => none
  | .reserved0 | .reservedA | .reservedB | .reservedC | .reservedD | .reservedE | .reservedF => none
  | .windowParamBlock _ _ | .pixelPair _ | .cmdCaset | .cmdRaset | .cmdRamwr => none

/-- Acceptance alone: the checks of R239 and then `BUSY = 1`, `SEQ = Busy(op, 0)` (R32, R33). -/
def startRequest (i : Instr) (s : State) : Host.Outcome State Fault Refusal :=
  match opOf i with
  | some op =>
    let start := fun s => accept i s fun s => withSession op s fun s => .next s
    match onlyIn i with
    | some v => onVariant v s start
    | none => start s
  | none => exec i s

/-- Event number `k` of an operation with the given acts (R33); `BUSY` falls with the last one (R32). DESIGN CHOICE
(log 19): an operation with no event at all, a `RAW_WRITE` of length 0, has no last one; accepted by itself it stays at
`BUSY = 1`, `SEQ = Busy(op, 0)` until the next tick, which emits nothing and ends it. -/
def advanceActs (i : Instr) (k : Nat) (acts : List Act) (s : State) : State :=
  match acts[k]? with
  | none => s.complete
  | some a =>
    if k + 1 < acts.length then { s.run [a] with seq := .busy i (k + 1) } else (s.run [a]).complete

/-- Event number `k` of `RENDER fb`: the phases viewport, window and begin, then the rows, then the end (R33, R203).
A row is loaded into the line buffer when its first event is due (log 7). -/
def advanceRender (fb : Handle) (k : Nat) (s : State) : State :=
  match (prologueActs s.cfg)[k]? with
  | some a => { (if k = 0 then s.startRender fb else s).run [a] with seq := .busy (.render fb) (k + 1) }
  | none =>
    let j := k - (prologueActs s.cfg).length
    if j / rowEvents s.cfg < s.cfg.hDst then
      match (if j % rowEvents s.cfg = 0 then s.loadRow (j / rowEvents s.cfg) else .ok s) with
      | .error (w, s) => s.takeFault (.sourceUndefined w)
      | .ok s =>
        { s.run ((rawWriteActs s.cfg s.lb)[j % rowEvents s.cfg]?).toList with seq := .busy (.render fb) (k + 1) }
    else s.closeFrame.retire.complete

/-- One event of the operation in progress; between two requests "the engine does nothing" (R75). -/
def nextEvent (s : State) : State :=
  match s.seq with
  | .idle => s
  | .busy (.render fb) k => advanceRender fb k s
  | .busy i k => advanceActs i k (actsOf s.cfg i) s

/-- `n` events. -/
def nextEvents : Nat → State → State
  | 0, s => s
  | n + 1, s => nextEvents n (nextEvent s)

end Sys2Proof.Machine
end

