-- ==== Sys2Proof/Machine/Ports.lean ====
section
/-! DEFINITION. The host interface (`10_state.md` R42): the next move of the agents outside, taken from the input
tape (log 7). The table's replay of R243 stands here too, as the host's own sequence of requests. -/

namespace Sys2Proof.Machine

/-- Run the instruction on the port: `run` on the state without the move that brought it. DESIGN CHOICE (logs 12 and
20): what carries no instruction is refused here, ahead of every check of R239, `IllegalConfig` and `Overlap` too. -/
def deliver (e : Encoded) (run : Instr → State → Host.Outcome State Fault Refusal) (s : State) :
    Host.Outcome State Fault Refusal :=
  match decode e with
  | .error d => .refused (.undecodable d)
  | .ok i => run i s

/-- After a request the owner's changes are in place, unless its operation still runs (R67). -/
def settled : Host.Outcome State Fault Refusal → Host.Outcome State Fault Refusal
  | .next s => .next s.settleIfOver
  | .fault f => .fault f
  | .refused r => .refused r

/-- One event of the operation in progress, and the owner's changes in place if it was the last; nothing between two
requests (R33, R67, R75). -/
def State.advance (s : State) : State :=
  match s.seq with
  | .idle => s
  | .busy _ _ => (nextEvent s).settleIfOver

/-- The owner's move between two events: a word of the buffer, or none any more. Between two operations it is in place
at once (R79); during one it is in flight, and a read may see the old or the new content (R67, log 6). -/
def State.ownerWrite (fb : Handle) (index : BitVec 32) (value : Option Nat) (s : State) : State :=
  let a := srcAddr fb index.toNat
  { s with
    source := if s.busy then s.source else Memory.write a (clipWord s.cfg.wordBits value) s.source
    inFlight := if s.busy then s.inFlight ++ [{ addr := a, value := value }] else s.inFlight }

/-- The next move: a request, an event, a move of the owner or a reset; an empty tape is a machine left alone. -/
def serve (s : State) : Host.Outcome State Fault Refusal :=
  match s.tape with
  | [] => .next s.advance
  | .tick :: rest => .next { s with tape := rest }.advance
  | .request e during :: rest =>
    settled (deliver e exec { s with tape := rest, inFlight := s.inFlight ++ during })
  | .start e :: rest => settled (deliver e startRequest { s with tape := rest })
  | .source fb index value :: rest => .next ({ s with tape := rest }.ownerWrite fb index value)
  | .reset :: rest => .next { s with tape := rest }.settle.powerReset

/-- The word of a table row as the host's next request. -/
def State.present (s : State) (e : Encoded) : State := { s with tape := .request e [] :: s.tape }

/-- The requests of a program, one after the other (R263). -/
def State.load (s : State) (program : List Instr) : State :=
  { s with tape := program.map (fun i => .request (encode i) []) }

/-- The host's requests for one tuple of the panel's initialisation table (R243); the post-delay is the host's own
wait (R275). -/
def replayTuple (command : Byte) (bytes : List Byte) : List Instr :=
  .sendCmd command :: (if bytes = [] then [] else [.sendData bytes])

/-- The host's requests for an initialisation table (R243, R266). -/
def replayTable (table : List (Byte × List Byte)) : List Instr := table.flatMap fun t => replayTuple t.1 t.2

end Sys2Proof.Machine
end

