-- ==== Sys2Proof/Machine/Step.lean ====
section
/-! DEFINITION. The step of the machine, and where it fetches its next instruction. -/

namespace Sys2Proof.Machine

/-- One step: the next move on the input tape, `serve`. -/
def step (s : State) : Host.Outcome State Fault Refusal := serve s

/-- `s` with the instruction of a table row at the head of the input tape. -/
def State.withFetchWord (s : State) (nbits w : Nat) : State := s.present (Encoded.ofTable nbits w)

end Sys2Proof.Machine
end

