-- ==== Sys2Proof/Machine/Picture.lean ====
section
/-! DEFINITION. The frame as a function (`42_renderer.md` R209), written without the line buffer, and the premise of
a RENDER (`20_memory.md` R66, R67). -/

namespace Sys2Proof.Machine

/-- `SampleBit` on a stable buffer (R64), where the word can be read. -/
def sourceBit (c : Config) (m : Memory) (fb : Handle) (sx sy : Nat) : Option Bool :=
  (Memory.read (srcAddr fb (wordIndex c sx sy)) m).map (·.testBit (bitPosition c sx))

/-- The premise of R66: every word the caller guarantees can be read. -/
def sourceReadable (c : Config) (m : Memory) (fb : Handle) : Prop :=
  ∀ w, w < sourceWords c → (Memory.read (srcAddr fb w) m).isSome

/-- `Pixel(x, y)` (R209), for the source image `image sx sy`. -/
def pixel (c : Config) (image : Nat → Nat → Bool) (x y : Nat) : Half :=
  let vp := viewport c
  if vp.yPad ≤ y ∧ y < vp.yPad + vp.actH ∧ vp.xPad ≤ x ∧ x < vp.xPad + vp.actW then
    colour (image ((x - vp.xPad) * c.wSrc / vp.actW) ((y - vp.yPad) * c.hSrc / vp.actH))
  else colorOff

/-- The bytes of destination row `y`, left to right (R76, R102). -/
def rowBytes (c : Config) (image : Nat → Nat → Bool) (y : Nat) : List Byte :=
  (List.range c.wDst).flatMap fun x => pixelBytes (pixel c image x y)

/-- The pixel bytes of a frame, top to bottom (R76). -/
def frameBytes (c : Config) (image : Nat → Nat → Bool) : List Byte :=
  (List.range c.hDst).flatMap (rowBytes c image)

end Sys2Proof.Machine
end

