-- ==== Sys2Proof/Machine/Observe.lean ====
section
/-! DEFINITION. What a bus history says: logical traces (`00_scope.md` R16), the panel's view (`10_state.md` R35,
`40_framer.md` R133, R146), the receiver of `30_encoding.md` R100, electrical levels (R27, R28) and counts (R145,
R276). Nothing here changes the state. -/

namespace Sys2Proof.Machine

/-- The items of a logical trace (R16). -/
inductive Logical where
  | opened
  | cmd (c : Byte)
  | data (d : Byte)
  | closed
deriving DecidableEq, Repr

/-- The logical trace of `SEND_CMD code` (R138). -/
def sendCmdTrace (code : Byte) : List Logical := [.opened, .cmd code, .closed]

/-- The logical trace of `SEND_DATA bytes` (R139). -/
def sendDataTrace (bytes : List Byte) : List Logical := .opened :: bytes.map .data ++ [.closed]

/-- The logical trace of `SET_WINDOW` (R171). -/
def setWindowTrace (c : Config) (x0 y0 x1 y1 : Half) : List Logical :=
  sendCmdTrace c.cmdCaset ++ sendDataTrace (windowBytes x0 x1) ++
  sendCmdTrace c.cmdRaset ++ sendDataTrace (windowBytes y0 y1)

/-- The logical trace of a whole frame whose pixel bytes are given: window, memory-write command, one stream
(R175, R203). -/
def frameTrace (c : Config) (x0 y0 x1 y1 : Half) (bytes : List Byte) : List Logical :=
  setWindowTrace c x0 y0 x1 y1 ++ sendCmdTrace c.cmdRamwr ++ sendDataTrace bytes

/-- The logical trace of an operation (R16): R138 to R142, R171 to R173, R203, and for the other rows of the table
the operation they run as (logs 10 and 11). `frame` is the pixel bytes a RENDER sends; nothing else reads it. -/
def logicalTrace (c : Config) (frame : List Byte) : Instr → List Logical
  | .sendCmd code => sendCmdTrace code
  | .sendData bytes => sendDataTrace bytes
  | .beginStream => [.opened]
  | .rawWrite bytes => bytes.map .data
  | .endStream => [.closed]
  | .setWindow x0 y0 x1 y1 => setWindowTrace c x0 y0 x1 y1
  | .beginFrame => sendCmdTrace c.cmdRamwr ++ [.opened]
  | .endFrame => [.closed]
  | .render _ => frameTrace c (windowX0 c) (windowY0 c) (windowX1 c) (windowY1 c) frame
  | .reserved0 | .reservedA | .reservedB | .reservedC | .reservedD | .reservedE | .reservedF => []
  | .frameACmd code | .frameBCmd code => sendCmdTrace code
  | .frameAData byte | .frameBData byte => sendDataTrace [byte]
  | .windowParamBlock first last => sendDataTrace (windowBytes first last)
  | .pixelPair colour => (pixelBytes colour).map .data
  | .cmdCaset => sendCmdTrace c.cmdCaset
  | .cmdRaset => sendCmdTrace c.cmdRaset
  | .cmdRamwr => sendCmdTrace c.cmdRamwr

/-- "The function from the logical trace to events" (R16, R134, R137), one byte a transfer (R133). A session that does
not begin with a command is a data session: variant A drives the mode line as it opens (R139, R140). DEDUCED
(log 21). -/
def traceEvents (c : Config) : List Logical → List Event
  | [] => []
  | .opened :: .cmd b :: rest => .setCS .asserted :: events (cmdActs c b) ++ traceEvents c rest
  | .opened :: rest => .setCS .asserted :: events (dataActs c []) ++ traceEvents c rest
  | .cmd b :: rest => events (cmdActs c b) ++ traceEvents c rest
  | .data d :: rest =>
    (match c.variant with
      | .A => [.xfer [d]]
      | .B => events (dataFrameB d)) ++ traceEvents c rest
  | .closed :: rest => .setCS .idle :: traceEvents c rest

/-! ## The receiver -/

/-- A byte transferred in variant A, by the level of `DC` (R96). -/
def itemA (dc : DcLevel) (b : Byte) : Logical :=
  match dc with
  | .cmd => .cmd b
  | .data => .data b

/-- What variant A's receiver makes of the events, from a level of `DC`. -/
def receiveA : DcLevel → List Event → List Logical
  | _, [] => []
  | dc, .setCS .asserted :: es => .opened :: receiveA dc es
  | dc, .setCS .idle :: es => .closed :: receiveA dc es
  | _, .setDC l :: es => receiveA l es
  | dc, .xfer bs :: es => bs.map (itemA dc) ++ receiveA dc es
  | dc, .setSDA _ :: es => receiveA dc es
  | dc, .setSCK _ :: es => receiveA dc es
  | dc, .delay :: es => receiveA dc es

/-- The sampled bits of each session that is closed (R146): `SDA` at each `SetSCK(1)` that changes `SCK`. `bits` is
what the open session has sampled so far, `none` with no session open. -/
def sessionBits : Pins → Option (List Bool) → List Event → List (List Bool)
  | _, _, [] => []
  | p, _, .setCS .asserted :: es => sessionBits { p with cs := .asserted } (some []) es
  | p, bits, .setCS .idle :: es => bits.toList ++ sessionBits { p with cs := .idle } none es
  | p, bits, .setSCK true :: es =>
    sessionBits { p with sck := true } (if p.sck then bits else bits.map (· ++ [p.sda])) es
  | p, bits, .setSCK false :: es => sessionBits { p with sck := false } bits es
  | p, bits, .setSDA v :: es => sessionBits { p with sda := v } bits es
  | p, bits, .setDC l :: es => sessionBits { p with dc := l } bits es
  | p, bits, .xfer _ :: es => sessionBits p bits es
  | p, bits, .delay :: es => sessionBits p bits es

/-- A byte from its bits, most significant first. -/
def byteOfBits (bits : List Bool) : Byte := bits.foldl (fun b v => (b <<< 1) ||| (if v then 1#8 else 0#8)) 0#8

/-- The data bytes of a session of 9-bit frames; a leading bit other than 1 is an error (R98, R100). -/
def dataBytes : List Bool → Option (List Byte)
  | [] => some []
  | m :: b7 :: b6 :: b5 :: b4 :: b3 :: b2 :: b1 :: b0 :: rest =>
    if m then (dataBytes rest).map (byteOfBits [b7, b6, b5, b4, b3, b2, b1, b0] :: ·) else none
  | _ => none

/-- What a history shows of one session: whether it opens in it, the bits sampled in it, and whether it closes. -/
structure Segment where
  opens : Bool
  bits : List Bool
  closes : Bool
deriving DecidableEq, Repr

/-- The sessions of a history, with those that were open before it or stay open after it. `cur` is the session that is
open: whether it opened in the history, and its bits so far. -/
def segments : Pins → Option (Bool × List Bool) → List Event → List Segment
  | _, cur, [] => (cur.map fun c => { opens := c.1, bits := c.2, closes := false : Segment }).toList
  | p, cur, .setCS .asserted :: es =>
    (cur.map fun c => { opens := c.1, bits := c.2, closes := false : Segment }).toList ++
      segments { p with cs := .asserted } (some (true, [])) es
  | p, cur, .setCS .idle :: es =>
    (cur.map fun c => { opens := c.1, bits := c.2, closes := true : Segment }).toList ++
      segments { p with cs := .idle } none es
  | p, cur, .setSCK true :: es =>
    segments { p with sck := true } (if p.sck then cur else cur.map fun c => (c.1, c.2 ++ [p.sda])) es
  | p, cur, .setSCK false :: es => segments { p with sck := false } cur es
  | p, cur, .setSDA v :: es => segments { p with sda := v } cur es
  | p, cur, .setDC l :: es => segments { p with dc := l } cur es
  | p, cur, .xfer _ :: es => segments p cur es
  | p, cur, .delay :: es => segments p cur es

/-- A whole session of exactly 8 bits is a command, any other bits are 9-bit data frames (R100); of a session that is
not whole, DEDUCED (log 21). -/
def Segment.items (s : Segment) : Option (List Logical) :=
  if s.opens && s.closes && s.bits.length == 8 then some [.cmd (byteOfBits s.bits)]
  else (dataBytes s.bits).map (·.map .data)

/-- What variant B's receiver makes of the sessions of a history. -/
def receiveSegments : List Segment → Option (List Logical)
  | [] => some []
  | s :: rest =>
    match s.items, receiveSegments rest with
    | some items, some more =>
      some ((if s.opens then [.opened] else []) ++ items ++ (if s.closes then [.closed] else []) ++ more)
    | _, _ => none

/-- The logical trace a receiver reads from the events, starting from the pin levels `p`, with a session open already
if `CS` is asserted; in variant B nothing where a frame is malformed. -/
def receive (v : Variant) (p : Pins) (es : List Event) : Option (List Logical) :=
  match v with
  | .A => some (receiveA p.dc es)
  | .B => receiveSegments (segments p (if p.cs = .asserted then some (false, []) else none) es)

/-! ## The panel's view -/

/-- An `Xfer` of `n` bytes as `n` one-byte transfers (R133). -/
def flattenXfer (es : List Event) : List Event :=
  es.flatMap fun e => match e with
    | .xfer bs => bs.map fun b => .xfer [b]
    | .setCS l => [.setCS l]
    | .setDC l => [.setDC l]
    | .setSDA v => [.setSDA v]
    | .setSCK v => [.setSCK v]
    | .delay => [.delay]

/-- The events the panel can see: no `Delay`, and no `Set` to the level the pin already has (R35). -/
def visible : Pins → List Event → List Event
  | _, [] => []
  | p, .delay :: es => visible p es
  | p, .xfer bs :: es => .xfer bs :: visible p es
  | p, .setCS l :: es => if p.cs = l then visible p es else .setCS l :: visible { p with cs := l } es
  | p, .setDC l :: es => if p.dc = l then visible p es else .setDC l :: visible { p with dc := l } es
  | p, .setSDA v :: es => if p.sda = v then visible p es else .setSDA v :: visible { p with sda := v } es
  | p, .setSCK v :: es => if p.sck = v then visible p es else .setSCK v :: visible { p with sck := v } es

/-- Two histories the panel cannot tell apart (R35, R133), from the pin levels `p`. -/
abbrev samePanelView (p : Pins) (es fs : List Event) : Prop := visible p (flattenXfer es) = visible p (flattenXfer fs)

/-- The electrical level of `CS` (R27). -/
def csElectrical (c : Config) : CsLevel → Bool
  | .asserted => c.csAssertLevel
  | .idle => !c.csAssertLevel

/-- The electrical level of `DC` (R28). -/
def dcElectrical (c : Config) : DcLevel → Bool
  | .data => c.dcDataLevel
  | .cmd => !c.dcDataLevel

/-! ## Counts -/

/-- How many rising edges of `SCK` the events make, from a level of `SCK` (R145). -/
def risingEdges : Bool → List Event → Nat
  | _, [] => 0
  | level, .setSCK v :: es => (if v && !level then 1 else 0) + risingEdges v es
  | level, .setCS _ :: es => risingEdges level es
  | level, .setDC _ :: es => risingEdges level es
  | level, .xfer _ :: es => risingEdges level es
  | level, .setSDA _ :: es => risingEdges level es
  | level, .delay :: es => risingEdges level es

/-- How many sessions the events open. -/
def sessionCount (es : List Event) : Nat := es.count (.setCS .asserted)

/-- The lower bound of a history's duration, in the unit of `T_BIT` (R276); nothing else about time is known. -/
def minDuration (c : Config) (es : List Event) : Nat := es.count .delay * c.tBit.val

end Sys2Proof.Machine
end

