-- ==== Sys2Proof/Safety.lean ====
section
/-! DEFINITION. What counts as a good run (`70_reset_and_hazards.md` R263) and the invariants of `10_state.md` R40,
in the terms the statements use. -/

namespace Sys2Proof.Machine

/-- A legal configuration (R10). -/
abbrev legal (c : Config) : Prop := firstBroken c = none

/-- A request is accepted here (R239): legal configuration, no fault so far, `BUSY = 0`. -/
abbrev ready (s : State) : Prop := legal s.cfg ∧ s.fault = none ∧ s.busy = false

/-- A move that brings a request. -/
def isRequest : Input → Bool
  | .request _ _ => true
  | .start _ => true
  | .tick => false
  | .source _ _ _ => false
  | .reset => false

/-- A run that has ended well (R263): the last request has completed, so none is still to come and `BUSY = 0`; no
fault; no session open. -/
abbrev endedWell (s : State) : Prop :=
  s.tape.any isRequest = false ∧ s.busy = false ∧ s.fault = none ∧ s.sess = .closed

/-- The run of a program ends well (R263): its requests, executed one after the other from the reset state of a
configuration with a given source. -/
def runEndsWell (c : Config) (source : Memory) (program : List Instr) : Bool :=
  match Sys2Proof.core.run program.length ({ State.boot c with source := source }.load program) with
  | .next t => decide (endedWell t)
  | .fault _ => false
  | .refused _ => false

/-! ## The discipline of the bus history (R40) -/

/-- What a history says about the session that is open at its end. -/
structure BusScan where
  /-- `CS` is asserted. -/
  asserted : Bool
  /-- Variant A: the level `DC` has been driven to since the session opened. -/
  driven : Option DcLevel
deriving DecidableEq, Repr

/-- The history before any event. -/
def BusScan.start : BusScan := { asserted := false, driven := none }

/-- One more event, where R40 allows it: `SetCS` strictly alternates (I-e); in variant A every `Xfer` stands in a
session in which `DC` has been driven and is not empty (I-c, R133); in variant B `SCK` and `SDA` are driven in a
session only (I-d); no event of the other variant occurs (R15). -/
def scanEvent (v : Variant) (b : BusScan) : Event → Option BusScan
  | .setCS .asserted => if b.asserted then none else some { asserted := true, driven := none }
  | .setCS .idle => if b.asserted then some { asserted := false, driven := none } else none
  | .setDC l => if v = .A ∧ b.asserted then some { b with driven := some l } else none
  | .xfer bytes => if v = .A ∧ b.asserted ∧ b.driven.isSome ∧ bytes ≠ [] then some b else none
  | .setSDA _ => if v = .B ∧ b.asserted then some b else none
  | .setSCK _ => if v = .B ∧ b.asserted then some b else none
  | .delay => if v = .B then some b else none

/-- A whole history; `none` where an event is not allowed. -/
def scan (v : Variant) : BusScan → List Event → Option BusScan
  | b, [] => some b
  | b, e :: es =>
    match scanEvent v b e with
    | none => none
    | some b => scan v b es

/-- The session invariants of R40 in one: the history is allowed, and `SESS`, `CS` and the mode line agree with it
(I-a); between operations `SESS` is never `Single` (I-b). In an open stream of variant A the mode line has been
driven to data (R140). -/
def disciplined (s : State) : Prop :=
  (s.pins.cs = .asserted ↔ s.sess ≠ .closed) ∧
  (s.busy = false → s.sess ≠ .single) ∧
  ∃ b, scan s.cfg.variant BusScan.start s.bus = some b ∧
    (b.asserted = true ↔ s.sess ≠ .closed) ∧
    (s.cfg.variant = .A → s.sess = .stream → b.driven = some .data)

/-! ## The same at every event of a run -/

/-- What the history says between two operations: nothing open, or a stream, in variant A with the mode line at data. -/
def betweenOps (v : Variant) : Sess → BusScan
  | .stream => { asserted := true, driven := if v = .A then some .data else none }
  | .closed => BusScan.start
  | .single => BusScan.start

/-- The acts an operation has made when event `k` is due, but for the rows of a RENDER: they open and close nothing
and leave the mode line alone. -/
def actsMade (c : Config) (i : Instr) (k : Nat) : List Act :=
  match i with
  | .render _ => (prologueActs c).take k
  | i => (actsOf c i).take k

/-- The history stands where `SEQ` says: between two operations, or inside one, after the acts it has made. -/
def inPlace (s : State) (b : BusScan) : Prop :=
  match s.seq with
  | .idle => s.sess ≠ .single ∧ b = betweenOps s.cfg.variant s.sess
  | .busy i k =>
    ∃ op, opOf i = some op ∧ s.sess = sessAfter (requiredSess op) (actsMade s.cfg i k) ∧
      scan s.cfg.variant (betweenOps s.cfg.variant (requiredSess op)) (events (actsMade s.cfg i k)) = some b

/-- The invariants of R40 in every state of a run, inside operations too, as long as there is no fault: `CS` agrees
with `SESS` (I-a), `SESS` is never `Single` between operations (I-b), the history is allowed (I-c to I-e), and it
stands where `SEQ` says; `DC` holds the level it was last driven to. -/
def orderly (s : State) : Prop :=
  legal s.cfg ∧ (s.busy = true ↔ s.seq ≠ .idle) ∧
  (s.fault = none →
    (s.pins.cs = .asserted ↔ s.sess ≠ .closed) ∧
    ∃ b, scan s.cfg.variant BusScan.start s.bus = some b ∧ (∀ l, b.driven = some l → s.pins.dc = l) ∧ inPlace s b)

/-! ## The invariant of every step -/

/-- The viewport registers and the counters fit 16 bits (R23, R24). -/
abbrev registersFit (s : State) : Prop :=
  s.vp.actW ≤ 65535 ∧ s.vp.actH ≤ 65535 ∧ s.vp.xPad ≤ 65535 ∧ s.vp.yPad ≤ 65535 ∧
  s.ctr.row ≤ 65535 ∧ s.ctr.col ≤ 65535 ∧ s.ctr.srcY ≤ 65535 ∧ s.ctr.srcX ≤ 65535

/-- The invariant: a legal configuration; the source in its canonical form; a line buffer of `2 × W_DST` bytes
(R31); registers of 16 bits; every pin at the level the history leaves it (R14); `CS` asserted exactly in a session
(R40 I-a); `BUSY` exactly when `SEQ` is not `Idle` (R32, R33); no change of the owner in flight between operations
(R67). -/
def Consistent (s : State) : Prop :=
  legal s.cfg ∧
  Memory.wf s.cfg.wordBits s.source = true ∧
  s.lb.length = 2 * s.cfg.wDst ∧
  registersFit s ∧
  s.pins = Pins.reset.applyAll s.bus ∧
  (s.pins.cs = .asserted ↔ s.sess ≠ .closed) ∧
  (s.busy = true ↔ s.seq ≠ .idle) ∧
  (s.busy = false → s.inFlight = [])

end Sys2Proof.Machine
end

