-- ==== Sys2Proof/Certificates/Slice0/Obligations.lean ====
section
/-! DEFINITION. The statements for the provers, and the event lists, pin levels and tables of the spec they are
stated in (`Sys2Proof.Spec`), written from the spec's rules and not from the meanings. -/

open Sys2Proof Sys2Proof.Machine

namespace Sys2Proof.Spec

/-! ## The spec's event lists -/

/-- `ShiftBit(v)` (R135). -/
def bitEvents (v : Bool) : List Event := [.setSDA v, .setSCK false, .delay, .setSCK true, .delay]

/-- `ShiftByte(b)`: `for i = 7 downto 0` (R136). -/
def byteEvents (b : Byte) : List Event :=
  bitEvents (b.getLsbD 7) ++ bitEvents (b.getLsbD 6) ++ bitEvents (b.getLsbD 5) ++ bitEvents (b.getLsbD 4) ++
  bitEvents (b.getLsbD 3) ++ bitEvents (b.getLsbD 2) ++ bitEvents (b.getLsbD 1) ++ bitEvents (b.getLsbD 0)

/-- One command byte in an open session (R134, R137). -/
def cmdEvents (c : Config) (code : Byte) : List Event :=
  match c.variant with
  | .A => [.setDC .cmd, .xfer [code]]
  | .B => byteEvents code

/-- Data bytes in an open session (R134, R137). -/
def dataEvents (c : Config) (bytes : List Byte) : List Event :=
  match c.variant with
  | .A => .setDC .data :: (if bytes = [] then [] else [.xfer bytes])
  | .B => bytes.flatMap fun b => bitEvents true ++ byteEvents b

/-- A session around some events (R131). -/
def session (es : List Event) : List Event := .setCS .asserted :: es ++ [.setCS .idle]

/-- The events of `BEGIN_STREAM` (R140). -/
def streamEvents (c : Config) : List Event :=
  match c.variant with
  | .A => [.setCS .asserted, .setDC .data]
  | .B => [.setCS .asserted]

/-- The events of `RAW_WRITE` (R141). -/
def rawEvents (c : Config) (bytes : List Byte) : List Event :=
  match c.variant with
  | .A => if bytes = [] then [] else [.xfer bytes]
  | .B => bytes.flatMap fun b => (if c.bRawModeBit then bitEvents true else []) ++ byteEvents b

/-- The four bytes of a window command: `hi8(s), lo8(s), hi8(e), lo8(e)` (R101), by division (R13). -/
def blockBytes (first last : Half) : List Byte :=
  [BitVec.ofNat 8 (first.toNat / 256), BitVec.ofNat 8 first.toNat,
   BitVec.ofNat 8 (last.toNat / 256), BitVec.ofNat 8 last.toNat]

/-- The events of `SET_WINDOW` (R171). -/
def windowEvents (c : Config) (x0 y0 x1 y1 : Half) : List Event :=
  session (cmdEvents c c.cmdCaset) ++ session (dataEvents c (blockBytes x0 x1)) ++
  session (cmdEvents c c.cmdRaset) ++ session (dataEvents c (blockBytes y0 y1))

/-- The events of `RENDER` before its first row: the window, the memory-write command, the open stream (R195). -/
def renderOpening (c : Config) : List Event :=
  windowEvents c (BitVec.ofNat 16 c.xOff) (BitVec.ofNat 16 c.yOff)
    (BitVec.ofNat 16 (c.xOff + c.wDst - 1)) (BitVec.ofNat 16 (c.yOff + c.hDst - 1)) ++
  session (cmdEvents c c.cmdRamwr) ++ streamEvents c

/-- The events of `RENDER` for given rows of bytes (R203). -/
def renderEvents (c : Config) (rows : List (List Byte)) : List Event :=
  renderOpening c ++ rows.flatMap (rawEvents c) ++ [.setCS .idle]

/-- The event list of an operation (R33); for `RENDER`, whose list depends on the source, one of the same length: that
of an all-off frame (R210). The rows that are no operation have the list of the operation they run as (logs 10 and
11). -/
def opEvents (c : Config) : Instr → List Event
  | .sendCmd code | .frameACmd code | .frameBCmd code => session (cmdEvents c code)
  | .sendData bytes => session (dataEvents c bytes)
  | .frameAData byte | .frameBData byte => session (dataEvents c [byte])
  | .beginStream => streamEvents c
  | .rawWrite bytes => rawEvents c bytes
  | .endStream | .endFrame => [.setCS .idle]
  | .setWindow x0 y0 x1 y1 => windowEvents c x0 y0 x1 y1
  | .beginFrame => session (cmdEvents c c.cmdRamwr) ++ streamEvents c
  | .render _ => renderEvents c (List.replicate c.hDst (List.replicate (2 * c.wDst) 0x00#8))
  | .reserved0 | .reservedA | .reservedB | .reservedC | .reservedD | .reservedE | .reservedF => []
  | .windowParamBlock first last => session (dataEvents c (blockBytes first last))
  | .pixelPair p => rawEvents c [BitVec.ofNat 8 (p.toNat / 256), BitVec.ofNat 8 p.toNat]
  | .cmdCaset => session (cmdEvents c c.cmdCaset)
  | .cmdRaset => session (cmdEvents c c.cmdRaset)
  | .cmdRamwr => session (cmdEvents c c.cmdRamwr)

/-- `SDA` is not driven between a `SetSCK(0)` and the next `SetSCK(1)` (R146); `low` says that one is open. -/
def dataHeld : Bool → List Event → Bool
  | _, [] => true
  | _, .setSCK v :: es => dataHeld (!v) es
  | low, .setSDA _ :: es => !low && dataHeld low es
  | low, .setCS _ :: es => dataHeld low es
  | low, .setDC _ :: es => dataHeld low es
  | low, .xfer _ :: es => dataHeld low es
  | low, .delay :: es => dataHeld low es

/-! ## The spec's pin levels (R144) -/

/-- `SCK` and `SDA` after variant B has shifted a byte: 1 and bit 0 of the byte. -/
def shifted (p : Pins) (b : Byte) : Pins := { p with sck := true, sda := b.getLsbD 0 }

/-- `SCK` and `SDA` after some bytes: "same" after none. -/
def shiftedAll (p : Pins) (bytes : List Byte) : Pins :=
  match bytes.getLast? with
  | none => p
  | some b => shifted p b

/-- After `SEND_CMD code`. -/
def cmdPins (c : Config) (p : Pins) (code : Byte) : Pins :=
  match c.variant with
  | .A => { p with cs := .idle, dc := .cmd }
  | .B => { shifted p code with cs := .idle }

/-- After `SEND_DATA bytes`. -/
def dataPins (c : Config) (p : Pins) (bytes : List Byte) : Pins :=
  match c.variant with
  | .A => { p with cs := .idle, dc := .data }
  | .B => { shiftedAll p bytes with cs := .idle }

/-- After `BEGIN_STREAM`. -/
def streamPins (c : Config) (p : Pins) : Pins :=
  match c.variant with
  | .A => { p with cs := .asserted, dc := .data }
  | .B => { p with cs := .asserted }

/-- After `RAW_WRITE bytes`. -/
def rawPins (c : Config) (p : Pins) (bytes : List Byte) : Pins :=
  match c.variant with
  | .A => p
  | .B => shiftedAll p bytes

/-! ## States -/

/-- The state an operation leaves: its events appended to `BUS`, its pins, its `SESS`, `BUSY` back at 0; everything
else is as it was. -/
def done (s : State) (es : List Event) (p : Pins) (q : Sess) : State :=
  { s with bus := s.bus ++ es, pins := p, sess := q, busy := false, seq := .idle }

/-- The state a model fault leaves: `FAULT` records it, `BUSY` is back at 0; everything else is as it was (R240). -/
def faulted (s : State) (f : FaultMark) : State := { s with fault := some f, busy := false, seq := .idle }

/-- The owner's changes made during an operation are in place once it is over (R67, R79). -/
def settledState (t : State) : State :=
  if t.busy = true then t
  else { t with source := Memory.writeAll t.cfg.wordBits t.inFlight t.source, inFlight := [] }

/-- The same for the outcome of a request. -/
def settledOutcome : Host.Outcome State Fault Refusal → Host.Outcome State Fault Refusal
  | .next t => .next (settledState t)
  | .fault f => .fault f
  | .refused r => .refused r

/-- The inequalities of R10, by the names of the bounds. -/
def boundHolds (c : Config) : Bound → Prop
  | .wSrcMin => 1 ≤ c.wSrc
  | .hSrcMin => 1 ≤ c.hSrc
  | .wDstMin => 1 ≤ c.wDst
  | .hDstMin => 1 ≤ c.hDst
  | .wordBitsMin => 1 ≤ c.wordBits
  | .wSrcMax => c.wSrc ≤ 65535
  | .hSrcMax => c.hSrc ≤ 65535
  | .wDstMax => c.wDst ≤ 65535
  | .hDstMax => c.hDst ≤ 65535
  | .xOffMax => c.xOff + c.wDst - 1 ≤ 65535
  | .yOffMax => c.yOff + c.hDst - 1 ≤ 65535
  | .stride => c.stride = (c.wSrc + c.wordBits - 1) / c.wordBits

/-- `SESS` required at the start of an operation and left at its end (R132; R171 to R173, R203 for the last four). -/
def sessTable : Op → Sess × Sess
  | .sendCmd => (.closed, .closed)
  | .sendData => (.closed, .closed)
  | .beginStream => (.closed, .stream)
  | .rawWrite => (.stream, .stream)
  | .endStream => (.stream, .closed)
  | .setWindow => (.closed, .closed)
  | .beginFrame => (.closed, .stream)
  | .endFrame => (.stream, .closed)
  | .render => (.closed, .closed)

/-- The reserved codes and the instructions that stand for them (R94). -/
def reservedTable : List (Instr × BitVec 4) :=
  [(.reserved0, 0x0), (.reservedA, 0xA), (.reservedB, 0xB), (.reservedC, 0xC), (.reservedD, 0xD),
   (.reservedE, 0xE), (.reservedF, 0xF)]

/-- The instruction exists under this configuration: a bus frame belongs to one variant (R96 to R98, R130). -/
def available (i : Instr) (c : Config) : Prop := ∀ v, onlyIn i = some v → c.variant = v

/-- Requests one after the other, stopping where one does not answer a next state. -/
def runAll : List Instr → State → Host.Outcome State Fault Refusal
  | [], s => .next s
  | i :: is, s =>
    match exec i s with
    | .next t => runAll is t
    | .fault f => .fault f
    | .refused r => .refused r

/-- A RENDER can start here, on a stable buffer (R67) that shows the image `image` (R64, R66). -/
def renderable (s : State) (fb : Handle) (image : Nat → Nat → Bool) : Prop :=
  ready s ∧ s.sess = .closed ∧ s.inFlight = [] ∧
  ∀ sx sy, sx < s.cfg.wSrc → sy < s.cfg.hSrc → sourceBit s.cfg s.source fb sx sy = some (image sx sy)

/-- `t` is `s` but for the renderer's own registers, whose values after a RENDER are unspecified (R23 to R25, R31),
and the model's counter of RENDERs. -/
def sameButRenderer (t s : State) : Prop :=
  t = { s with vp := t.vp, ctr := t.ctr, fb := t.fb, lb := t.lb, epoch := t.epoch }

/-- The source bit every active destination pixel samples (R209). -/
def activeIndex (c : Config) (x y : Nat) : Nat × Nat :=
  (x * c.wSrc / (viewport c).actW, y * c.hSrc / (viewport c).actH)

end Sys2Proof.Spec

open Sys2Proof.Spec

/-! ## Encodings -/

/-- Decoding an encoded well-formed instruction gives it back, with every operand at every value (R91 to R106). -/
def Obligations.DecodeAfterEncode : Prop :=
  ∀ i : Instr, i.WellFormed → decode (encode i) = .ok i

/-- R92: the operation codes and the operands each takes, read off the 68-bit word by division; the other bits are
ignored (R95). -/
def Obligations.RequestWordsDecodeByTheirFields : Prop :=
  ∀ (w : ReqWord) (payload : List Byte),
    let op := w.toNat / 2 ^ 64
    let arg0 := w.toNat / 2 ^ 48 % 2 ^ 16
    let arg1 := w.toNat / 2 ^ 32 % 2 ^ 16
    let arg2 := w.toNat / 2 ^ 16 % 2 ^ 16
    let arg3 := w.toNat % 2 ^ 16
    (op = 1 → decode (.request w []) = .ok (.sendCmd (BitVec.ofNat 8 (arg0 % 2 ^ 8)))) ∧
    (op = 2 → payload.length = arg0 → decode (.request w payload) = .ok (.sendData payload)) ∧
    (op = 3 → decode (.request w []) = .ok .beginStream) ∧
    (op = 4 → payload.length = arg0 → decode (.request w payload) = .ok (.rawWrite payload)) ∧
    (op = 5 → decode (.request w []) = .ok .endStream) ∧
    (op = 6 → decode (.request w []) = .ok (.setWindow (BitVec.ofNat 16 arg0) (BitVec.ofNat 16 arg1)
      (BitVec.ofNat 16 arg2) (BitVec.ofNat 16 arg3))) ∧
    (op = 7 → decode (.request w []) = .ok .beginFrame) ∧
    (op = 8 → decode (.request w []) = .ok .endFrame) ∧
    (op = 9 → decode (.request w []) = .ok (.render (BitVec.ofNat 32 (arg0 * 2 ^ 16 + arg1))))

/-- Words written out from the tables decode to their instructions: one of each format of encoding (R92, R94, R96 to
R98, R101, R102, R106; the request words are those of `95_test_vectors.md` P1 and P3). The table gives its 8-bit and
9-bit rows no format: which words of 8 and 16 bits `decodeTableWord` reads as a frame, a pixel pair or a panel command
byte is the model's choice (log 12). -/
def Obligations.WrittenWordsDecode : Prop :=
  decodeTableWord 72 0x10036000000000000 = some (.sendCmd 0x36) ∧
  decodeTableWord 72 0x92000000000000000 = some (.render 0x20000000) ∧
  decodeTableWord 72 0xA0000000000000000 = some .reservedA ∧
  decodeTableWord 16 0x0A5 = some (.frameACmd 0xA5) ∧
  decodeTableWord 16 0x1A5 = some (.frameAData 0xA5) ∧
  decodeTableWord 8 0xA5 = some (.frameBCmd 0xA5) ∧
  decode (.frameB9 0x1A5) = .ok (.frameBData 0xA5) ∧
  decodeTableWord 32 0x0000013F = some (.windowParamBlock 0 319) ∧
  decodeTableWord 16 0xFF00 = some (.pixelPair 0xFF00) ∧
  decodeTableWord 8 0x2B = some .cmdRaset

/-! ## The step -/

/-- A step runs the decoded instruction (R42; the tape is the model's form of the ports, log 7): with a request on the
port, the step takes it off the tape and runs `exec`; with a request to be run event by event it makes `startRequest`;
the owner's changes are in place unless the operation still runs (log 6). What does not decode (a payload of another
length than announced, R93; a 9-bit variant B frame without its mode bit, R98) is refused as undecodable, before
anything else, which is the model's choice (logs 12 and 20). -/
def Obligations.StepRunsTheDecodedInstruction : Prop :=
  ∀ (s : State) (e : Encoded) (rest : List Input),
    (∀ during, s.tape = .request e during :: rest →
      (∀ i, decode e = .ok i →
        step s = settledOutcome (exec i { s with tape := rest, inFlight := s.inFlight ++ during })) ∧
      ∀ d, decode e = .error d → step s = .refused (.undecodable d)) ∧
    (s.tape = .start e :: rest →
      (∀ i, decode e = .ok i → step s = settledOutcome (startRequest i { s with tape := rest })) ∧
      ∀ d, decode e = .error d → step s = .refused (.undecodable d))

/-- A machine left alone between two requests does nothing (R75): with an empty tape, or at a `tick` (the model's own
grain, log 7). -/
def Obligations.IdleEngineDoesNothing : Prop :=
  ∀ s : State, s.seq = .idle → (s.tape = [] → step s = .next s) ∧
    ∀ rest, s.tape = .tick :: rest → step s = .next { s with tape := rest }

/-- R33: while an operation runs, a step left alone is one event (an empty tape or a `tick`, the model's own grain, log
7), and `SEQ` advances by one event and never goes backwards or skips. Event number `k` of `n` is appended; while more
are to come `SEQ` moves to `k + 1`, with the last one the operation is over, and nothing else ends it but a word of the
source that RENDER cannot read. An operation with no event is over at its first tick (log 19). -/
def Obligations.SequencerAdvancesByOneEvent : Prop :=
  ∀ (s : State) (i : Instr) (k : Nat), Consistent s → s.seq = .busy i k →
    let t := nextEvent s
    let n := (opEvents s.cfg i).length
    let emitsEventK := ∃ e, t.bus = s.bus ++ [e] ∧ ((∀ fb, i ≠ .render fb) → (opEvents s.cfg i)[k]? = some e)
    let ended := t.seq = .idle ∧ t.busy = false
    (s.tape = [] → step s = .next (settledState t)) ∧
    (∀ rest, s.tape = .tick :: rest → step s = .next (settledState (nextEvent { s with tape := rest }))) ∧
    ((k + 1 < n ∧ t.seq = .busy i (k + 1) ∧ t.busy = true ∧ emitsEventK) ∨
     (n ≤ k + 1 ∧ ended ∧ (k < n → emitsEventK) ∧ ((∃ e, t.bus = s.bus ++ [e]) ∨ t.bus = s.bus)) ∨
     (∃ fb w, i = .render fb ∧ ended ∧ t.bus = s.bus ∧ t.fault = some (s.fault.getD (.sourceUndefined w))))

/-- Running an operation as one step is running its events one by one (R33, R35; the two grains are the model's, log
7). A request that passes the checks is accepted with `BUSY = 1` and `SEQ` at its first event, and nothing else changes
(R32); from there some number of events leads to the very state `exec` answers, and `BUSY` is 1 until then (for an
operation with no event, log 19). The rows that are no operation run as one (logs 10 and 11). -/
def Obligations.WholeOperationIsItsEvents : Prop :=
  (∀ (i : Instr) (op : Op) (s : State), opOf i = some op → available i s.cfg → ready s → s.sess = (sessTable op).1 →
    startRequest i s = .next { s with busy := true, seq := .busy i 0 }) ∧
  ∀ (i : Instr) (s b t : State), startRequest i s = .next b → b.busy = true → s.busy = false →
    exec i s = .next t →
    ∃ n, nextEvents n b = t ∧ t.busy = false ∧ ∀ m, m < n → (nextEvents m b).busy = true

/-! ## The Transaction Framer -/

/-- R138. -/
def Obligations.SendCmdCompletes : Prop :=
  ∀ (s : State) (code : Byte), ready s → s.sess = .closed →
    exec (.sendCmd code) s =
      .next (done s (session (cmdEvents s.cfg code)) (cmdPins s.cfg s.pins code) .closed)

/-- R139. -/
def Obligations.SendDataCompletes : Prop :=
  ∀ (s : State) (bytes : List Byte), ready s → s.sess = .closed →
    exec (.sendData bytes) s =
      .next (done s (session (dataEvents s.cfg bytes)) (dataPins s.cfg s.pins bytes) .closed)

/-- R140. -/
def Obligations.BeginStreamCompletes : Prop :=
  ∀ s : State, ready s → s.sess = .closed →
    exec .beginStream s = .next (done s (streamEvents s.cfg) (streamPins s.cfg s.pins) .stream)

/-- R141. -/
def Obligations.RawWriteCompletes : Prop :=
  ∀ (s : State) (bytes : List Byte), ready s → s.sess = .stream →
    exec (.rawWrite bytes) s = .next (done s (rawEvents s.cfg bytes) (rawPins s.cfg s.pins bytes) .stream)

/-- R142. -/
def Obligations.EndStreamCompletes : Prop :=
  ∀ s : State, ready s → s.sess = .stream →
    exec .endStream s = .next (done s [.setCS .idle] { s.pins with cs := .idle } .closed)

/-! ## The Panel Controller Driver -/

/-- R171: the events, and the pin levels of its last `SEND_DATA`; in variant B `SDA = y1[0]`. -/
def Obligations.SetWindowCompletes : Prop :=
  ∀ (s : State) (x0 y0 x1 y1 : Half), ready s → s.sess = .closed →
    exec (.setWindow x0 y0 x1 y1) s =
      .next (done s (windowEvents s.cfg x0 y0 x1 y1)
        (match s.cfg.variant with
          | .A => { s.pins with cs := .idle, dc := .data }
          | .B => { s.pins with cs := .idle, sck := true, sda := y1.getLsbD 0 }) .closed)

/-- R172. -/
def Obligations.BeginFrameCompletes : Prop :=
  ∀ s : State, ready s → s.sess = .closed →
    exec .beginFrame s =
      .next (done s (session (cmdEvents s.cfg s.cfg.cmdRamwr) ++ streamEvents s.cfg)
        (match s.cfg.variant with
          | .A => { s.pins with cs := .asserted, dc := .data }
          | .B => { s.pins with cs := .asserted, sck := true, sda := s.cfg.cmdRamwr.getLsbD 0 }) .stream)

/-- R173. -/
def Obligations.EndFrameCompletes : Prop :=
  ∀ s : State, ready s → s.sess = .stream →
    exec .endFrame s = .next (done s [.setCS .idle] { s.pins with cs := .idle } .closed)

/-- R108: from a ready state with the `SESS` it requires, each of the four composite operations is exactly its
expansion; of `RENDER` all but the renderer's own
registers, whose values afterwards are unspecified. -/
def Obligations.CompositesAreTheirExpansions : Prop :=
  ∀ (s : State), ready s →
    (s.sess = .closed → ∀ x0 y0 x1 y1 : Half,
      exec (.setWindow x0 y0 x1 y1) s =
        runAll [.sendCmd s.cfg.cmdCaset, .sendData (blockBytes x0 x1),
          .sendCmd s.cfg.cmdRaset, .sendData (blockBytes y0 y1)] s) ∧
    (s.sess = .closed → exec .beginFrame s = runAll [.sendCmd s.cfg.cmdRamwr, .beginStream] s) ∧
    (s.sess = .stream → exec .endFrame s = runAll [.endStream] s) ∧
    (∀ fb image, renderable s fb image → ∃ t u,
      exec (.render fb) s = .next t ∧
      runAll ([.setWindow (BitVec.ofNat 16 s.cfg.xOff) (BitVec.ofNat 16 s.cfg.yOff)
          (BitVec.ofNat 16 (s.cfg.xOff + s.cfg.wDst - 1)) (BitVec.ofNat 16 (s.cfg.yOff + s.cfg.hDst - 1)),
          .beginFrame] ++ (List.range s.cfg.hDst).map (fun y => .rawWrite (rowBytes s.cfg image y)) ++
          [.endFrame]) s = .next u ∧
      sameButRenderer t u)

/-! ## The bus frames, data blocks and panel command bytes -/

/-- R106: each of the three panel command bytes is sent as a command, with the byte the configuration gives it. That a
row of the table runs as a `SEND_CMD` is the model's choice (log 11). -/
def Obligations.PanelCommandBytesAreSent : Prop :=
  ∀ s : State, ready s → s.sess = .closed →
    exec .cmdCaset s =
      .next (done s (session (cmdEvents s.cfg s.cfg.cmdCaset)) (cmdPins s.cfg s.pins s.cfg.cmdCaset) .closed) ∧
    exec .cmdRaset s =
      .next (done s (session (cmdEvents s.cfg s.cfg.cmdRaset)) (cmdPins s.cfg s.pins s.cfg.cmdRaset) .closed) ∧
    exec .cmdRamwr s =
      .next (done s (session (cmdEvents s.cfg s.cfg.cmdRamwr)) (cmdPins s.cfg s.pins s.cfg.cmdRamwr) .closed)

/-- R101, R102: a window block is four data bytes in one session, a pixel pair two bytes of an open stream, high byte
first. That the rows run as a `SEND_DATA` and a `RAW_WRITE` is the model's choice (log 11). -/
def Obligations.DataBlocksAreSent : Prop :=
  (∀ (s : State) (first last : Half), ready s → s.sess = .closed →
    exec (.windowParamBlock first last) s =
      .next (done s (session (dataEvents s.cfg (blockBytes first last)))
        (dataPins s.cfg s.pins (blockBytes first last)) .closed)) ∧
  (∀ (s : State) (p : Half), ready s → s.sess = .stream →
    let bytes := [BitVec.ofNat 8 (p.toNat / 256), BitVec.ofNat 8 p.toNat]
    exec (.pixelPair p) s = .next (done s (rawEvents s.cfg bytes) (rawPins s.cfg s.pins bytes) .stream))

/-- R96 to R98, R134, R137: each of the two bus frames of the active variant, in a session of its own: in variant A
the mode line and one transfer, in variant B 8 clocked bits of a command, a 1 and 8 clocked bits of a data byte. That a
frame requested by itself runs in a session of its own is the model's choice (log 10). -/
def Obligations.BusFramesAreSent : Prop :=
  ∀ (s : State) (b : Byte), ready s → s.sess = .closed →
    (s.cfg.variant = .A →
      exec (.frameACmd b) s =
        .next (done s [.setCS .asserted, .setDC .cmd, .xfer [b], .setCS .idle]
          { s.pins with cs := .idle, dc := .cmd } .closed) ∧
      exec (.frameAData b) s =
        .next (done s [.setCS .asserted, .setDC .data, .xfer [b], .setCS .idle]
          { s.pins with cs := .idle, dc := .data } .closed)) ∧
    (s.cfg.variant = .B →
      exec (.frameBCmd b) s =
        .next (done s (session (byteEvents b)) { shifted s.pins b with cs := .idle } .closed) ∧
      exec (.frameBData b) s =
        .next (done s (session (bitEvents true ++ byteEvents b)) { shifted s.pins b with cs := .idle } .closed))

/-- R130: exactly one variant is active; the bus frames of the other one are refused (the model's choice, log 10),
whether or not an operation runs: that the refusal stands ahead of `Overlap`, which R239 and R234 put second, is the
model's choice too (log 20). -/
def Obligations.FramesOfTheOtherVariantAreRefused : Prop :=
  ∀ (s : State) (b : Byte), legal s.cfg → s.fault = none →
    (s.cfg.variant = .B → exec (.frameACmd b) s = .refused (.inactiveVariant .B) ∧
      exec (.frameAData b) s = .refused (.inactiveVariant .B)) ∧
    (s.cfg.variant = .A → exec (.frameBCmd b) s = .refused (.inactiveVariant .A) ∧
      exec (.frameBData b) s = .refused (.inactiveVariant .A))

/-! ## Faults -/

/-- R94, R233: every word whose `op` names no operation decodes to its reserved row, and that row changes nothing but
`FAULT`, which records the `op` field. -/
def Obligations.ReservedCodesAreRecorded : Prop :=
  ∀ i code, (i, code) ∈ reservedTable →
    (∀ w : ReqWord, w.toNat / 2 ^ 64 = code.toNat → decode (.request w []) = .ok i) ∧
    ∀ s : State, ready s → exec i s = .next (faulted s (.reservedOp code))

/-- R132, R232: an operation whose required `SESS` does not hold records `ProtocolViolation` and changes nothing else;
one that completes found that value and leaves the table's other value. The rows for `SET_WINDOW`, `BEGIN_FRAME`,
`END_FRAME` and `RENDER` are R171 to R173 and R203; that bus frames, data blocks and panel command bytes run as an
operation of this table is the model's choice (logs 10 and 11). -/
def Obligations.SessionDisciplineHolds : Prop :=
  ∀ (i : Instr) (op : Op) (s : State), opOf i = some op → available i s.cfg → ready s →
    (s.sess ≠ (sessTable op).1 → exec i s = .next (faulted s (.protocolViolation op s.sess))) ∧
    (∀ t, exec i s = .next t → t.fault = none → s.sess = (sessTable op).1 ∧ t.sess = (sessTable op).2)

/-- R234: a request let through while `BUSY = 1` records `Overlap` with the operation in progress and the new one
(R231), and nothing else happens; it is not queued. `BUSY` goes back to 0 (R240) and `SEQ` to `Idle` (log 8); that bus
frames, data blocks and panel command bytes are requests is the model's choice (logs 10 and 11). -/
def Obligations.OverlapIsRecorded : Prop :=
  ∀ (i : Instr) (s : State), legal s.cfg → s.fault = none → s.busy = true → available i s.cfg →
    ((opOf i).isSome ∨ ∃ code, (i, code) ∈ reservedTable) →
    exec i s = .next (faulted s (.overlap s.seq i))

/-- R10: what a legal configuration is. -/
def Obligations.LegalConfigurations : Prop :=
  ∀ c : Config, legal c ↔
    1 ≤ c.wSrc ∧ 1 ≤ c.hSrc ∧ 1 ≤ c.wDst ∧ 1 ≤ c.hDst ∧ 1 ≤ c.wordBits ∧
    c.wSrc ≤ 65535 ∧ c.hSrc ≤ 65535 ∧ c.wDst ≤ 65535 ∧ c.hDst ≤ 65535 ∧
    c.xOff + c.wDst - 1 ≤ 65535 ∧ c.yOff + c.hDst - 1 ≤ 65535 ∧
    c.stride = (c.wSrc + c.wordBits - 1) / c.wordBits

/-- R236: under any other configuration no operation runs, whatever the state: an instruction does nothing but record
`IllegalConfig` in `FAULT`, with a bound of R10 that the configuration breaks (R231), and BUSY is back at 0 (R240), `SEQ`
at `Idle` (log 8). That the request is where it is recorded, acceptance alone too, is the model's choice (log 9). -/
def Obligations.IllegalConfigIsRefused : Prop :=
  ∀ (i : Instr) (s : State), ¬ legal s.cfg → s.fault = none →
    ∃ b, ¬ boundHolds s.cfg b ∧ exec i s = .next (faulted s (.illegalConfig b)) ∧ startRequest i s = exec i s

/-- R239: the first failing check decides the outcome of a request: `IllegalConfig`, `Overlap`, `ReservedOp`,
`ProtocolViolation`; `SourceUndefined` comes from a RENDER that passed all four. The rows of `SESS` are R132, R171 to
R173 and R203; which operation a bus frame, data block or panel command byte is checked as is the model's choice (logs
10 and 11). -/
def Obligations.FirstFailingCheckDecides : Prop :=
  ∀ (i : Instr) (s t : State), s.fault = none → exec i s = .next t → ∀ f, t.fault = some f →
    (¬ legal s.cfg → ∃ b, f = .illegalConfig b ∧ ¬ boundHolds s.cfg b) ∧
    (legal s.cfg → s.busy = true → f = .overlap s.seq i) ∧
    (legal s.cfg → s.busy = false → ∀ code, (i, code) ∈ reservedTable → f = .reservedOp code) ∧
    (legal s.cfg → s.busy = false → ∀ op, opOf i = some op → s.sess ≠ (sessTable op).1 →
      f = .protocolViolation op s.sess) ∧
    (legal s.cfg → s.busy = false → ∀ op, opOf i = some op → s.sess = (sessTable op).1 →
      op = .render ∧ ∃ w, f = .sourceUndefined w)

/-- R241: no step but a reset clears `FAULT`, and a reset does. -/
def Obligations.FaultIsSticky : Prop :=
  ∀ (s : State) (f : FaultMark), s.fault = some f →
    (∀ t, step s = .next t → (∀ rest, s.tape ≠ .reset :: rest) → t.fault = some f) ∧
    (∀ rest, s.tape = .reset :: rest → ∃ t, step s = .next t ∧ t.fault = none)

/-- The model stops at the first fault, as R241 allows: every instruction given to a machine whose `FAULT` is set
stops with the mark, in every configuration (log 8). -/
def Obligations.FaultedMachineStops : Prop :=
  ∀ (i : Instr) (s : State) (f : FaultMark), s.fault = some f → exec i s = .fault (.faulted f)

/-! ## Reset -/

/-- R260: the values after reset, in any configuration and from any state. -/
def Obligations.ResetLeavesTheStatedValues : Prop :=
  ∀ (s t : State) (c : Config), (t = State.boot c ∨ t = s.powerReset) →
    t.sess = .closed ∧ t.pins.cs = .idle ∧ t.busy = false ∧ t.seq = .idle ∧ t.bus = [] ∧ t.fault = none

/-- R262: a reset during an operation abandons it: from any state the engine is as after power-on (the unspecified
registers at the values this model names, log 2), with the configuration, the framebuffers with the owner's changes
in place, and the moves still to come as they were (the model's choice, log 17). -/
def Obligations.ResetAbandonsTheOperation : Prop :=
  ∀ (s : State) (rest : List Input), s.tape = .reset :: rest →
    ∃ t, step s = .next t ∧
      t = { State.boot s.cfg with
        source := Memory.writeAll s.cfg.wordBits s.inFlight s.source
        tape := rest
        epoch := t.epoch }

/-! ## The renderer's arithmetic -/

/-- R191 and R192: the viewport is the width fit unless its height exceeds the panel, strictly; it never exceeds the
panel and fills it on one axis. -/
def Obligations.ViewportFillsOneAxis : Prop :=
  ∀ c : Config, legal c →
    ((viewport c).actW, (viewport c).actH) =
      (if c.wDst * c.hSrc / c.wSrc > c.hDst then (c.hDst * c.wSrc / c.hSrc, c.hDst)
       else (c.wDst, c.wDst * c.hSrc / c.wSrc)) ∧
    (viewport c).actW ≤ c.wDst ∧ (viewport c).actH ≤ c.hDst ∧
    ((viewport c).actW = c.wDst ∨ (viewport c).actH = c.hDst) ∧
    (c.wDst * c.hSrc / c.wSrc > c.hDst → (viewport c).actW ≤ c.wDst - 1)

/-- R193 and R194: the padding, its far side, and that it lies on at most one axis. -/
def Obligations.PaddingOnAtMostOneAxis : Prop :=
  ∀ c : Config, legal c →
    let v := viewport c
    v.xPad = (c.wDst - v.actW) / 2 ∧ v.yPad = (c.hDst - v.actH) / 2 ∧
    v.xPad + v.actW ≤ c.wDst ∧ v.yPad + v.actH ≤ c.hDst ∧ (v.xPad = 0 ∨ v.yPad = 0) ∧
    c.wDst - v.actW - v.xPad = v.xPad + (c.wDst - v.actW) % 2 ∧
    c.hDst - v.actH - v.yPad = v.yPad + (c.hDst - v.actH) % 2

/-- R196 and R198: the row and column maps start at 0, stay inside the source, and every word the renderer reads lies
inside the length the caller guarantees (R65). -/
def Obligations.MapsStayInsideTheSource : Prop :=
  ∀ c : Config, legal c →
    let v := viewport c
    (∀ y, inBand v y = true → srcRow c v y = (y - v.yPad) * c.hSrc / v.actH ∧
      srcRow c v y ≤ (v.actH - 1) * c.hSrc / v.actH ∧ srcRow c v y ≤ c.hSrc - 1) ∧
    (inBand v v.yPad = true → srcRow c v v.yPad = 0) ∧
    (∀ x, x < v.actW → srcCol c v x = x * c.wSrc / v.actW ∧ srcCol c v x ≤ c.wSrc - 1) ∧ srcCol c v 0 = 0 ∧
    (∀ sx sy, sx < c.wSrc → sy < c.hSrc → wordIndex c sx sy < sourceWords c)

/-- R205: the row map is monotone; with at least as many active rows as source rows every source row is used and
consecutive ones differ by at most 1, otherwise consecutive ones differ by at least 1 and some are never used;
likewise for columns. -/
def Obligations.MapsAreMonotone : Prop :=
  ∀ c : Config, legal c →
    let v := viewport c
    (∀ y y', inBand v y = true → inBand v y' = true → y ≤ y' → srcRow c v y ≤ srcRow c v y') ∧
    (∀ x x', x ≤ x' → x' < v.actW → srcCol c v x ≤ srcCol c v x') ∧
    (c.hSrc ≤ v.actH →
      (∀ sy, sy < c.hSrc → ∃ y, inBand v y = true ∧ srcRow c v y = sy) ∧
      ∀ y, inBand v y = true → inBand v (y + 1) = true → srcRow c v (y + 1) ≤ srcRow c v y + 1) ∧
    (v.actH < c.hSrc →
      (∃ sy, sy < c.hSrc ∧ ∀ y, inBand v y = true → srcRow c v y ≠ sy) ∧
      ∀ y, inBand v y = true → inBand v (y + 1) = true → srcRow c v y + 1 ≤ srcRow c v (y + 1)) ∧
    (c.wSrc ≤ v.actW →
      (∀ sx, sx < c.wSrc → ∃ x, x < v.actW ∧ srcCol c v x = sx) ∧
      ∀ x, x + 1 < v.actW → srcCol c v (x + 1) ≤ srcCol c v x + 1) ∧
    (v.actW < c.wSrc →
      (∃ sx, sx < c.wSrc ∧ ∀ x, x < v.actW → srcCol c v x ≠ sx) ∧
      ∀ x, x + 1 < v.actW → srcCol c v x + 1 ≤ srcCol c v (x + 1))

/-- R204 (a) and (b): equal aspect ratios give no padding; equal sizes give the identity. -/
def Obligations.EqualShapesNeedNoPadding : Prop :=
  ∀ c : Config, legal c →
    (c.wDst * c.hSrc = c.hDst * c.wSrc →
      viewport c = { actW := c.wDst, actH := c.hDst, xPad := 0, yPad := 0 }) ∧
    (c.wSrc = c.wDst → c.hSrc = c.hDst → ∀ x y, x < c.wDst → y < c.hDst →
      srcCol c (viewport c) x = x ∧ srcRow c (viewport c) y = y)

/-- R207: when the viewport is degenerate, and that the whole frame is then the off colour. -/
def Obligations.DegenerateFramesAreOff : Prop :=
  ∀ c : Config, legal c →
    (c.wDst * c.hSrc < c.wSrc → (viewport c).actH = 0) ∧
    (c.wDst * c.hSrc / c.wSrc > c.hDst → c.hDst * c.wSrc < c.hSrc → (viewport c).actW = 0) ∧
    ((viewport c).actH = 0 ∨ (viewport c).actW = 0 → ∀ image x y, pixel c image x y = 0x0000#16)

/-- R206: 32 bits are enough for every product, word index and line buffer index of the renderer. -/
def Obligations.ThirtyTwoBitsSuffice : Prop :=
  ∀ c : Config, legal c →
    let v := viewport c
    c.wDst * c.hSrc < 2 ^ 32 ∧ c.hDst * c.wSrc < 2 ^ 32 ∧
    (∀ y, inBand v y = true → (y - v.yPad) * c.hSrc < 2 ^ 32) ∧
    (∀ x, x < v.actW → x * c.wSrc < 2 ^ 32 ∧ 2 * (v.xPad + x) + 1 < 131070) ∧
    (∀ sx sy, sx < c.wSrc → sy < c.hSrc → wordIndex c sx sy < 2 ^ 32)

/-- R60 and R64: two different source pixels never share a bit of storage, and every sampled bit lies inside its
word. -/
def Obligations.SourcePixelsHaveTheirOwnBits : Prop :=
  ∀ c : Config, legal c → ∀ sx sy sx' sy', sx < c.wSrc → sy < c.hSrc → sx' < c.wSrc → sy' < c.hSrc →
    bitPosition c sx < c.wordBits ∧
    (wordIndex c sx sy = wordIndex c sx' sy' → bitPosition c sx = bitPosition c sx' → sx = sx' ∧ sy = sy')

/-- R76, R209: the `k`-th pixel byte of a frame is byte `k mod (2 × W_DST)` of row `k / (2 × W_DST)`: the high byte of
its pixel if `k` is even, the low byte if `k` is odd. -/
def Obligations.PixelBytesInOrder : Prop :=
  ∀ (c : Config) (image : Nat → Nat → Bool) (k : Nat), k < 2 * c.wDst * c.hDst →
    (frameBytes c image).length = 2 * c.wDst * c.hDst ∧
    (frameBytes c image)[k]? =
      some (let p := pixel c image (k % (2 * c.wDst) / 2) (k / (2 * c.wDst))
        if k % 2 = 0 then BitVec.ofNat 8 (p.toNat / 256) else BitVec.ofNat 8 p.toNat)

/-! ## RENDER -/

/-- R203, R209: on a readable, stable buffer `RENDER` completes: the window, the memory-write command, then every row
as one raw write of the bytes of `Pixel`, then the close; the pins end as R144 says; only the renderer's own registers
are not as they were. -/
def Obligations.RenderSendsTheFrame : Prop :=
  ∀ (s : State) (fb : Handle) (image : Nat → Nat → Bool), renderable s fb image →
    ∃ t, exec (.render fb) s = .next t ∧
      sameButRenderer t (done s (renderEvents s.cfg ((List.range s.cfg.hDst).map (rowBytes s.cfg image)))
        (match s.cfg.variant with
          | .A => { s.pins with cs := .idle, dc := .data }
          | .B => { s.pins with
              cs := .idle
              sck := true
              sda := (pixel s.cfg image (s.cfg.wDst - 1) (s.cfg.hDst - 1)).getLsbD 0 }) .closed)

/-- R208: rendering an all-on source gives an active band that is all on and padding that is all off; rendering an
all-clear source gives a frame that is all off. -/
def Obligations.UniformSourcesGiveUniformBands : Prop :=
  ∀ (s : State) (fb : Handle) (b : Bool), renderable s fb (fun _ _ => b) →
    let v := viewport s.cfg
    ∃ t, exec (.render fb) s = .next t ∧ t.fault = none ∧
      t.bus = s.bus ++ renderEvents s.cfg ((List.range s.cfg.hDst).map fun y =>
        if b = true ∧ v.yPad ≤ y ∧ y < v.yPad + v.actH then
          List.replicate (2 * v.xPad) 0x00#8 ++ List.replicate (2 * v.actW) 0xFF#8 ++
            List.replicate (2 * (s.cfg.wDst - v.xPad - v.actW)) 0x00#8
        else List.replicate (2 * s.cfg.wDst) 0x00#8)

/-- R235, R240: a RENDER that would sample a word that cannot be read records `SourceUndefined` with the index of a
word that the row `n` it has reached samples, and leaves the partly sent frame with the stream open: the window, the
memory-write command and the `n` rows above, whose words could be read. It never supplies a value. That it does so at
the failing read is one of the two ways R235 allows (log 5). -/
def Obligations.UnreadableSourceIsRecorded : Prop :=
  ∀ (s : State) (fb : Handle), ready s → s.sess = .closed → s.inFlight = [] →
    let v := viewport s.cfg
    let read := fun x y => sourceBit s.cfg s.source fb (activeIndex s.cfg x y).1 (activeIndex s.cfg x y).2
    (∃ x y, x < v.actW ∧ y < v.actH ∧ read x y = none) →
    ∃ t w n, exec (.render fb) s = .next t ∧ t.fault = some (.sourceUndefined w) ∧
      w < sourceWords s.cfg ∧ Memory.read (srcAddr fb w) s.source = none ∧
      v.yPad ≤ n ∧ n < v.yPad + v.actH ∧ n < s.cfg.hDst ∧
      (∃ x, x < v.actW ∧
        w = wordIndex s.cfg (activeIndex s.cfg x (n - v.yPad)).1 (activeIndex s.cfg x (n - v.yPad)).2) ∧
      (∀ x y, x < v.actW → y < n - v.yPad → (read x y).isSome) ∧
      t.sess = .stream ∧ t.pins.cs = .asserted ∧ t.busy = false ∧ t.seq = .idle ∧
      t.source = s.source ∧ t.cfg = s.cfg ∧ t.tape = s.tape ∧
      t.bus = s.bus ++ renderOpening s.cfg ++ ((List.range n).map
        (rowBytes s.cfg fun sx sy => (sourceBit s.cfg s.source fb sx sy).getD false)).flatMap (rawEvents s.cfg)

/-- R67: one read of a word the owner changes meanwhile returns its old content or one of its new ones. -/
def Obligations.TornReadIsOldOrNew : Prop :=
  ∀ (s : State) (w : Nat),
    s.memRead w = Memory.read (srcAddr s.fb w) s.source ∨
    ∃ c ∈ s.inFlight, c.addr = srcAddr s.fb w ∧ s.memRead w = clipWord s.cfg.wordBits c.value

/-- R67: a RENDER whose buffer is written meanwhile still sends a whole frame, and every active pixel shows the bit of
an old or a new content of its word. The contents the owner gives a word meanwhile are those of `inFlight`, one or
several (log 6). -/
def Obligations.TornFrameIsStillAFrame : Prop :=
  ∀ (s : State) (fb : Handle), ready s → s.sess = .closed →
    (∀ sx sy, sx < s.cfg.wSrc → sy < s.cfg.hSrc → (sourceBit s.cfg s.source fb sx sy).isSome) →
    (∀ c ∈ s.inFlight, c.value.isSome) →
    ∃ (t : State) (bit : Nat → Nat → Bool),
      exec (.render fb) s = .next t ∧ t.fault = none ∧ t.sess = .closed ∧
      (∀ x y, x < (viewport s.cfg).actW → y < (viewport s.cfg).actH →
        let sx := (activeIndex s.cfg x y).1
        let sy := (activeIndex s.cfg x y).2
        let a := srcAddr fb (wordIndex s.cfg sx sy)
        ∃ v, (Memory.read a s.source = some v ∨
            ∃ c ∈ s.inFlight, c.addr = a ∧ clipWord s.cfg.wordBits c.value = some v) ∧
          bit x y = v.testBit (bitPosition s.cfg sx)) ∧
      t.bus = s.bus ++ renderEvents s.cfg ((List.range s.cfg.hDst).map fun y =>
        (List.range s.cfg.wDst).flatMap fun x =>
          let v := viewport s.cfg
          if v.yPad ≤ y ∧ y < v.yPad + v.actH ∧ v.xPad ≤ x ∧ x < v.xPad + v.actW then
            (if bit (x - v.xPad) (y - v.yPad) then [0xFF#8, 0xFF#8] else [0x00#8, 0x00#8])
          else [0x00#8, 0x00#8])

/-- R61: bits of the buffer that no source pixel occupies cannot affect any output: two buffers whose source pixels
agree give the same events and the same outcome. -/
def Obligations.PaddingBitsAffectNothing : Prop :=
  ∀ (s : State) (fb : Handle) (m : Memory) (t : State), s.inFlight = [] →
    (∀ sx sy, sx < s.cfg.wSrc → sy < s.cfg.hSrc →
      sourceBit s.cfg m fb sx sy = sourceBit s.cfg s.source fb sx sy) →
    exec (.render fb) s = .next t → exec (.render fb) { s with source := m } = .next { t with source := m }

/-- R210: the size of a RENDER: sessions, events and rising edges. -/
def Obligations.RenderSize : Prop :=
  ∀ (s : State) (fb : Handle) (image : Nat → Nat → Bool) (t : State), renderable s fb image →
    exec (.render fb) s = .next t →
    ∃ es, t.bus = s.bus ++ es ∧ sessionCount es = 6 ∧
      (s.cfg.variant = .A → es.length = s.cfg.hDst + 23) ∧
      (s.cfg.variant = .B → s.cfg.bRawModeBit = true →
        es.length = 492 + 90 * s.cfg.wDst * s.cfg.hDst ∧
        risingEdges s.pins.sck es = 88 + 8 + 18 * s.cfg.wDst * s.cfg.hDst)

/-! ## The bus -/

/-- R145: the counting laws of the framer. -/
def Obligations.FramerEventCounts : Prop :=
  ∀ (s t : State) (code : Byte) (bytes : List Byte), ready s →
    (exec (.sendCmd code) s = .next t → t.fault = none → ∃ es, t.bus = s.bus ++ es ∧
      (s.cfg.variant = .A → es.length = 4) ∧
      (s.cfg.variant = .B → es.length = 42 ∧ risingEdges s.pins.sck es = 8)) ∧
    (exec (.sendData bytes) s = .next t → t.fault = none → ∃ es, t.bus = s.bus ++ es ∧
      (s.cfg.variant = .A → es.length = if bytes = [] then 3 else 4) ∧
      (s.cfg.variant = .B → es.length = 45 * bytes.length + 2 ∧ risingEdges s.pins.sck es = 9 * bytes.length)) ∧
    (exec .beginStream s = .next t → t.fault = none → ∃ es, t.bus = s.bus ++ es ∧
      (s.cfg.variant = .A → es.length = 2) ∧
      (s.cfg.variant = .B → es.length = 1 ∧ risingEdges s.pins.sck es = 0)) ∧
    (exec (.rawWrite bytes) s = .next t → t.fault = none → ∃ es, t.bus = s.bus ++ es ∧
      (s.cfg.variant = .A → es.length = if bytes = [] then 0 else 1) ∧
      (s.cfg.variant = .B →
        es.length = (if s.cfg.bRawModeBit then 45 else 40) * bytes.length ∧
        risingEdges s.pins.sck es = (if s.cfg.bRawModeBit then 9 else 8) * bytes.length)) ∧
    (exec .endStream s = .next t → t.fault = none → ∃ es, t.bus = s.bus ++ es ∧ es.length = 1 ∧
      (s.cfg.variant = .B → risingEdges s.pins.sck es = 0))

/-- R146: the bits the panel samples in variant B: of a command its 8 bits, of data the bytes each behind a 1, of a
stream session the same over all its raw writes in order; and `SDA` is stable from each `SetSCK(0)` to the next
`SetSCK(1)`. -/
def Obligations.SampledBits : Prop :=
  ∀ (s t : State) (es : List Event), ready s → s.cfg.variant = .B → s.cfg.bRawModeBit = true →
    s.sess = .closed → t.bus = s.bus ++ es →
    let bits : Byte → List Bool := fun b => (List.range 8).map fun i => b.getLsbD (7 - i)
    (∀ code, exec (.sendCmd code) s = .next t →
      sessionBits s.pins none es = [bits code] ∧ dataHeld false es = true) ∧
    (∀ bytes, exec (.sendData bytes) s = .next t →
      sessionBits s.pins none es = [bytes.flatMap fun b => true :: bits b] ∧ dataHeld false es = true) ∧
    (∀ writes : List (List Byte),
      runAll (.beginStream :: writes.map .rawWrite ++ [.endStream]) s = .next t →
      sessionBits s.pins none es = [writes.flatten.flatMap fun b => true :: bits b] ∧ dataHeld false es = true)

/-- R16, R147: whichever variant is active, a receiver reads the same logical trace from the bus, that of the
operation, and the events are those of the trace, with a transfer of several bytes taken as several of one (R133). Of
variant B it is said with the mode bit on (R100). For every operation by itself, RENDER on a readable, stable buffer,
and for a frame drawn by hand (R175). How a receiver reads a session that is not whole in the events (BEGIN_STREAM,
RAW_WRITE, END_STREAM, BEGIN_FRAME and END_FRAME by themselves, a pixel pair), and that a trace's session without a
command is a data session, is deduced, not said by R16 or R147 (log 21). The rows that are no operation have the trace
of the one they run as (logs 10 and 11). -/
def Obligations.BothTransportsCarryTheTrace : Prop :=
  ∀ (s t : State) (es : List Event), ready s → orderly s → (s.cfg.variant = .B → s.cfg.bRawModeBit = true) →
    t.fault = none → t.bus = s.bus ++ es →
    let carries := fun trace =>
      receive s.cfg.variant s.pins es = some trace ∧ flattenXfer es = traceEvents s.cfg trace
    (∀ i, (∀ fb, i ≠ .render fb) → exec i s = .next t → carries (logicalTrace s.cfg [] i)) ∧
    (∀ fb image, renderable s fb image → exec (.render fb) s = .next t →
      carries (frameTrace s.cfg (BitVec.ofNat 16 s.cfg.xOff) (BitVec.ofNat 16 s.cfg.yOff)
        (BitVec.ofNat 16 (s.cfg.xOff + s.cfg.wDst - 1)) (BitVec.ofNat 16 (s.cfg.yOff + s.cfg.hDst - 1))
        (frameBytes s.cfg image))) ∧
    (∀ writes : List (List Byte), s.sess = .closed →
      runAll (.beginFrame :: writes.map .rawWrite ++ [.endFrame]) s = .next t →
      carries (sendCmdTrace s.cfg.cmdRamwr ++ sendDataTrace writes.flatten))

/-! ## What no instruction changes, and the invariants -/

/-- R62: the engine writes no memory: no instruction changes the framebuffers, nor the configuration (R9) or the
inputs still to come. -/
def Obligations.EngineWritesNoMemory : Prop :=
  ∀ (i : Instr) (s t : State), exec i s = .next t →
    (∀ a, Memory.read a t.source = Memory.read a s.source) ∧ t.source = s.source ∧
    t.cfg = s.cfg ∧ t.tape = s.tape ∧ t.inFlight = s.inFlight

/-- R67, R79: a move of the owner writes one word, or takes it away, and nothing else: at once between two operations,
where every other word reads as before and the canonical form stays; during an operation it stays in flight, and once
in place, after others, it reads the same (logs 4 and 6). -/
def Obligations.OwnerMovesOneWord : Prop :=
  ∀ (s : State) (fb : Handle) (index : BitVec 32) (value : Option Nat) (rest : List Input),
    Memory.wf s.cfg.wordBits s.source = true → s.tape = .source fb index value :: rest →
    let a := fb.toNat * 2 ^ 32 + index.toNat
    let word := value.map (· % 2 ^ s.cfg.wordBits)
    (s.busy = false → ∃ t, step s = .next t ∧ t = { s with tape := rest, source := t.source } ∧
      Memory.wf s.cfg.wordBits t.source = true ∧ Memory.read a t.source = word ∧
      ∀ b, b ≠ a → Memory.read b t.source = Memory.read b s.source) ∧
    (s.busy = true →
      step s = .next { s with tape := rest, inFlight := s.inFlight ++ [{ addr := a, value := value }] }) ∧
    (∀ earlier, Memory.read a (Memory.writeAll s.cfg.wordBits (earlier ++ [{ addr := a, value := value }]) s.source) =
        word ∧
      ∀ b, (∀ w ∈ earlier, w.addr ≠ b) →
        Memory.read b (Memory.writeAll s.cfg.wordBits earlier s.source) = Memory.read b s.source)

/-- R9: no step changes the configuration. -/
def Obligations.ConfigurationNeverChanges : Prop :=
  ∀ s t : State, step s = .next t → t.cfg = s.cfg

/-- R35: `BUS` is append-only, but for a reset. -/
def Obligations.BusIsAppendOnly : Prop :=
  ∀ s t : State, step s = .next t → (∀ rest, s.tape ≠ .reset :: rest) → ∃ es, t.bus = s.bus ++ es

/-- R22, R41: only RENDER reads or writes the viewport registers, the counters, `FB` and the line buffer. -/
def Obligations.OnlyRenderUsesItsRegisters : Prop :=
  ∀ (i : Instr) (s t : State), (∀ fb, i ≠ .render fb) → exec i s = .next t →
    (t.vp = s.vp ∧ t.ctr = s.ctr ∧ t.fb = s.fb ∧ t.lb = s.lb) ∧
    ∀ vp ctr fb lb, exec i { s with vp := vp, ctr := ctr, fb := fb, lb := lb } =
      .next { t with vp := vp, ctr := ctr, fb := fb, lb := lb }

/-- R261: no rule reads an unspecified reset value: whatever the registers of the renderer, the line buffer, `DC`,
`SCK` and `SDA` hold, an instruction emits the same events and has the same outcome. -/
def Obligations.UnspecifiedValuesAreNeverRead : Prop :=
  ∀ (i : Instr) (s t : State) (vp : Viewport) (ctr : Counters) (fb : Handle) (lb : List Byte) (dc : DcLevel)
    (sck sda : Bool), exec i s = .next t →
    ∃ t', exec i { s with
        vp := vp, ctr := ctr, fb := fb, lb := lb, pins := { s.pins with dc := dc, sck := sck, sda := sda } } =
        .next t' ∧
      t'.bus = t.bus ∧ t'.sess = t.sess ∧ t'.pins.cs = t.pins.cs ∧ t'.fault = t.fault ∧ t'.busy = t.busy

/-- R40: an instruction that ends without a fault keeps the session discipline of the bus. -/
def Obligations.InstructionsKeepTheBusDisciplined : Prop :=
  ∀ (i : Instr) (s t : State), disciplined s → exec i s = .next t → t.fault = none → disciplined t

/-- R40: every step of a run keeps the session invariants in every state, inside operations too, as long as there is no
fault: `orderly`. -/
def Obligations.StepKeepsOrderly : Prop :=
  ∀ s t : State, orderly s → step s = .next t → orderly t

/-- The bus is disciplined after reset, in every configuration, and orderly in every legal one. -/
def Obligations.ResetBusIsDisciplined : Prop :=
  (∀ c : Config, disciplined (State.boot c) ∧ (legal c → orderly (State.boot c))) ∧
  ∀ s : State, disciplined s.powerReset ∧ (legal s.cfg → orderly s.powerReset)

/-- Every step keeps the invariant `Consistent`: a legal configuration, the source in canonical form, a line buffer of
`2 × W_DST` bytes, registers that fit 16 bits, pins at the levels the history leaves, `CS` asserted exactly in a
session, `BUSY` exactly when `SEQ` is not idle, no change of the owner in flight between operations. -/
def Obligations.StepKeepsConsistent : Prop :=
  ∀ s t : State, Consistent s → step s = .next t → Consistent t

/-- `Consistent` holds after reset, in every legal configuration. It rests on values this model names for what reset
leaves unspecified (logs 1 and 2). -/
def Obligations.ResetIsConsistent : Prop :=
  Consistent State.reset ∧ ∀ c : Config, legal c → Consistent (State.boot c)
end

