-- ==== Sys2Proof/Laws/Decode.lean ====
section
/-! SUPPORT. The fields of an encoded word, each said once: what a proof about the decoder needs of bit fields. -/

namespace Sys2Proof

/-- What the byte-by-byte check of the payload says. -/
@[simp] theorem carries_iff (bytes : List Byte) (n : Nat) : carries bytes n = true ↔ bytes.length = n := by
  induction bytes generalizing n with
  | nil => cases n <;> simp [carries]
  | cons b bytes ih => cases n <;> simp [carries, ih]

/-- Concatenation in numbers. -/
theorem toNat_concat {m n : Nat} (x : BitVec m) (y : BitVec n) :
    (x ++ y).toNat = x.toNat * 2 ^ n + y.toNat := by
  rw [BitVec.toNat_append, ← Nat.shiftLeft_add_eq_or_of_lt y.isLt, Nat.shiftLeft_eq]

/-- The low part of a concatenation. -/
theorem low_concat {m n : Nat} (x : BitVec m) (y : BitVec n) : (x ++ y).extractLsb' 0 n = y := by
  apply BitVec.eq_of_toNat_eq
  have hy : y.toNat % 2 ^ n = y.toNat := Nat.mod_eq_of_lt y.isLt
  simp only [BitVec.extractLsb'_toNat, toNat_concat, Nat.shiftRight_zero, Nat.mul_add_mod_self_right, hy]

/-- The high part of a concatenation. -/
theorem high_concat {m n : Nat} (x : BitVec m) (y : BitVec n) : (x ++ y).extractLsb' n m = x := by
  apply BitVec.eq_of_toNat_eq
  have hx : x.toNat % 2 ^ m = x.toNat := Nat.mod_eq_of_lt x.isLt
  have hq : (x.toNat * 2 ^ n + y.toNat) / 2 ^ n = x.toNat := by
    rw [Nat.mul_comm, Nat.mul_add_div (by positivity), Nat.div_eq_of_lt y.isLt, Nat.add_zero]
  simp only [BitVec.extractLsb'_toNat, toNat_concat, Nat.shiftRight_eq_div_pow, hq, hx]

/-- The two parts of a vector put together again. -/
theorem concat_parts {m n : Nat} (x : BitVec (m + n)) : x.extractLsb' n m ++ x.extractLsb' 0 n = x := by
  apply BitVec.eq_of_toNat_eq
  have hx : x.toNat / 2 ^ n < 2 ^ m := by
    rw [Nat.div_lt_iff_lt_mul (by positivity), ← pow_add]
    exact x.isLt
  rw [toNat_concat, BitVec.extractLsb'_toNat, BitVec.extractLsb'_toNat, Nat.shiftRight_eq_div_pow,
    Nat.mod_eq_of_lt hx, Nat.shiftRight_zero, Nat.mul_comm, Nat.div_add_mod]

/-- The leading bit of a 9-symbol frame. -/
theorem getLsbD_top_concat (v : BitVec 1) (b : Byte) : (v ++ b : BitVec 9).getLsbD 8 = v.getLsbD 0 := by
  rw [BitVec.getLsbD_append]
  rfl

/-! ## The fields of a request word, in numbers (R91) -/

theorem op_toNat (w : ReqWord) : w.op.toNat = w.toNat / 2 ^ 64 := by
  have := w.isLt
  simp only [ReqWord.op, BitVec.extractLsb'_toNat, Nat.shiftRight_eq_div_pow]
  omega

theorem arg0_toNat (w : ReqWord) : w.arg0.toNat = w.toNat / 2 ^ 48 % 2 ^ 16 := by
  simp [ReqWord.arg0, Nat.shiftRight_eq_div_pow]

theorem arg1_toNat (w : ReqWord) : w.arg1.toNat = w.toNat / 2 ^ 32 % 2 ^ 16 := by
  simp [ReqWord.arg1, Nat.shiftRight_eq_div_pow]

theorem arg2_toNat (w : ReqWord) : w.arg2.toNat = w.toNat / 2 ^ 16 % 2 ^ 16 := by
  simp [ReqWord.arg2, Nat.shiftRight_eq_div_pow]

theorem arg3_toNat (w : ReqWord) : w.arg3.toNat = w.toNat % 2 ^ 16 := by
  simp [ReqWord.arg3]

theorem mkWord_toNat (op : BitVec 4) (a0 a1 a2 a3 : Half) :
    (mkWord op a0 a1 a2 a3).toNat =
      op.toNat * 2 ^ 64 + a0.toNat * 2 ^ 48 + a1.toNat * 2 ^ 32 + a2.toNat * 2 ^ 16 + a3.toNat := by
  unfold mkWord
  simp only [toNat_concat]
  omega

/-! ## The fields of a word made from its fields -/

@[simp] theorem op_mkWord (op : BitVec 4) (a0 a1 a2 a3 : Half) : (mkWord op a0 a1 a2 a3).op = op := by
  apply BitVec.eq_of_toNat_eq
  rw [op_toNat, mkWord_toNat]
  omega

@[simp] theorem arg0_mkWord (op : BitVec 4) (a0 a1 a2 a3 : Half) : (mkWord op a0 a1 a2 a3).arg0 = a0 := by
  apply BitVec.eq_of_toNat_eq
  rw [arg0_toNat, mkWord_toNat]
  omega

@[simp] theorem arg1_mkWord (op : BitVec 4) (a0 a1 a2 a3 : Half) : (mkWord op a0 a1 a2 a3).arg1 = a1 := by
  apply BitVec.eq_of_toNat_eq
  rw [arg1_toNat, mkWord_toNat]
  omega

@[simp] theorem arg2_mkWord (op : BitVec 4) (a0 a1 a2 a3 : Half) : (mkWord op a0 a1 a2 a3).arg2 = a2 := by
  apply BitVec.eq_of_toNat_eq
  rw [arg2_toNat, mkWord_toNat]
  omega

@[simp] theorem arg3_mkWord (op : BitVec 4) (a0 a1 a2 a3 : Half) : (mkWord op a0 a1 a2 a3).arg3 = a3 := by
  apply BitVec.eq_of_toNat_eq
  rw [arg3_toNat, mkWord_toNat]
  omega

end Sys2Proof
end

