-- ==== Sys2Proof/Laws/State.lean ====
section
/-! SUPPORT. One lemma per field of `State` for each update the machine makes, so that no proof unfolds an update. -/

namespace Sys2Proof.Machine.State
open Sys2Proof.Machine

/-! ## `run` -/

@[simp] theorem run_cfg (acts : List Act) (s : State) : (s.run acts).cfg = s.cfg := rfl
@[simp] theorem run_sess (acts : List Act) (s : State) : (s.run acts).sess = sessAfter s.sess acts := rfl
@[simp] theorem run_pins (acts : List Act) (s : State) : (s.run acts).pins = s.pins.applyAll (events acts) := rfl
@[simp] theorem run_vp (acts : List Act) (s : State) : (s.run acts).vp = s.vp := rfl
@[simp] theorem run_ctr (acts : List Act) (s : State) : (s.run acts).ctr = s.ctr := rfl
@[simp] theorem run_fb (acts : List Act) (s : State) : (s.run acts).fb = s.fb := rfl
@[simp] theorem run_lb (acts : List Act) (s : State) : (s.run acts).lb = s.lb := rfl
@[simp] theorem run_busy (acts : List Act) (s : State) : (s.run acts).busy = s.busy := rfl
@[simp] theorem run_seq (acts : List Act) (s : State) : (s.run acts).seq = s.seq := rfl
@[simp] theorem run_bus (acts : List Act) (s : State) : (s.run acts).bus = s.bus ++ events acts := rfl
@[simp] theorem run_fault (acts : List Act) (s : State) : (s.run acts).fault = s.fault := rfl
@[simp] theorem run_source (acts : List Act) (s : State) : (s.run acts).source = s.source := rfl
@[simp] theorem run_inFlight (acts : List Act) (s : State) : (s.run acts).inFlight = s.inFlight := rfl
@[simp] theorem run_tape (acts : List Act) (s : State) : (s.run acts).tape = s.tape := rfl
@[simp] theorem run_epoch (acts : List Act) (s : State) : (s.run acts).epoch = s.epoch := rfl

/-! ## `takeFault` -/

@[simp] theorem takeFault_cfg (f : FaultMark) (s : State) : (s.takeFault f).cfg = s.cfg := rfl
@[simp] theorem takeFault_sess (f : FaultMark) (s : State) : (s.takeFault f).sess = s.sess := rfl
@[simp] theorem takeFault_pins (f : FaultMark) (s : State) : (s.takeFault f).pins = s.pins := rfl
@[simp] theorem takeFault_vp (f : FaultMark) (s : State) : (s.takeFault f).vp = s.vp := rfl
@[simp] theorem takeFault_ctr (f : FaultMark) (s : State) : (s.takeFault f).ctr = s.ctr := rfl
@[simp] theorem takeFault_fb (f : FaultMark) (s : State) : (s.takeFault f).fb = s.fb := rfl
@[simp] theorem takeFault_lb (f : FaultMark) (s : State) : (s.takeFault f).lb = s.lb := rfl
@[simp] theorem takeFault_busy (f : FaultMark) (s : State) : (s.takeFault f).busy = false := rfl
@[simp] theorem takeFault_seq (f : FaultMark) (s : State) : (s.takeFault f).seq = .idle := rfl
@[simp] theorem takeFault_bus (f : FaultMark) (s : State) : (s.takeFault f).bus = s.bus := rfl
@[simp] theorem takeFault_fault (f : FaultMark) (s : State) : (s.takeFault f).fault = some (s.fault.getD f) := rfl
@[simp] theorem takeFault_source (f : FaultMark) (s : State) : (s.takeFault f).source = s.source := rfl
@[simp] theorem takeFault_inFlight (f : FaultMark) (s : State) : (s.takeFault f).inFlight = s.inFlight := rfl
@[simp] theorem takeFault_tape (f : FaultMark) (s : State) : (s.takeFault f).tape = s.tape := rfl
@[simp] theorem takeFault_epoch (f : FaultMark) (s : State) : (s.takeFault f).epoch = s.epoch := rfl

/-! ## `complete` -/

@[simp] theorem complete_cfg (s : State) : (s.complete).cfg = s.cfg := rfl
@[simp] theorem complete_sess (s : State) : (s.complete).sess = s.sess := rfl
@[simp] theorem complete_pins (s : State) : (s.complete).pins = s.pins := rfl
@[simp] theorem complete_vp (s : State) : (s.complete).vp = s.vp := rfl
@[simp] theorem complete_ctr (s : State) : (s.complete).ctr = s.ctr := rfl
@[simp] theorem complete_fb (s : State) : (s.complete).fb = s.fb := rfl
@[simp] theorem complete_lb (s : State) : (s.complete).lb = s.lb := rfl
@[simp] theorem complete_busy (s : State) : (s.complete).busy = false := rfl
@[simp] theorem complete_seq (s : State) : (s.complete).seq = .idle := rfl
@[simp] theorem complete_bus (s : State) : (s.complete).bus = s.bus := rfl
@[simp] theorem complete_fault (s : State) : (s.complete).fault = s.fault := rfl
@[simp] theorem complete_source (s : State) : (s.complete).source = s.source := rfl
@[simp] theorem complete_inFlight (s : State) : (s.complete).inFlight = s.inFlight := rfl
@[simp] theorem complete_tape (s : State) : (s.complete).tape = s.tape := rfl
@[simp] theorem complete_epoch (s : State) : (s.complete).epoch = s.epoch := rfl

/-! ## `startRender` -/

@[simp] theorem startRender_cfg (fb : Handle) (s : State) : (s.startRender fb).cfg = s.cfg := rfl
@[simp] theorem startRender_sess (fb : Handle) (s : State) : (s.startRender fb).sess = s.sess := rfl
@[simp] theorem startRender_pins (fb : Handle) (s : State) : (s.startRender fb).pins = s.pins := rfl
@[simp] theorem startRender_vp (fb : Handle) (s : State) : (s.startRender fb).vp = viewport s.cfg := rfl
@[simp] theorem startRender_ctr (fb : Handle) (s : State) : (s.startRender fb).ctr = s.ctr := rfl
@[simp] theorem startRender_fb (fb : Handle) (s : State) : (s.startRender fb).fb = fb := rfl
@[simp] theorem startRender_lb (fb : Handle) (s : State) : (s.startRender fb).lb = s.lb := rfl
@[simp] theorem startRender_busy (fb : Handle) (s : State) : (s.startRender fb).busy = s.busy := rfl
@[simp] theorem startRender_seq (fb : Handle) (s : State) : (s.startRender fb).seq = s.seq := rfl
@[simp] theorem startRender_bus (fb : Handle) (s : State) : (s.startRender fb).bus = s.bus := rfl
@[simp] theorem startRender_fault (fb : Handle) (s : State) : (s.startRender fb).fault = s.fault := rfl
@[simp] theorem startRender_source (fb : Handle) (s : State) : (s.startRender fb).source = s.source := rfl
@[simp] theorem startRender_inFlight (fb : Handle) (s : State) : (s.startRender fb).inFlight = s.inFlight := rfl
@[simp] theorem startRender_tape (fb : Handle) (s : State) : (s.startRender fb).tape = s.tape := rfl
@[simp] theorem startRender_epoch (fb : Handle) (s : State) : (s.startRender fb).epoch = s.epoch := rfl

/-! ## `setLb` -/

@[simp] theorem setLb_cfg (i : Nat) (b : Byte) (s : State) : (s.setLb i b).cfg = s.cfg := rfl
@[simp] theorem setLb_sess (i : Nat) (b : Byte) (s : State) : (s.setLb i b).sess = s.sess := rfl
@[simp] theorem setLb_pins (i : Nat) (b : Byte) (s : State) : (s.setLb i b).pins = s.pins := rfl
@[simp] theorem setLb_vp (i : Nat) (b : Byte) (s : State) : (s.setLb i b).vp = s.vp := rfl
@[simp] theorem setLb_ctr (i : Nat) (b : Byte) (s : State) : (s.setLb i b).ctr = s.ctr := rfl
@[simp] theorem setLb_fb (i : Nat) (b : Byte) (s : State) : (s.setLb i b).fb = s.fb := rfl
@[simp] theorem setLb_lb (i : Nat) (b : Byte) (s : State) : (s.setLb i b).lb = s.lb.set i b := rfl
@[simp] theorem setLb_busy (i : Nat) (b : Byte) (s : State) : (s.setLb i b).busy = s.busy := rfl
@[simp] theorem setLb_seq (i : Nat) (b : Byte) (s : State) : (s.setLb i b).seq = s.seq := rfl
@[simp] theorem setLb_bus (i : Nat) (b : Byte) (s : State) : (s.setLb i b).bus = s.bus := rfl
@[simp] theorem setLb_fault (i : Nat) (b : Byte) (s : State) : (s.setLb i b).fault = s.fault := rfl
@[simp] theorem setLb_source (i : Nat) (b : Byte) (s : State) : (s.setLb i b).source = s.source := rfl
@[simp] theorem setLb_inFlight (i : Nat) (b : Byte) (s : State) : (s.setLb i b).inFlight = s.inFlight := rfl
@[simp] theorem setLb_tape (i : Nat) (b : Byte) (s : State) : (s.setLb i b).tape = s.tape := rfl
@[simp] theorem setLb_epoch (i : Nat) (b : Byte) (s : State) : (s.setLb i b).epoch = s.epoch := rfl

/-! ## `putPixel` -/

@[simp] theorem putPixel_cfg (p : Nat) (c : Half) (s : State) : (s.putPixel p c).cfg = s.cfg := rfl
@[simp] theorem putPixel_sess (p : Nat) (c : Half) (s : State) : (s.putPixel p c).sess = s.sess := rfl
@[simp] theorem putPixel_pins (p : Nat) (c : Half) (s : State) : (s.putPixel p c).pins = s.pins := rfl
@[simp] theorem putPixel_vp (p : Nat) (c : Half) (s : State) : (s.putPixel p c).vp = s.vp := rfl
@[simp] theorem putPixel_ctr (p : Nat) (c : Half) (s : State) : (s.putPixel p c).ctr = s.ctr := rfl
@[simp] theorem putPixel_fb (p : Nat) (c : Half) (s : State) : (s.putPixel p c).fb = s.fb := rfl
@[simp] theorem putPixel_lb (p : Nat) (c : Half) (s : State) : (s.putPixel p c).lb = (s.lb.set (2 * p) (hi8 c)).set (2 * p + 1) (lo8 c) := rfl
@[simp] theorem putPixel_busy (p : Nat) (c : Half) (s : State) : (s.putPixel p c).busy = s.busy := rfl
@[simp] theorem putPixel_seq (p : Nat) (c : Half) (s : State) : (s.putPixel p c).seq = s.seq := rfl
@[simp] theorem putPixel_bus (p : Nat) (c : Half) (s : State) : (s.putPixel p c).bus = s.bus := rfl
@[simp] theorem putPixel_fault (p : Nat) (c : Half) (s : State) : (s.putPixel p c).fault = s.fault := rfl
@[simp] theorem putPixel_source (p : Nat) (c : Half) (s : State) : (s.putPixel p c).source = s.source := rfl
@[simp] theorem putPixel_inFlight (p : Nat) (c : Half) (s : State) : (s.putPixel p c).inFlight = s.inFlight := rfl
@[simp] theorem putPixel_tape (p : Nat) (c : Half) (s : State) : (s.putPixel p c).tape = s.tape := rfl
@[simp] theorem putPixel_epoch (p : Nat) (c : Half) (s : State) : (s.putPixel p c).epoch = s.epoch := rfl

/-! ## `sendRow` -/

@[simp] theorem sendRow_cfg (s : State) : (s.sendRow).cfg = s.cfg := rfl
@[simp] theorem sendRow_sess (s : State) : (s.sendRow).sess = sessAfter s.sess (rawWriteActs s.cfg s.lb) := rfl
@[simp] theorem sendRow_pins (s : State) : (s.sendRow).pins = s.pins.applyAll (events (rawWriteActs s.cfg s.lb)) := rfl
@[simp] theorem sendRow_vp (s : State) : (s.sendRow).vp = s.vp := rfl
@[simp] theorem sendRow_ctr (s : State) : (s.sendRow).ctr = s.ctr := rfl
@[simp] theorem sendRow_fb (s : State) : (s.sendRow).fb = s.fb := rfl
@[simp] theorem sendRow_lb (s : State) : (s.sendRow).lb = s.lb := rfl
@[simp] theorem sendRow_busy (s : State) : (s.sendRow).busy = s.busy := rfl
@[simp] theorem sendRow_seq (s : State) : (s.sendRow).seq = s.seq := rfl
@[simp] theorem sendRow_bus (s : State) : (s.sendRow).bus = s.bus ++ events (rawWriteActs s.cfg s.lb) := rfl
@[simp] theorem sendRow_fault (s : State) : (s.sendRow).fault = s.fault := rfl
@[simp] theorem sendRow_source (s : State) : (s.sendRow).source = s.source := rfl
@[simp] theorem sendRow_inFlight (s : State) : (s.sendRow).inFlight = s.inFlight := rfl
@[simp] theorem sendRow_tape (s : State) : (s.sendRow).tape = s.tape := rfl
@[simp] theorem sendRow_epoch (s : State) : (s.sendRow).epoch = s.epoch := rfl

/-! ## `closeFrame` -/

@[simp] theorem closeFrame_cfg (s : State) : (s.closeFrame).cfg = s.cfg := rfl
@[simp] theorem closeFrame_sess (s : State) : (s.closeFrame).sess = .closed := rfl
@[simp] theorem closeFrame_pins (s : State) : (s.closeFrame).pins = s.pins.applyAll (events endFrameActs) := rfl
@[simp] theorem closeFrame_vp (s : State) : (s.closeFrame).vp = s.vp := rfl
@[simp] theorem closeFrame_ctr (s : State) : (s.closeFrame).ctr = { s.ctr with row := s.cfg.hDst } := rfl
@[simp] theorem closeFrame_fb (s : State) : (s.closeFrame).fb = s.fb := rfl
@[simp] theorem closeFrame_lb (s : State) : (s.closeFrame).lb = s.lb := rfl
@[simp] theorem closeFrame_busy (s : State) : (s.closeFrame).busy = s.busy := rfl
@[simp] theorem closeFrame_seq (s : State) : (s.closeFrame).seq = s.seq := rfl
@[simp] theorem closeFrame_bus (s : State) : (s.closeFrame).bus = s.bus ++ events endFrameActs := rfl
@[simp] theorem closeFrame_fault (s : State) : (s.closeFrame).fault = s.fault := rfl
@[simp] theorem closeFrame_source (s : State) : (s.closeFrame).source = s.source := rfl
@[simp] theorem closeFrame_inFlight (s : State) : (s.closeFrame).inFlight = s.inFlight := rfl
@[simp] theorem closeFrame_tape (s : State) : (s.closeFrame).tape = s.tape := rfl
@[simp] theorem closeFrame_epoch (s : State) : (s.closeFrame).epoch = s.epoch := rfl

/-! ## `retire` (the free values themselves get no lemma but their widths, in `Laws/Renderer.lean`) -/

@[simp] theorem retire_cfg (s : State) : (s.retire).cfg = s.cfg := rfl
@[simp] theorem retire_sess (s : State) : (s.retire).sess = s.sess := rfl
@[simp] theorem retire_pins (s : State) : (s.retire).pins = s.pins := rfl
@[simp] theorem retire_busy (s : State) : (s.retire).busy = s.busy := rfl
@[simp] theorem retire_seq (s : State) : (s.retire).seq = s.seq := rfl
@[simp] theorem retire_bus (s : State) : (s.retire).bus = s.bus := rfl
@[simp] theorem retire_fault (s : State) : (s.retire).fault = s.fault := rfl
@[simp] theorem retire_source (s : State) : (s.retire).source = s.source := rfl
@[simp] theorem retire_inFlight (s : State) : (s.retire).inFlight = s.inFlight := rfl
@[simp] theorem retire_tape (s : State) : (s.retire).tape = s.tape := rfl
@[simp] theorem retire_epoch (s : State) : (s.retire).epoch = s.epoch + 1 := rfl

/-! ## `powerReset` -/

@[simp] theorem powerReset_cfg (s : State) : (s.powerReset).cfg = s.cfg := rfl
@[simp] theorem powerReset_sess (s : State) : (s.powerReset).sess = .closed := rfl
@[simp] theorem powerReset_pins (s : State) : (s.powerReset).pins = Pins.reset := rfl
@[simp] theorem powerReset_vp (s : State) : (s.powerReset).vp = { actW := 0, actH := 0, xPad := 0, yPad := 0 } := rfl
@[simp] theorem powerReset_ctr (s : State) : (s.powerReset).ctr = { row := 0, col := 0, srcY := 0, srcX := 0 } := rfl
@[simp] theorem powerReset_fb (s : State) : (s.powerReset).fb = 0#32 := rfl
@[simp] theorem powerReset_lb (s : State) : (s.powerReset).lb = List.replicate (2 * s.cfg.wDst) 0#8 := rfl
@[simp] theorem powerReset_busy (s : State) : (s.powerReset).busy = false := rfl
@[simp] theorem powerReset_seq (s : State) : (s.powerReset).seq = .idle := rfl
@[simp] theorem powerReset_bus (s : State) : (s.powerReset).bus = [] := rfl
@[simp] theorem powerReset_fault (s : State) : (s.powerReset).fault = none := rfl
@[simp] theorem powerReset_source (s : State) : (s.powerReset).source = s.source := rfl
@[simp] theorem powerReset_inFlight (s : State) : (s.powerReset).inFlight = [] := rfl
@[simp] theorem powerReset_tape (s : State) : (s.powerReset).tape = s.tape := rfl
@[simp] theorem powerReset_epoch (s : State) : (s.powerReset).epoch = s.epoch + 1 := rfl

/-! ## `settle` -/

@[simp] theorem settle_cfg (s : State) : (s.settle).cfg = s.cfg := rfl
@[simp] theorem settle_sess (s : State) : (s.settle).sess = s.sess := rfl
@[simp] theorem settle_pins (s : State) : (s.settle).pins = s.pins := rfl
@[simp] theorem settle_vp (s : State) : (s.settle).vp = s.vp := rfl
@[simp] theorem settle_ctr (s : State) : (s.settle).ctr = s.ctr := rfl
@[simp] theorem settle_fb (s : State) : (s.settle).fb = s.fb := rfl
@[simp] theorem settle_lb (s : State) : (s.settle).lb = s.lb := rfl
@[simp] theorem settle_busy (s : State) : (s.settle).busy = s.busy := rfl
@[simp] theorem settle_seq (s : State) : (s.settle).seq = s.seq := rfl
@[simp] theorem settle_bus (s : State) : (s.settle).bus = s.bus := rfl
@[simp] theorem settle_fault (s : State) : (s.settle).fault = s.fault := rfl
@[simp] theorem settle_source (s : State) : (s.settle).source = Memory.writeAll s.cfg.wordBits s.inFlight s.source := rfl
@[simp] theorem settle_inFlight (s : State) : (s.settle).inFlight = [] := rfl
@[simp] theorem settle_tape (s : State) : (s.settle).tape = s.tape := rfl
@[simp] theorem settle_epoch (s : State) : (s.settle).epoch = s.epoch := rfl

/-! ## `settleIfOver` -/

@[simp] theorem settleIfOver_cfg (s : State) : (s.settleIfOver).cfg = s.cfg := rfl
@[simp] theorem settleIfOver_sess (s : State) : (s.settleIfOver).sess = s.sess := rfl
@[simp] theorem settleIfOver_pins (s : State) : (s.settleIfOver).pins = s.pins := rfl
@[simp] theorem settleIfOver_vp (s : State) : (s.settleIfOver).vp = s.vp := rfl
@[simp] theorem settleIfOver_ctr (s : State) : (s.settleIfOver).ctr = s.ctr := rfl
@[simp] theorem settleIfOver_fb (s : State) : (s.settleIfOver).fb = s.fb := rfl
@[simp] theorem settleIfOver_lb (s : State) : (s.settleIfOver).lb = s.lb := rfl
@[simp] theorem settleIfOver_busy (s : State) : (s.settleIfOver).busy = s.busy := rfl
@[simp] theorem settleIfOver_seq (s : State) : (s.settleIfOver).seq = s.seq := rfl
@[simp] theorem settleIfOver_bus (s : State) : (s.settleIfOver).bus = s.bus := rfl
@[simp] theorem settleIfOver_fault (s : State) : (s.settleIfOver).fault = s.fault := rfl
@[simp] theorem settleIfOver_source (s : State) : (s.settleIfOver).source = if s.busy then s.source else Memory.writeAll s.cfg.wordBits s.inFlight s.source := rfl
@[simp] theorem settleIfOver_inFlight (s : State) : (s.settleIfOver).inFlight = if s.busy then s.inFlight else [] := rfl
@[simp] theorem settleIfOver_tape (s : State) : (s.settleIfOver).tape = s.tape := rfl
@[simp] theorem settleIfOver_epoch (s : State) : (s.settleIfOver).epoch = s.epoch := rfl

/-! ## `ownerWrite` -/

@[simp] theorem ownerWrite_cfg (fb : Handle) (index : BitVec 32) (value : Option Nat) (s : State) : (s.ownerWrite fb index value).cfg = s.cfg := rfl
@[simp] theorem ownerWrite_sess (fb : Handle) (index : BitVec 32) (value : Option Nat) (s : State) : (s.ownerWrite fb index value).sess = s.sess := rfl
@[simp] theorem ownerWrite_pins (fb : Handle) (index : BitVec 32) (value : Option Nat) (s : State) : (s.ownerWrite fb index value).pins = s.pins := rfl
@[simp] theorem ownerWrite_vp (fb : Handle) (index : BitVec 32) (value : Option Nat) (s : State) : (s.ownerWrite fb index value).vp = s.vp := rfl
@[simp] theorem ownerWrite_ctr (fb : Handle) (index : BitVec 32) (value : Option Nat) (s : State) : (s.ownerWrite fb index value).ctr = s.ctr := rfl
@[simp] theorem ownerWrite_fb (fb : Handle) (index : BitVec 32) (value : Option Nat) (s : State) : (s.ownerWrite fb index value).fb = s.fb := rfl
@[simp] theorem ownerWrite_lb (fb : Handle) (index : BitVec 32) (value : Option Nat) (s : State) : (s.ownerWrite fb index value).lb = s.lb := rfl
@[simp] theorem ownerWrite_busy (fb : Handle) (index : BitVec 32) (value : Option Nat) (s : State) : (s.ownerWrite fb index value).busy = s.busy := rfl
@[simp] theorem ownerWrite_seq (fb : Handle) (index : BitVec 32) (value : Option Nat) (s : State) : (s.ownerWrite fb index value).seq = s.seq := rfl
@[simp] theorem ownerWrite_bus (fb : Handle) (index : BitVec 32) (value : Option Nat) (s : State) : (s.ownerWrite fb index value).bus = s.bus := rfl
@[simp] theorem ownerWrite_fault (fb : Handle) (index : BitVec 32) (value : Option Nat) (s : State) : (s.ownerWrite fb index value).fault = s.fault := rfl
@[simp] theorem ownerWrite_source (fb : Handle) (index : BitVec 32) (value : Option Nat) (s : State) : (s.ownerWrite fb index value).source = if s.busy then s.source else Memory.write (srcAddr fb index.toNat) (clipWord s.cfg.wordBits value) s.source := rfl
@[simp] theorem ownerWrite_inFlight (fb : Handle) (index : BitVec 32) (value : Option Nat) (s : State) : (s.ownerWrite fb index value).inFlight = if s.busy then s.inFlight ++ [{ addr := srcAddr fb index.toNat, value := value }] else s.inFlight := rfl
@[simp] theorem ownerWrite_tape (fb : Handle) (index : BitVec 32) (value : Option Nat) (s : State) : (s.ownerWrite fb index value).tape = s.tape := rfl
@[simp] theorem ownerWrite_epoch (fb : Handle) (index : BitVec 32) (value : Option Nat) (s : State) : (s.ownerWrite fb index value).epoch = s.epoch := rfl

/-! ## `present` -/

@[simp] theorem present_cfg (s : State) (e : Encoded) : (s.present e).cfg = s.cfg := rfl
@[simp] theorem present_sess (s : State) (e : Encoded) : (s.present e).sess = s.sess := rfl
@[simp] theorem present_pins (s : State) (e : Encoded) : (s.present e).pins = s.pins := rfl
@[simp] theorem present_vp (s : State) (e : Encoded) : (s.present e).vp = s.vp := rfl
@[simp] theorem present_ctr (s : State) (e : Encoded) : (s.present e).ctr = s.ctr := rfl
@[simp] theorem present_fb (s : State) (e : Encoded) : (s.present e).fb = s.fb := rfl
@[simp] theorem present_lb (s : State) (e : Encoded) : (s.present e).lb = s.lb := rfl
@[simp] theorem present_busy (s : State) (e : Encoded) : (s.present e).busy = s.busy := rfl
@[simp] theorem present_seq (s : State) (e : Encoded) : (s.present e).seq = s.seq := rfl
@[simp] theorem present_bus (s : State) (e : Encoded) : (s.present e).bus = s.bus := rfl
@[simp] theorem present_fault (s : State) (e : Encoded) : (s.present e).fault = s.fault := rfl
@[simp] theorem present_source (s : State) (e : Encoded) : (s.present e).source = s.source := rfl
@[simp] theorem present_inFlight (s : State) (e : Encoded) : (s.present e).inFlight = s.inFlight := rfl
@[simp] theorem present_tape (s : State) (e : Encoded) : (s.present e).tape = .request e [] :: s.tape := rfl
@[simp] theorem present_epoch (s : State) (e : Encoded) : (s.present e).epoch = s.epoch := rfl

/-! ## `load` -/

@[simp] theorem load_cfg (s : State) (program : List Instr) : (s.load program).cfg = s.cfg := rfl
@[simp] theorem load_sess (s : State) (program : List Instr) : (s.load program).sess = s.sess := rfl
@[simp] theorem load_pins (s : State) (program : List Instr) : (s.load program).pins = s.pins := rfl
@[simp] theorem load_vp (s : State) (program : List Instr) : (s.load program).vp = s.vp := rfl
@[simp] theorem load_ctr (s : State) (program : List Instr) : (s.load program).ctr = s.ctr := rfl
@[simp] theorem load_fb (s : State) (program : List Instr) : (s.load program).fb = s.fb := rfl
@[simp] theorem load_lb (s : State) (program : List Instr) : (s.load program).lb = s.lb := rfl
@[simp] theorem load_busy (s : State) (program : List Instr) : (s.load program).busy = s.busy := rfl
@[simp] theorem load_seq (s : State) (program : List Instr) : (s.load program).seq = s.seq := rfl
@[simp] theorem load_bus (s : State) (program : List Instr) : (s.load program).bus = s.bus := rfl
@[simp] theorem load_fault (s : State) (program : List Instr) : (s.load program).fault = s.fault := rfl
@[simp] theorem load_source (s : State) (program : List Instr) : (s.load program).source = s.source := rfl
@[simp] theorem load_inFlight (s : State) (program : List Instr) : (s.load program).inFlight = s.inFlight := rfl
@[simp] theorem load_tape (s : State) (program : List Instr) : (s.load program).tape = program.map (fun i => .request (encode i) []) := rfl
@[simp] theorem load_epoch (s : State) (program : List Instr) : (s.load program).epoch = s.epoch := rfl

/-! ## `boot` -/

@[simp] theorem boot_cfg (c : Config) : (State.boot c).cfg = c := rfl
@[simp] theorem boot_sess (c : Config) : (State.boot c).sess = .closed := rfl
@[simp] theorem boot_pins (c : Config) : (State.boot c).pins = Pins.reset := rfl
@[simp] theorem boot_vp (c : Config) : (State.boot c).vp = { actW := 0, actH := 0, xPad := 0, yPad := 0 } := rfl
@[simp] theorem boot_ctr (c : Config) : (State.boot c).ctr = { row := 0, col := 0, srcY := 0, srcX := 0 } := rfl
@[simp] theorem boot_fb (c : Config) : (State.boot c).fb = 0#32 := rfl
@[simp] theorem boot_lb (c : Config) : (State.boot c).lb = List.replicate (2 * c.wDst) 0#8 := rfl
@[simp] theorem boot_busy (c : Config) : (State.boot c).busy = false := rfl
@[simp] theorem boot_seq (c : Config) : (State.boot c).seq = .idle := rfl
@[simp] theorem boot_bus (c : Config) : (State.boot c).bus = [] := rfl
@[simp] theorem boot_fault (c : Config) : (State.boot c).fault = none := rfl
@[simp] theorem boot_source (c : Config) : (State.boot c).source = [] := rfl
@[simp] theorem boot_inFlight (c : Config) : (State.boot c).inFlight = [] := rfl
@[simp] theorem boot_tape (c : Config) : (State.boot c).tape = [] := rfl
@[simp] theorem boot_epoch (c : Config) : (State.boot c).epoch = 0 := rfl

end Sys2Proof.Machine.State
end

