-- ==== Sys2Proof/Laws/Ops.lean ====
section
/-! SUPPORT. One lemma per shared operation that says once everything it can do. -/

namespace Sys2Proof.Machine

/-! ## Acts -/

@[simp] theorem events_nil : events [] = [] := rfl

@[simp] theorem events_cons (a : Act) (as : List Act) : events (a :: as) = a.event :: events as := rfl

@[simp] theorem events_append (as bs : List Act) : events (as ++ bs) = events as ++ events bs := by
  simp [events]

@[simp] theorem sessAfter_nil (q : Sess) : sessAfter q [] = q := rfl

@[simp] theorem sessAfter_cons (q : Sess) (a : Act) (as : List Act) :
    sessAfter q (a :: as) = sessAfter (a.sess q) as := rfl

@[simp] theorem sessAfter_append (q : Sess) (as bs : List Act) :
    sessAfter q (as ++ bs) = sessAfter (sessAfter q as) bs := by
  simp [sessAfter]

@[simp] theorem applyAll_nil (p : Pins) : p.applyAll [] = p := rfl

@[simp] theorem applyAll_cons (p : Pins) (e : Event) (es : List Event) :
    p.applyAll (e :: es) = (p.apply e).applyAll es := rfl

@[simp] theorem applyAll_append (p : Pins) (es fs : List Event) :
    p.applyAll (es ++ fs) = (p.applyAll es).applyAll fs := by
  simp [Pins.applyAll]

/-- No acts change nothing. -/
@[simp] theorem run_nil (s : State) : s.run [] = s := by simp [State.run]

/-- Acts one after the other. -/
theorem run_append (as bs : List Act) (s : State) : s.run (as ++ bs) = (s.run as).run bs := by
  simp [State.run]

/-- The first of several acts. -/
theorem run_cons (a : Act) (as : List Act) (s : State) : s.run (a :: as) = (s.run [a]).run as :=
  run_append [a] as s

/-! ## The checks -/

/-- `guarded` passes a legal configuration without a fault. -/
theorem guarded_pass (s : State) (body : State → Host.Outcome State Fault Refusal)
    (hc : firstBroken s.cfg = none) (hf : s.fault = none) : guarded s body = body s := by
  simp [guarded, hc, hf]

/-- Everything `guarded` can do. -/
theorem guarded_cases (s : State) (body : State → Host.Outcome State Fault Refusal) :
    (∃ f, s.fault = some f ∧ guarded s body = .fault (.faulted f)) ∨
    (s.fault = none ∧ ∃ b, firstBroken s.cfg = some b ∧ guarded s body = .next (s.takeFault (.illegalConfig b))) ∨
    (s.fault = none ∧ firstBroken s.cfg = none ∧ guarded s body = body s) := by
  unfold guarded
  cases hf : s.fault with
  | some f => exact .inl ⟨f, rfl, rfl⟩
  | none =>
    cases hb : firstBroken s.cfg with
    | some b => exact .inr (.inl ⟨rfl, b, rfl, rfl⟩)
    | none => exact .inr (.inr ⟨rfl, rfl, rfl⟩)

/-- `IllegalConfig` led from `s` to `t`: a bound is broken, and `t` records it. -/
abbrev illegal (s t : State) : Prop := ∃ b, firstBroken s.cfg = some b ∧ t = s.takeFault (.illegalConfig b)

/-- If `guarded` answers a next state: IllegalConfig, or the checks passed and `body` answered it. -/
theorem guarded_next {s t : State} {body : State → Host.Outcome State Fault Refusal} (h : guarded s body = .next t) :
    s.fault = none ∧ (illegal s t ∨ (firstBroken s.cfg = none ∧ body s = .next t)) := by
  rcases guarded_cases s body with ⟨f, -, e⟩ | ⟨hf, b, hb, e⟩ | ⟨hf, hb, e⟩
  · simp [e] at h
  · exact ⟨hf, .inl ⟨b, hb, by simpa [e] using h.symm⟩⟩
  · exact ⟨hf, .inr ⟨hb, e ▸ h⟩⟩

/-- `accept` under a legal configuration, with no fault and `BUSY = 0`. -/
theorem accept_pass (i : Instr) (s : State) (body : State → Host.Outcome State Fault Refusal)
    (hc : firstBroken s.cfg = none) (hf : s.fault = none) (hb : s.busy = false) :
    accept i s body = body { s with busy := true, seq := .busy i 0 } := by
  simp [accept, guarded_pass _ _ hc hf, hb]

/-- `accept` while an operation is in progress. -/
theorem accept_busy (i : Instr) (s : State) (body : State → Host.Outcome State Fault Refusal)
    (hc : firstBroken s.cfg = none) (hf : s.fault = none) (hb : s.busy = true) :
    accept i s body = .next (s.takeFault (.overlap s.seq i)) := by
  simp [accept, guarded_pass _ _ hc hf, hb]

/-- If `accept` answers a next state: IllegalConfig, an Overlap, or `body` answered it. -/
theorem accept_next {i : Instr} {s t : State} {body : State → Host.Outcome State Fault Refusal}
    (h : accept i s body = .next t) :
    s.fault = none ∧ (illegal s t ∨ (firstBroken s.cfg = none ∧
      ((s.busy = true ∧ t = s.takeFault (.overlap s.seq i)) ∨
       (s.busy = false ∧ body { s with busy := true, seq := .busy i 0 } = .next t)))) := by
  obtain ⟨hf, e | ⟨hc, hb⟩⟩ := guarded_next h
  · exact ⟨hf, .inl e⟩
  · refine ⟨hf, .inr ⟨hc, ?_⟩⟩
    cases hbusy : s.busy <;> simp [hbusy] at hb
    · exact .inr ⟨rfl, hb⟩
    · exact .inl ⟨rfl, hb.symm⟩

/-- If `withSession` answers a next state: a ProtocolViolation, or `body` answered it. -/
theorem withSession_next {op : Op} {s t : State} {body : State → Host.Outcome State Fault Refusal}
    (h : withSession op s body = .next t) :
    (s.sess ≠ requiredSess op ∧ t = s.takeFault (.protocolViolation op s.sess)) ∨
    (s.sess = requiredSess op ∧ body s = .next t) := by
  unfold withSession at h
  split at h
  · exact .inr ⟨‹_›, h⟩
  · exact .inl ⟨‹_›, by simpa using h.symm⟩

/-! ## Whole requests -/

/-- `perform` where it completes. -/
theorem perform_completes (i : Instr) (op : Op) (acts : List Act) (s : State)
    (hc : firstBroken s.cfg = none) (hf : s.fault = none) (hb : s.busy = false)
    (hs : s.sess = requiredSess op) : perform i op acts s = .next (s.run acts).complete := by
  simp [perform, accept_pass _ _ _ hc hf hb, withSession, hs, State.complete, State.run]

/-- `perform` where the session discipline is broken. -/
theorem perform_violates (i : Instr) (op : Op) (acts : List Act) (s : State)
    (hc : firstBroken s.cfg = none) (hf : s.fault = none) (hb : s.busy = false)
    (hs : s.sess ≠ requiredSess op) :
    perform i op acts s = .next (s.takeFault (.protocolViolation op s.sess)) := by
  simp [perform, accept_pass _ _ _ hc hf hb, withSession, hs, State.takeFault]

/-- If `perform` answers a next state: IllegalConfig, an Overlap, a ProtocolViolation, or the acts, completed. -/
theorem perform_next {i : Instr} {op : Op} {acts : List Act} {s t : State} (h : perform i op acts s = .next t) :
    s.fault = none ∧ (illegal s t ∨ (firstBroken s.cfg = none ∧
      ((s.busy = true ∧ t = s.takeFault (.overlap s.seq i)) ∨
       (s.busy = false ∧ s.sess ≠ requiredSess op ∧ t = s.takeFault (.protocolViolation op s.sess)) ∨
       (s.busy = false ∧ s.sess = requiredSess op ∧ t = (s.run acts).complete)))) := by
  obtain ⟨hf, e | ⟨hc, ⟨hb, ht⟩ | ⟨hb, h⟩⟩⟩ := accept_next h
  · exact ⟨hf, .inl e⟩
  · exact ⟨hf, .inr ⟨hc, .inl ⟨hb, ht⟩⟩⟩
  · refine ⟨hf, .inr ⟨hc, .inr ?_⟩⟩
    rcases withSession_next h with ⟨hs, ht⟩ | ⟨hs, ht⟩
    · exact .inl ⟨hb, hs, by simpa [State.takeFault] using ht⟩
    · exact .inr ⟨hb, hs, by simpa [State.run, State.complete] using ht.symm⟩

/-- If `reject` answers a next state: IllegalConfig, an Overlap, or the reserved code is recorded. -/
theorem reject_next {i : Instr} {code : BitVec 4} {s t : State} (h : reject i code s = .next t) :
    s.fault = none ∧ (illegal s t ∨ (firstBroken s.cfg = none ∧
      ((s.busy = true ∧ t = s.takeFault (.overlap s.seq i)) ∨
       (s.busy = false ∧ t = s.takeFault (.reservedOp code))))) := by
  obtain ⟨hf, e | ⟨hc, ⟨hb, ht⟩ | ⟨hb, h⟩⟩⟩ := accept_next h
  · exact ⟨hf, .inl e⟩
  · exact ⟨hf, .inr ⟨hc, .inl ⟨hb, ht⟩⟩⟩
  · exact ⟨hf, .inr ⟨hc, .inr ⟨hb, by simpa [State.takeFault] using h.symm⟩⟩⟩

/-- `onVariant` in its own variant. -/
theorem onVariant_pass (v : Variant) (s : State) (body : State → Host.Outcome State Fault Refusal)
    (hc : firstBroken s.cfg = none) (hf : s.fault = none) (hv : s.cfg.variant = v) :
    onVariant v s body = body s := by
  simp [onVariant, guarded_pass _ _ hc hf, hv]

/-- If `onVariant` answers a next state: IllegalConfig, or the variant is the active one and `body` answered it. -/
theorem onVariant_next {v : Variant} {s t : State} {body : State → Host.Outcome State Fault Refusal}
    (h : onVariant v s body = .next t) :
    s.fault = none ∧ (illegal s t ∨ (firstBroken s.cfg = none ∧ s.cfg.variant = v ∧ body s = .next t)) := by
  obtain ⟨hf, e | ⟨hc, h⟩⟩ := guarded_next h
  · exact ⟨hf, .inl e⟩
  · split at h
    · exact ⟨hf, .inr ⟨hc, ‹_›, h⟩⟩
    · simp at h

/-- If `RENDER` answers a next state: IllegalConfig, an Overlap, a ProtocolViolation, or the outcome of its body. -/
theorem execRender_next {fb : Handle} {s t : State} (h : execRender fb s = .next t) :
    s.fault = none ∧ (illegal s t ∨ (firstBroken s.cfg = none ∧
      ((s.busy = true ∧ t = s.takeFault (.overlap s.seq (.render fb))) ∨
       (s.busy = false ∧ s.sess ≠ .closed ∧ t = s.takeFault (.protocolViolation .render s.sess)) ∨
       (s.busy = false ∧ s.sess = .closed ∧
        renderOutcome ({ s with busy := true, seq := .busy (.render fb) 0 }.renderBody fb) = .next t)))) := by
  obtain ⟨hf, e | ⟨hc, ⟨hb, ht⟩ | ⟨hb, h⟩⟩⟩ := accept_next h
  · exact ⟨hf, .inl e⟩
  · exact ⟨hf, .inr ⟨hc, .inl ⟨hb, ht⟩⟩⟩
  · refine ⟨hf, .inr ⟨hc, .inr ?_⟩⟩
    rcases withSession_next h with ⟨hs, ht⟩ | ⟨hs, ht⟩
    · exact .inl ⟨hb, hs, by simpa [State.takeFault] using ht⟩
    · exact .inr ⟨hb, hs, ht⟩

end Sys2Proof.Machine
end

