-- ==== Sys2Proof/Laws/Framer.lean ====
section
/-! SUPPORT. The framer's acts: what they do to `SESS`, and that the acts of a frame leave the session alone. -/

namespace Sys2Proof.Machine

/-- Acts that drive pins or transfer bytes and open or close nothing. -/
def driveOnly (as : List Act) : Prop := ∀ a ∈ as, ∃ e, a = .drive e

theorem sessAfter_driveOnly {as : List Act} (h : driveOnly as) (q : Sess) : sessAfter q as = q := by
  induction as generalizing q with
  | nil => rfl
  | cons a as ih =>
    obtain ⟨e, rfl⟩ := h a (by simp)
    rw [sessAfter_cons, Act.sess]
    exact ih (fun a ha => h a (by simp [ha])) q

theorem driveOnly_append {as bs : List Act} (ha : driveOnly as) (hb : driveOnly bs) : driveOnly (as ++ bs) := by
  intro x hx
  rcases List.mem_append.1 hx with h | h
  · exact ha x h
  · exact hb x h

theorem driveOnly_flatMap {α : Type} (l : List α) (f : α → List Act) (h : ∀ a, driveOnly (f a)) :
    driveOnly (l.flatMap f) := by
  intro x hx
  obtain ⟨a, -, h'⟩ := List.mem_flatMap.1 hx
  exact h a x h'

theorem driveOnly_shiftBit (v : Bool) : driveOnly (shiftBit v) := by
  intro x hx
  simp [shiftBit] at hx
  rcases hx with h | h | h | h | h <;> exact ⟨_, h⟩

theorem driveOnly_shiftByte (b : Byte) : driveOnly (shiftByte b) := driveOnly_flatMap _ _ driveOnly_shiftBit

theorem driveOnly_xferActs (bytes : List Byte) : driveOnly (xferActs bytes) := by
  unfold xferActs
  split <;> intro x hx <;> simp at hx
  exact ⟨_, hx⟩

theorem driveOnly_cmdActs (c : Config) (code : Byte) : driveOnly (cmdActs c code) := by
  unfold cmdActs
  cases c.variant
  · intro x hx
    simp [cmdA] at hx
    rcases hx with h | h <;> exact ⟨_, h⟩
  · exact driveOnly_shiftByte _

theorem driveOnly_dataActs (c : Config) (bytes : List Byte) : driveOnly (dataActs c bytes) := by
  unfold dataActs
  cases c.variant
  · intro x hx
    rcases List.mem_cons.1 hx with h | h
    · exact ⟨_, h⟩
    · exact driveOnly_xferActs bytes x h
  · exact driveOnly_flatMap _ _ fun b => driveOnly_append (driveOnly_shiftBit _) (driveOnly_shiftByte _)

theorem driveOnly_rawWriteActs (c : Config) (bytes : List Byte) : driveOnly (rawWriteActs c bytes) := by
  unfold rawWriteActs
  cases c.variant
  · exact driveOnly_xferActs bytes
  · refine driveOnly_flatMap _ _ fun b => driveOnly_append ?_ (driveOnly_shiftByte _)
    split
    · exact driveOnly_shiftBit _
    · intro x hx; simp at hx

/-- `SESS` after a `SEND_CMD`. -/
@[simp] theorem sessAfter_sendCmdActs (c : Config) (code : Byte) (q : Sess) :
    sessAfter q (sendCmdActs c code) = .closed := by
  simp [sendCmdActs, Act.sess, sessAfter_driveOnly (driveOnly_cmdActs _ _)]

/-- `SESS` after a `SEND_DATA`. -/
@[simp] theorem sessAfter_sendDataActs (c : Config) (bytes : List Byte) (q : Sess) :
    sessAfter q (sendDataActs c bytes) = .closed := by
  simp [sendDataActs, Act.sess, sessAfter_driveOnly (driveOnly_dataActs _ _)]

/-- `SESS` after a `BEGIN_STREAM`. -/
@[simp] theorem sessAfter_beginStreamActs (c : Config) (q : Sess) : sessAfter q (beginStreamActs c) = .stream := by
  unfold beginStreamActs
  cases c.variant <;> rfl

/-- `SESS` after a `RAW_WRITE`. -/
@[simp] theorem sessAfter_rawWriteActs (c : Config) (bytes : List Byte) (q : Sess) :
    sessAfter q (rawWriteActs c bytes) = q := sessAfter_driveOnly (driveOnly_rawWriteActs _ _) q

/-- The events of several blocks of acts. -/
theorem events_flatMap {α : Type} (l : List α) (f : α → List Act) :
    events (l.flatMap f) = l.flatMap fun a => events (f a) := by
  induction l <;> simp [*]

end Sys2Proof.Machine
end

