-- ==== Sys2Proof/Laws/Renderer.lean ====
section
/-! SUPPORT. What the renderer's loops do, once each: the columns of a row, a row in the line buffer, the rows of a
frame. -/

namespace Sys2Proof.Machine

/-! ## Lists -/

/-- One element of a concatenation of blocks of `c` elements each. -/
theorem getElem?_flatMap_blocks {α : Type} (f : Nat → List α) (c : Nat) (hc : 0 < c)
    (hf : ∀ x, (f x).length = c) (n k : Nat) :
    ((List.range n).flatMap f)[k]? = if k < n * c then (f (k / c))[k % c]? else none := by
  induction n with
  | zero => simp
  | succ n ih =>
    have hl : ((List.range n).flatMap f).length = n * c := by
      simp [List.length_flatMap, hf]
    rw [List.range_succ, List.flatMap_append, List.getElem?_append, hl, ih, Nat.succ_mul]
    simp only [List.flatMap_cons, List.flatMap_nil, List.append_nil]
    by_cases h : k < n * c
    · rw [if_pos h, if_pos h, if_pos (by omega)]
    · rw [if_neg h]
      by_cases h2 : k < n * c + c
      · rw [if_pos h2]
        have hk : k = n * c + (k - n * c) := by omega
        have hd : k / c = n := by
          rw [hk, Nat.mul_comm, Nat.mul_add_div hc, Nat.div_eq_of_lt (by rw [Nat.mul_comm]; omega), Nat.add_zero]
        have hm : k % c = k - n * c := by
          conv_lhs => rw [hk]
          rw [Nat.mul_comm, Nat.mul_add_mod, Nat.mod_eq_of_lt (by rw [Nat.mul_comm]; omega), Nat.mul_comm]
        rw [hd, hm]
      · rw [if_neg h2, List.getElem?_eq_none (by rw [hf]; omega)]

/-- Where an element of a range stands: behind everything smaller. -/
theorem range_split {n x : Nat} {pre post : List Nat} (h : List.range n = pre ++ x :: post) :
    (∀ z, z < x → z ∈ pre) ∧ x < n := by
  have hlen := congrArg List.length h
  simp only [List.length_range, List.length_append, List.length_cons] at hlen
  have hx : pre.length = x := by
    have := congrArg (fun l => l[pre.length]?) h
    simp only [List.getElem?_append_right (Nat.le_refl _), Nat.sub_self, List.getElem?_cons_zero] at this
    rw [List.getElem?_range (by omega)] at this
    exact Option.some.inj this
  refine ⟨fun z hz => ?_, by omega⟩
  have := congrArg (fun l => l[z]?) h
  simp only [List.getElem?_append_left (show z < pre.length by omega)] at this
  rw [List.getElem?_range (by omega)] at this
  exact List.mem_of_getElem? this.symm

/-! ## One row -/

/-- Both bytes of a colour the mapper makes (R104). -/
def colourByte (b : Bool) : Byte := if b then 0xFF#8 else 0x00#8

theorem hi8_colour (b : Bool) : hi8 (colour b) = colourByte b := by cases b <;> decide

theorem lo8_colour (b : Bool) : lo8 (colour b) = colourByte b := by cases b <;> decide

/-- What the read for column `x` of the row in progress gives. -/
def State.sampleAt (x : Nat) (s : State) : Except Nat Bool :=
  { s with ctr := { s.ctr with col := x, srcX := srcCol s.cfg s.vp x } }.sampleBit

/-- `t` is `s` but for the column counters and the line buffer. -/
def columnsOnly (s t : State) : Prop :=
  t = { s with ctr := { t.ctr with row := s.ctr.row, srcY := s.ctr.srcY }, lb := t.lb }

theorem columnsOnly_refl (s : State) : columnsOnly s s := rfl

theorem columnsOnly_trans {s t u : State} (h : columnsOnly s t) (h' : columnsOnly t u) : columnsOnly s u := by
  unfold columnsOnly at *
  rw [h', h]

theorem sampleAt_columnsOnly {s t : State} (h : columnsOnly s t) (x : Nat) : t.sampleAt x = s.sampleAt x := by
  rw [h]; rfl

/-- The bytes of one column go to its two places in the line buffer. -/
def putColumn (xPad : Nat) (bit : Nat → Bool) (lb : List Byte) (x : Nat) : List Byte :=
  (lb.set (2 * (xPad + x)) (colourByte (bit x))).set (2 * (xPad + x) + 1) (colourByte (bit x))

theorem fillColumn_eq (x : Nat) (s : State) : s.fillColumn x =
    match s.sampleAt x with
    | .error w => .error (w, { s with ctr := { s.ctr with col := x, srcX := srcCol s.cfg s.vp x } })
    | .ok b => .ok ({ s with ctr := { s.ctr with col := x, srcX := srcCol s.cfg s.vp x } }.putPixel
        (s.vp.xPad + x) (colour b)) := rfl

/-- Everything the columns of a row can do: every read succeeds and the bytes stand in the line buffer, or one read
fails and the loop ends there. -/
theorem fillColumns_cases (xs : List Nat) (s : State) :
    (∃ bit t, (∀ x ∈ xs, s.sampleAt x = .ok (bit x)) ∧ s.fillColumns xs = .ok t ∧ columnsOnly s t ∧
      t.lb = xs.foldl (putColumn s.vp.xPad bit) s.lb ∧
      (t.ctr = s.ctr ∨ ∃ x ∈ xs, t.ctr = { s.ctr with col := x, srcX := srcCol s.cfg s.vp x })) ∨
    (∃ pre x post w t, xs = pre ++ x :: post ∧ (∀ z ∈ pre, ∃ b, s.sampleAt z = .ok b) ∧
      s.sampleAt x = .error w ∧ s.fillColumns xs = .error (w, t) ∧ columnsOnly s t ∧
      t.lb.length = s.lb.length ∧ t.ctr = { s.ctr with col := x, srcX := srcCol s.cfg s.vp x }) := by
  induction xs generalizing s with
  | nil => exact .inl ⟨fun _ => false, s, by simp, rfl, rfl, rfl, .inl rfl⟩
  | cons x xs ih =>
    unfold State.fillColumns
    rw [fillColumn_eq]
    cases hx : s.sampleAt x with
    | error w => exact .inr ⟨[], x, xs, w, _, rfl, by simp, hx, rfl, rfl, rfl, rfl⟩
    | ok b =>
      dsimp only
      generalize ht' : ({ s with ctr := { s.ctr with col := x, srcX := srcCol s.cfg s.vp x } } : State).putPixel
        (s.vp.xPad + x) (colour b) = s'
      have hr : columnsOnly s s' := by subst ht'; rfl
      have hvp : s'.vp = s.vp := by subst ht'; rfl
      have hcfg : s'.cfg = s.cfg := by subst ht'; rfl
      have hctr : s'.ctr = { s.ctr with col := x, srcX := srcCol s.cfg s.vp x } := by subst ht'; rfl
      have hlb : s'.lb = putColumn s.vp.xPad (fun _ => b) s.lb x := by
        subst ht'; simp [State.putPixel, putColumn, hi8_colour, lo8_colour]
      have hlen : s'.lb.length = s.lb.length := by rw [hlb]; simp [putColumn]
      rcases ih s' with ⟨bit, t, h1, h2, h3, h4, h5⟩ | ⟨pre, y, post, w, t, h1, h0, h2, h3, h4, h5, h6⟩
      · refine .inl ⟨fun y => match s.sampleAt y with | .ok v => v | _ => false, t, ?_, h2,
          columnsOnly_trans hr h3, ?_, .inr ?_⟩
        · intro y hy
          rcases List.mem_cons.1 hy with rfl | hy
          · simp [hx]
          · have := h1 y hy; rw [sampleAt_columnsOnly hr] at this; simp [this]
        · have e : ∀ (ys : List Nat), (∀ y ∈ ys, y ∈ xs) → ∀ lb,
              ys.foldl (putColumn s'.vp.xPad bit) lb =
              ys.foldl (putColumn s.vp.xPad fun y => match s.sampleAt y with | .ok v => v | _ => false) lb := by
            intro ys
            induction ys with
            | nil => intros; rfl
            | cons y ys ihy =>
              intro hys lb
              have hb := h1 y (hys y (by simp)); rw [sampleAt_columnsOnly hr] at hb
              rw [List.foldl_cons, List.foldl_cons, ihy (fun z hz => hys z (by simp [hz]))]
              congr 1
              simp [putColumn, hb, hvp]
          rw [h4, e xs (fun _ h => h), hlb, List.foldl_cons]
          congr 1
          simp [putColumn, hx]
        · rcases h5 with h5 | ⟨y, hy, h5⟩
          · exact ⟨x, by simp, by rw [h5, hctr]⟩
          · exact ⟨y, by simp [hy], by rw [h5, hctr, hvp, hcfg]⟩
      · refine .inr ⟨x :: pre, y, post, w, t, by rw [h1]; rfl, ?_, by rw [← h2, sampleAt_columnsOnly hr], h3,
          columnsOnly_trans hr h4, by rw [h5, hlen], by rw [h6, hctr, hvp, hcfg]⟩
        intro z hz
        rcases List.mem_cons.1 hz with rfl | hz
        · exact ⟨b, hx⟩
        · obtain ⟨v, hv⟩ := h0 z hz
          exact ⟨v, by rw [← hv, sampleAt_columnsOnly hr]⟩

/-- A row with some active columns, byte by byte. -/
def activeRow (c : Config) (vp : Viewport) (bit : Nat → Bool) : List Byte :=
  (List.range c.wDst).flatMap fun p =>
    if vp.xPad ≤ p ∧ p < vp.xPad + vp.actW then [colourByte (bit (p - vp.xPad)), colourByte (bit (p - vp.xPad))]
    else [0x00#8, 0x00#8]

/-- A row of the letterbox bar. -/
def barRow (c : Config) : List Byte := List.replicate (2 * c.wDst) 0x00#8

theorem length_activeRow (c : Config) (vp : Viewport) (bit : Nat → Bool) :
    (activeRow c vp bit).length = 2 * c.wDst := by
  have : ∀ p, (if vp.xPad ≤ p ∧ p < vp.xPad + vp.actW then
      [colourByte (bit (p - vp.xPad)), colourByte (bit (p - vp.xPad))] else [0x00#8, 0x00#8]).length = 2 := by
    intro p; split <;> rfl
  simp [activeRow, List.length_flatMap, this, Nat.mul_comm]

theorem length_foldl_putColumn (xPad : Nat) (bit : Nat → Bool) (xs : List Nat) (lb : List Byte) :
    (xs.foldl (putColumn xPad bit) lb).length = lb.length := by
  induction xs generalizing lb with
  | nil => rfl
  | cons x xs ih => rw [List.foldl_cons, ih]; simp [putColumn]

/-- The line buffer after the first `n` columns, byte by byte. -/
theorem getElem?_foldl_putColumn (w xPad : Nat) (bit : Nat → Bool) (n : Nat) (hn : xPad + n ≤ w) (k : Nat) :
    ((List.range n).foldl (putColumn xPad bit) (List.replicate (2 * w) 0x00#8))[k]? =
      if k < 2 * w then
        some (if xPad ≤ k / 2 ∧ k / 2 < xPad + n then colourByte (bit (k / 2 - xPad)) else 0x00#8)
      else none := by
  induction n with
  | zero =>
    rw [List.range_zero, List.foldl_nil, List.getElem?_replicate]
    split
    · rw [if_neg (by omega)]
    · rfl
  | succ n ih =>
    have ih := ih (by omega)
    have hl := length_foldl_putColumn xPad bit (List.range n) (List.replicate (2 * w) 0x00#8)
    rw [List.length_replicate] at hl
    rw [List.range_succ, List.foldl_append, List.foldl_cons, List.foldl_nil, putColumn, List.getElem?_set,
      List.getElem?_set, List.length_set, hl, ih]
    by_cases h1 : 2 * (xPad + n) + 1 = k
    · have e : k / 2 = xPad + n := by omega
      rw [if_pos h1, if_pos (by omega), if_pos (by omega), if_pos (by omega), e, Nat.add_sub_cancel_left]
    · rw [if_neg h1]
      by_cases h2 : 2 * (xPad + n) = k
      · have e : k / 2 = xPad + n := by omega
        rw [if_pos h2, if_pos (by omega), if_pos (by omega), if_pos (by omega), e, Nat.add_sub_cancel_left]
      · rw [if_neg h2]
        by_cases h3 : k < 2 * w
        · rw [if_pos h3, if_pos h3]
          by_cases h4 : xPad ≤ k / 2 ∧ k / 2 < xPad + n
          · rw [if_pos h4, if_pos (by omega)]
          · rw [if_neg h4, if_neg (by omega)]
        · rw [if_neg h3, if_neg h3]

/-- The columns of a row leave the active row in the line buffer. -/
theorem foldl_putColumn_eq (c : Config) (vp : Viewport) (bit : Nat → Bool) (h : vp.xPad + vp.actW ≤ c.wDst) :
    (List.range vp.actW).foldl (putColumn vp.xPad bit) (List.replicate (2 * c.wDst) 0x00#8) =
      activeRow c vp bit := by
  have hf : ∀ p, (if vp.xPad ≤ p ∧ p < vp.xPad + vp.actW then
      [colourByte (bit (p - vp.xPad)), colourByte (bit (p - vp.xPad))] else [0x00#8, 0x00#8]).length = 2 := by
    intro p; split <;> rfl
  apply List.ext_getElem?
  intro k
  rw [getElem?_foldl_putColumn c.wDst vp.xPad bit vp.actW h k, activeRow,
    getElem?_flatMap_blocks _ 2 (by decide) hf, Nat.mul_comm 2]
  split
  · have : k % 2 = 0 ∨ k % 2 = 1 := by omega
    split <;> rcases this with h | h <;> rw [h] <;> rfl
  · rfl

/-- What the read for the active pixel (`y`, `x`) gives. -/
def State.pixelSample (y x : Nat) (s : State) : Except Nat Bool :=
  { s with ctr := { row := y, col := x, srcY := srcRow s.cfg s.vp y, srcX := srcCol s.cfg s.vp x } }.sampleBit

/-- `t` is `s` but for the counters and the line buffer. -/
def loadOnly (s t : State) : Prop := t = { s with ctr := t.ctr, lb := t.lb }

/-- A row of the letterbox bar: the clear alone (R197, R200). -/
theorem loadRow_bar {y : Nat} {s : State} (hb : inBand s.vp y = false) :
    s.loadRow y = .ok { s with ctr := { s.ctr with row := y }, lb := barRow s.cfg } := by
  have hb' : ¬ inBand s.vp y = true := by simp [hb]
  exact if_neg hb'

/-- A row inside the band: the clear and the columns. -/
theorem loadRow_band {y : Nat} {s : State} (hb : inBand s.vp y = true) :
    s.loadRow y =
      match ({ s with
        ctr := { s.ctr with row := y, srcY := srcRow s.cfg s.vp y }
        lb := List.replicate (2 * s.cfg.wDst) 0#8 } : State).fillColumns (List.range s.vp.actW) with
      | .error e => .error e
      | .ok t => .ok { t with ctr := { t.ctr with col := t.vp.actW } } :=
  if_pos hb

/-- Everything loading a row can do: a row of the letterbox bar, an active row, or a read that fails. -/
theorem loadRow_cases (y : Nat) (s : State) :
    (inBand s.vp y = false ∧
      s.loadRow y = .ok { s with ctr := { s.ctr with row := y }, lb := barRow s.cfg }) ∨
    (inBand s.vp y = true ∧ ∃ bit t, (∀ x, x < s.vp.actW → s.pixelSample y x = .ok (bit x)) ∧
      s.loadRow y = .ok t ∧ loadOnly s t ∧
      t.lb = (List.range s.vp.actW).foldl (putColumn s.vp.xPad bit) (List.replicate (2 * s.cfg.wDst) 0x00#8) ∧
      t.ctr.row = y ∧ t.ctr.col = s.vp.actW ∧ t.ctr.srcY = srcRow s.cfg s.vp y ∧
      (t.ctr.srcX = s.ctr.srcX ∨ ∃ x, x < s.vp.actW ∧ t.ctr.srcX = srcCol s.cfg s.vp x)) ∨
    (inBand s.vp y = true ∧ ∃ x w t, x < s.vp.actW ∧ (∀ z, z < x → ∃ b, s.pixelSample y z = .ok b) ∧
      s.pixelSample y x = .error w ∧ s.loadRow y = .error (w, t) ∧ loadOnly s t ∧ t.lb.length = 2 * s.cfg.wDst ∧
      t.ctr = { row := y, col := x, srcY := srcRow s.cfg s.vp y, srcX := srcCol s.cfg s.vp x }) := by
  cases hb : inBand s.vp y with
  | false => exact .inl ⟨rfl, loadRow_bar hb⟩
  | true =>
    rw [loadRow_band hb]
    generalize hs' : ({ s with
      ctr := { s.ctr with row := y, srcY := srcRow s.cfg s.vp y }
      lb := List.replicate (2 * s.cfg.wDst) 0#8 } : State) = s'
    have hcfg : s'.cfg = s.cfg := by subst hs'; rfl
    have hvp : s'.vp = s.vp := by subst hs'; rfl
    have hctr : s'.ctr = { s.ctr with row := y, srcY := srcRow s.cfg s.vp y } := by subst hs'; rfl
    have hlb : s'.lb = List.replicate (2 * s.cfg.wDst) 0#8 := by subst hs'; rfl
    have hsample : ∀ x, s'.sampleAt x = s.pixelSample y x := by intro x; subst hs'; rfl
    have hload : ∀ t, columnsOnly s' t → loadOnly s t := by
      intro t ht; subst hs'; rw [columnsOnly] at ht; rw [loadOnly, ht]
    rcases fillColumns_cases (List.range s.vp.actW) s' with
      ⟨bit, t, h1, h2, h3, h4, h5⟩ | ⟨pre, x, post, w, t, h1, h0, h2, h3, h4, h5, h6⟩
    · refine .inr (.inl ⟨rfl, bit, { t with ctr := { t.ctr with col := s.vp.actW } }, ?_, ?_, ?_, ?_, ?_, rfl, ?_, ?_⟩)
      · intro x hx; rw [← hsample]; exact h1 x (List.mem_range.2 hx)
      · rw [h2]
        have : t.vp = s.vp := by rw [h3]; exact hvp
        simp [this]
      · have := hload t h3
        rw [loadOnly] at this ⊢
        rw [this]
      · rw [h4, hlb, hvp]
      · rcases h5 with h5 | ⟨x, -, h5⟩ <;> rw [h5, hctr]
      · rcases h5 with h5 | ⟨x, -, h5⟩ <;> rw [h5, hctr]
      · rcases h5 with h5 | ⟨x, hx, h5⟩
        · exact .inl (by rw [h5, hctr])
        · exact .inr ⟨x, List.mem_range.1 hx, by rw [h5, hcfg, hvp]⟩
    · obtain ⟨hpre, hxlt⟩ := range_split h1
      refine .inr (.inr ⟨rfl, x, w, t, hxlt, ?_, by rw [← hsample, h2], by rw [h3], hload t h4, ?_, ?_⟩)
      · intro z hz
        obtain ⟨b, hb⟩ := h0 z (hpre z hz)
        exact ⟨b, by rw [← hsample, hb]⟩
      · rw [h5, hlb, List.length_replicate]
      · rw [h6, hctr, hcfg, hvp]

/-- Loading a row changes the counters and the line buffer only, and keeps the buffer's length. -/
theorem loadRow_ok {y : Nat} {s t : State} (h : s.loadRow y = .ok t) :
    loadOnly s t ∧ t.lb.length = 2 * s.cfg.wDst := by
  rcases loadRow_cases y s with ⟨-, e⟩ | ⟨-, b, u, -, e, ho, hlb, -⟩ | ⟨-, x, w, u, -, -, -, e, -⟩ <;> rw [e] at h
  · injection h with h; subst h; exact ⟨rfl, by simp [barRow]⟩
  · injection h with h; subst h; exact ⟨ho, by rw [hlb, length_foldl_putColumn, List.length_replicate]⟩
  · cases h

/-- A failing read leaves the row's loop there, with the buffer's length kept. -/
theorem loadRow_error {y w : Nat} {s t : State} (h : s.loadRow y = .error (w, t)) :
    loadOnly s t ∧ t.lb.length = 2 * s.cfg.wDst := by
  rcases loadRow_cases y s with ⟨-, e⟩ | ⟨-, b, u, -, e, -⟩ | ⟨-, x, v, u, -, -, -, e, ho, hl, -⟩ <;> rw [e] at h
  · cases h
  · cases h
  · injection h with h; injection h with h1 h2; subst h2; exact ⟨ho, hl⟩

/-! ## The rows -/

/-- The bytes of a row whose active pixels show `bit`. -/
def rowOf (c : Config) (vp : Viewport) (bit : Nat → Nat → Bool) (y : Nat) : List Byte :=
  if inBand vp y then activeRow c vp (bit y) else barRow c

/-- The acts of some rows. -/
def rowsActs (c : Config) (vp : Viewport) (bit : Nat → Nat → Bool) (ys : List Nat) : List Act :=
  ys.flatMap fun y => rawWriteActs c (rowOf c vp bit y)

/-- `t` is `s` with the acts made, but for the counters and the line buffer. -/
def sentOnly (acts : List Act) (s t : State) : Prop := t = { s.run acts with ctr := t.ctr, lb := t.lb }

theorem rowsActs_congr (c : Config) (vp : Viewport) (bit bit' : Nat → Nat → Bool) (ys : List Nat)
    (h : ∀ y ∈ ys, bit y = bit' y) : rowsActs c vp bit ys = rowsActs c vp bit' ys := by
  induction ys with
  | nil => rfl
  | cons y ys ih =>
    have ih := ih fun z hz => h z (by simp [hz])
    simp only [rowsActs, List.flatMap_cons, rowOf] at ih ⊢
    rw [h y (by simp), ih]

theorem sampled_of_sent {s t : State} {acts : List Act} (h : sentOnly acts s t) (y x : Nat) :
    t.pixelSample y x = s.pixelSample y x := by rw [h]; rfl

theorem sent_trans {s t u : State} {as bs : List Act} (h : sentOnly as s t) (h' : sentOnly bs t u) :
    sentOnly (as ++ bs) s u := by
  unfold sentOnly at *
  rw [run_append, h', h]
  rfl

/-- Loading a row, whichever kind: the row stands in the line buffer, or a read fails. -/
theorem loadRow_outcome (y : Nat) (s : State) (hx : s.vp.xPad + s.vp.actW ≤ s.cfg.wDst) :
    (∃ b t, s.loadRow y = .ok t ∧ loadOnly s t ∧ t.lb = rowOf s.cfg s.vp (fun _ => b) y ∧
      (inBand s.vp y = true → ∀ x, x < s.vp.actW → s.pixelSample y x = .ok (b x))) ∨
    (inBand s.vp y = true ∧ ∃ x w t, x < s.vp.actW ∧ (∀ z, z < x → ∃ b, s.pixelSample y z = .ok b) ∧
      s.pixelSample y x = .error w ∧ s.loadRow y = .error (w, t) ∧ loadOnly s t ∧ t.lb.length = 2 * s.cfg.wDst ∧
      t.ctr = { row := y, col := x, srcY := srcRow s.cfg s.vp y, srcX := srcCol s.cfg s.vp x }) := by
  rcases loadRow_cases y s with ⟨hb, hl⟩ | ⟨hb, b, t, h1, hl, ho, hlb, -⟩ | h
  · exact .inl ⟨fun _ => false, _, hl, rfl, by simp [rowOf, hb], by simp [hb]⟩
  · exact .inl ⟨b, t, hl, ho, by rw [hlb, foldl_putColumn_eq s.cfg s.vp b hx]; simp [rowOf, hb], fun _ => h1⟩
  · exact .inr h

/-- Everything the rows of a frame can do: all are sent, or a read fails in one and those before it are sent. -/
theorem renderRows_cases (ys : List Nat) (s : State) (hx : s.vp.xPad + s.vp.actW ≤ s.cfg.wDst)
    (hn : ys.Nodup) :
    (∃ bit t, (∀ y ∈ ys, inBand s.vp y = true → ∀ x, x < s.vp.actW → s.pixelSample y x = .ok (bit y x)) ∧
      s.renderRows ys = .ok t ∧ sentOnly (rowsActs s.cfg s.vp bit ys) s t) ∨
    (∃ bit pre y post x w t, ys = pre ++ y :: post ∧ inBand s.vp y = true ∧ x < s.vp.actW ∧
      (∀ z ∈ pre, inBand s.vp z = true → ∀ x, x < s.vp.actW → s.pixelSample z x = .ok (bit z x)) ∧
      (∀ z, z < x → ∃ b, s.pixelSample y z = .ok b) ∧
      s.pixelSample y x = .error w ∧ s.renderRows ys = .error (w, t) ∧
      sentOnly (rowsActs s.cfg s.vp bit pre) s t ∧ t.lb.length = 2 * s.cfg.wDst ∧
      t.ctr = { row := y, col := x, srcY := srcRow s.cfg s.vp y, srcX := srcCol s.cfg s.vp x }) := by
  induction ys generalizing s with
  | nil => exact .inl ⟨fun _ _ => false, s, by simp, rfl, by simp [sentOnly, rowsActs]⟩
  | cons y ys ih =>
    obtain ⟨hy, hn⟩ := List.nodup_cons.1 hn
    rcases loadRow_outcome y s hx with
      ⟨b, t, hl, ho, hlb, hs⟩ | ⟨hb, x, w, t, h1, h0, h2, hl, ho, hlen, hc⟩
    · have hsent : sentOnly (rawWriteActs s.cfg (rowOf s.cfg s.vp (fun _ => b) y)) s t.sendRow := by
        rw [sentOnly, State.sendRow, hlb]
        rw [loadOnly] at ho
        rw [ho]; rfl
      have hcfg : t.sendRow.cfg = s.cfg := by rw [hsent]; rfl
      have hvp : t.sendRow.vp = s.vp := by rw [hsent]; rfl
      have hrows : ∀ bit zs, y ∉ zs → rowsActs s.cfg s.vp (fun z => if z = y then b else bit z) (y :: zs) =
          rawWriteActs s.cfg (rowOf s.cfg s.vp (fun _ => b) y) ++ rowsActs s.cfg s.vp bit zs := by
        intro bit zs hz
        have e := rowsActs_congr s.cfg s.vp (fun z => if z = y then b else bit z) bit zs
          (fun z hz' => if_neg (show ¬ z = y from fun e => hz (e ▸ hz')))
        rw [← e]
        simp [rowsActs, rowOf]
      rcases ih t.sendRow (by rw [hcfg, hvp]; exact hx) hn with
        ⟨bit, u, h1, h2, h3⟩ | ⟨bit, pre, z, post, x, w, u, h1, h2, h3, h9, h0, h4, h5, h6, h7, h8⟩
      · rw [hcfg, hvp] at h3
        rw [hvp] at h1
        refine .inl ⟨fun z => if z = y then b else bit z, u, ?_, ?_, ?_⟩
        · intro z hz hb x hx
          rcases List.mem_cons.1 hz with rfl | hz
          · simpa using hs hb x hx
          · have hne : z ≠ y := fun e => hy (e ▸ hz)
            have := h1 z hz hb x hx
            rw [sampled_of_sent hsent] at this
            simpa [hne] using this
        · rw [State.renderRows, hl]; exact h2
        · rw [hrows bit ys hy]; exact sent_trans hsent h3
      · rw [hcfg, hvp] at h6 h8
        rw [hvp] at h2 h3 h9
        rw [hcfg] at h7
        rw [sampled_of_sent hsent] at h4
        have hpre : y ∉ pre := fun h => hy (by rw [h1]; exact List.mem_append_left _ h)
        refine .inr ⟨fun z => if z = y then b else bit z, y :: pre, z, post, x, w, u, by rw [h1]; rfl, h2, h3, ?_,
          ?_, h4, ?_, ?_, h7, h8⟩
        · intro v hv hb x hx
          rcases List.mem_cons.1 hv with rfl | hv
          · simpa using hs hb x hx
          · have hne : v ≠ y := fun e => hpre (e ▸ hv)
            have := h9 v hv hb x hx
            rw [sampled_of_sent hsent] at this
            simpa [hne] using this
        · intro v hv
          obtain ⟨b', hb'⟩ := h0 v hv
          exact ⟨b', by rw [← hb', sampled_of_sent hsent]⟩
        · rw [State.renderRows, hl]; exact h5
        · rw [hrows bit pre hpre]; exact sent_trans hsent h6
    · refine .inr ⟨fun _ _ => false, [], y, ys, x, w, t, rfl, hb, h1, by simp, h0, h2, ?_, ?_, hlen, hc⟩
      · rw [State.renderRows, hl]
      · rw [loadOnly] at ho
        rw [sentOnly, ho]; simp [rowsActs]

end Sys2Proof.Machine
end

