-- ==== Sys2Proof/Laws/Exec.lean ====
section
/-! SUPPORT. What an instruction can do, said once for all of them. -/

namespace Sys2Proof.Machine

/-- Everything an instruction that answers a next state has done: it took a fault that changes nothing else, or, under
a legal configuration, made the acts of its operation, or it is a RENDER that was accepted. -/
theorem exec_next {i : Instr} {s t : State} (h : exec i s = .next t) :
    s.fault = none ∧
      ((∃ f, t = s.takeFault f) ∨
       (firstBroken s.cfg = none ∧ ∃ op, opOf i = some op ∧ op ≠ .render ∧ s.busy = false ∧
          s.sess = requiredSess op ∧ t = (s.run (actsOf s.cfg i)).complete) ∨
       (firstBroken s.cfg = none ∧ ∃ fb, i = .render fb ∧ s.busy = false ∧ s.sess = .closed ∧
          renderOutcome ({ s with busy := true, seq := .busy (.render fb) 0 }.renderBody fb) = .next t)) := by
  have ofPerform : ∀ {i op acts}, perform i op acts s = .next t →
      s.fault = none ∧ ((∃ f, t = s.takeFault f) ∨ (firstBroken s.cfg = none ∧ s.busy = false ∧
        s.sess = requiredSess op ∧ t = (s.run acts).complete)) := by
    intro i op acts h
    obtain ⟨hf, ⟨b, -, e⟩ | ⟨hc, ⟨-, e⟩ | ⟨-, -, e⟩ | e⟩⟩ := perform_next h
    · exact ⟨hf, .inl ⟨_, e⟩⟩
    · exact ⟨hf, .inl ⟨_, e⟩⟩
    · exact ⟨hf, .inl ⟨_, e⟩⟩
    · exact ⟨hf, .inr ⟨hc, e⟩⟩
  have ofReject : ∀ {i code}, reject i code s = .next t → s.fault = none ∧ ∃ f, t = s.takeFault f := by
    intro i code h
    obtain ⟨hf, ⟨b, -, e⟩ | ⟨-, ⟨-, e⟩ | ⟨-, e⟩⟩⟩ := reject_next h <;> exact ⟨hf, _, e⟩
  cases i
  case render fb =>
    obtain ⟨hf, ⟨b, -, e⟩ | ⟨hc, ⟨-, e⟩ | ⟨-, -, e⟩ | e⟩⟩ := execRender_next h
    · exact ⟨hf, .inl ⟨_, e⟩⟩
    · exact ⟨hf, .inl ⟨_, e⟩⟩
    · exact ⟨hf, .inl ⟨_, e⟩⟩
    · exact ⟨hf, .inr (.inr ⟨hc, fb, rfl, e⟩)⟩
  case reserved0 | reservedA | reservedB | reservedC | reservedD | reservedE | reservedF =>
    obtain ⟨hf, e⟩ := ofReject h
    exact ⟨hf, .inl e⟩
  case frameACmd | frameAData | frameBCmd | frameBData =>
    obtain ⟨hf, ⟨b, -, e⟩ | ⟨-, -, e⟩⟩ := onVariant_next h
    · exact ⟨hf, .inl ⟨_, e⟩⟩
    · obtain ⟨-, e | ⟨hc, e⟩⟩ := ofPerform e
      · exact ⟨hf, .inl e⟩
      · exact ⟨hf, .inr (.inl ⟨hc, _, rfl, by decide, e⟩)⟩
  all_goals
    obtain ⟨hf, e | ⟨hc, e⟩⟩ := ofPerform h
    · exact ⟨hf, .inl e⟩
    · exact ⟨hf, .inr (.inl ⟨hc, _, rfl, by decide, e⟩)⟩

/-- The state in which the rows of an accepted RENDER start. -/
def State.atRows (fb : Handle) (s : State) : State :=
  ((({ s with busy := true, seq := .busy (.render fb) 0 } : State)).startRender fb).run (prologueActs s.cfg)

/-- Everything an accepted RENDER can do: send all rows and close, or fault in a row with those before it sent. -/
theorem render_cases (fb : Handle) (s : State)
    (hx : (viewport s.cfg).xPad + (viewport s.cfg).actW ≤ s.cfg.wDst) :
    (∃ bit t, (∀ y, y < s.cfg.hDst → inBand (viewport s.cfg) y = true → ∀ x, x < (viewport s.cfg).actW →
        (s.atRows fb).pixelSample y x = .ok (bit y x)) ∧
      sentOnly (rowsActs s.cfg (viewport s.cfg) bit (List.range s.cfg.hDst)) (s.atRows fb) t ∧
      renderOutcome ({ s with busy := true, seq := .busy (.render fb) 0 }.renderBody fb) =
        .next t.closeFrame.retire.complete) ∨
    (∃ bit y x w t, y < s.cfg.hDst ∧ inBand (viewport s.cfg) y = true ∧ x < (viewport s.cfg).actW ∧
      (∀ z, z < y → inBand (viewport s.cfg) z = true → ∀ x, x < (viewport s.cfg).actW →
        (s.atRows fb).pixelSample z x = .ok (bit z x)) ∧
      (∀ z, z < x → ∃ b, (s.atRows fb).pixelSample y z = .ok b) ∧
      (s.atRows fb).pixelSample y x = .error w ∧
      sentOnly (rowsActs s.cfg (viewport s.cfg) bit (List.range y)) (s.atRows fb) t ∧
      t.lb.length = 2 * s.cfg.wDst ∧
      t.ctr = { row := y, col := x, srcY := srcRow s.cfg (viewport s.cfg) y, srcX := srcCol s.cfg (viewport s.cfg) x } ∧
      renderOutcome ({ s with busy := true, seq := .busy (.render fb) 0 }.renderBody fb) =
        .next (t.takeFault (.sourceUndefined w))) := by
  rcases renderRows_cases (List.range s.cfg.hDst) (s.atRows fb) hx List.nodup_range with
    ⟨bit, t, h1, h2, h3⟩ | ⟨bit, pre, y, post, x, w, t, h1, h2, h3, h9, h0, h4, h5, h6, h7, h8⟩
  · refine .inl ⟨bit, t, fun y hy => h1 y (List.mem_range.2 hy), h3, ?_⟩
    change renderOutcome (match (s.atRows fb).renderRows (List.range s.cfg.hDst) with
      | .error e => .error e
      | .ok t => .ok t.closeFrame) = _
    rw [h2]; rfl
  · have hy := (range_split h1).2
    have hpre : pre = List.range y := by
      have hlen := congrArg List.length h1
      have e := congrArg (List.take y) h1
      have hp : pre.length = y := by
        have := congrArg (fun l => l[pre.length]?) h1
        simp only [List.length_range, List.length_append, List.length_cons] at hlen
        simp only [List.getElem?_append_right (Nat.le_refl _), Nat.sub_self, List.getElem?_cons_zero] at this
        rw [List.getElem?_range (by omega)] at this
        exact Option.some.inj this
      rw [List.take_range, Nat.min_eq_left (Nat.le_of_lt hy), ← hp, List.take_left'] at e
      · rw [← e, hp]
      · rfl
    subst hpre
    refine .inr ⟨bit, y, x, w, t, hy, h2, h3, fun z hz => h9 z (List.mem_range.2 hz), h0, h4, h6, h7, h8, ?_⟩
    change renderOutcome (match (s.atRows fb).renderRows (List.range s.cfg.hDst) with
      | .error e => .error e
      | .ok t => .ok t.closeFrame) = _
    rw [h5]; rfl

/-- `SESS` after the window and the start of the frame. -/
@[simp] theorem sessAfter_prologueActs (c : Config) (q : Sess) : sessAfter q (prologueActs c) = .stream := by
  simp [prologueActs, beginFrameActs]

/-- `SESS` after some rows. -/
@[simp] theorem sessAfter_rowsActs (c : Config) (vp : Viewport) (bit : Nat → Nat → Bool) (ys : List Nat) (q : Sess) :
    sessAfter q (rowsActs c vp bit ys) = q :=
  sessAfter_driveOnly (driveOnly_flatMap _ _ fun _ => driveOnly_rawWriteActs _ _) q

end Sys2Proof.Machine
end

