-- ==== Sys2Proof/Laws/Memory.lean ====
section
/-! SUPPORT. The laws of the source memory: a read after a write, and the canonical form, which every operation
keeps. -/

namespace Sys2Proof.Machine.Memory
open Sys2Proof.Machine

/-- The canonical form of a non-empty memory, cell by cell. -/
theorem wf_cons (n a v : Nat) (m : Memory) :
    Memory.wf n ((a, v) :: m) = true ↔ v < 2 ^ n ∧ (∀ c ∈ m, a < c.1) ∧ Memory.wf n m = true := by
  induction m generalizing a v with
  | nil => simp [Memory.wf]
  | cons c m ih =>
    obtain ⟨b, w⟩ := c
    simp only [Memory.wf, Bool.and_eq_true, decide_eq_true_eq, List.mem_cons, forall_eq_or_imp]
    rw [ih b w]
    refine ⟨fun ⟨⟨hv, hab⟩, hw, hm, h⟩ => ⟨hv, ⟨hab, fun c hc => hab.trans (hm c hc)⟩, hw, hm, h⟩, ?_⟩
    rintro ⟨hv, ⟨hab, _⟩, hw, hm, h⟩
    exact ⟨⟨hv, hab⟩, hw, hm, h⟩

/-- The empty memory is in canonical form. -/
@[simp] theorem wf_nil (n : Nat) : Memory.wf n [] = true := rfl

/-- Nothing is read from an empty memory. -/
@[simp] theorem read_nil (a : Nat) : Memory.read a [] = none := rfl

/-- A read of a non-empty memory. -/
theorem read_cons (a b v : Nat) (m : Memory) :
    Memory.read a ((b, v) :: m) = if a = b then some v else Memory.read a m := rfl

/-- A word below every listed address has no value. -/
theorem read_eq_none_of_lt (a : Nat) (m : Memory) (h : ∀ c ∈ m, a < c.1) : Memory.read a m = none := by
  induction m with
  | nil => rfl
  | cons c m ih =>
    obtain ⟨b, w⟩ := c
    have hb : a < b := h (b, w) (by simp)
    rw [read_cons, if_neg (by omega), ih (fun c hc => h c (by simp [hc]))]

/-- A write to a non-empty memory. -/
theorem write_cons (a : Nat) (v : Option Nat) (b y : Nat) (m : Memory) :
    Memory.write a v ((b, y) :: m) =
      if a < b then (v.map (fun x => (a, x))).toList ++ (b, y) :: m
      else if a = b then (v.map (fun x => (a, x))).toList ++ m
      else (b, y) :: Memory.write a v m := by
  cases v <;> rfl

/-- A read after a write to the same word gives what was written; after `none` the word has no value. -/
theorem read_write_same (n a : Nat) (v : Option Nat) (m : Memory) (h : Memory.wf n m = true) :
    Memory.read a (Memory.write a v m) = v := by
  induction m with
  | nil => cases v <;> simp [Memory.write, read_cons]
  | cons c m ih =>
    obtain ⟨b, y⟩ := c
    obtain ⟨-, hb, hm⟩ := (wf_cons n b y m).1 h
    rw [write_cons]
    split
    · cases v with
      | some x => simp [read_cons]
      | none =>
        refine read_eq_none_of_lt _ _ fun c hc => ?_
        rcases List.mem_cons.1 hc with rfl | hc
        · assumption
        · exact lt_trans ‹a < b› (hb c hc)
    · split
      · rename_i hab
        subst hab
        cases v with
        | some x => simp [read_cons]
        | none => exact read_eq_none_of_lt _ _ hb
      · rw [read_cons, if_neg ‹¬a = b›, ih hm]

/-- A write leaves every other word alone. -/
theorem read_write_other (a b : Nat) (v : Option Nat) (m : Memory) (h : b ≠ a) :
    Memory.read b (Memory.write a v m) = Memory.read b m := by
  induction m with
  | nil => cases v <;> simp [Memory.write, read_cons, h]
  | cons c m ih =>
    obtain ⟨d, y⟩ := c
    rw [write_cons]
    split
    · cases v <;> simp [read_cons, h]
    · split
      · rename_i had
        subst had
        cases v <;> simp [read_cons, h]
      · simp [read_cons, ih]

/-- Every address of a written memory was there before or is the one written. -/
theorem mem_write (a : Nat) (v : Option Nat) (m : Memory) (c : SrcCell) (h : c ∈ Memory.write a v m) :
    c ∈ m ∨ (c.1 = a ∧ v = some c.2) := by
  induction m with
  | nil => cases v <;> simp_all [Memory.write]
  | cons d m ih =>
    obtain ⟨b, y⟩ := d
    rw [write_cons] at h
    split at h
    · cases v with
      | none => exact .inl (by simpa using h)
      | some x => rcases List.mem_cons.1 h with rfl | h <;> simp_all
    · split at h
      · cases v with
        | none => exact .inl (List.mem_cons_of_mem _ (by simpa using h))
        | some x => rcases List.mem_cons.1 h with rfl | h <;> simp_all
      · rcases List.mem_cons.1 h with rfl | h
        · simp
        · rcases ih h with h | h
          · simp [h]
          · exact .inr h

/-- A write of a word of the right width keeps the canonical form. -/
theorem wf_write (n a : Nat) (v : Option Nat) (m : Memory) (h : Memory.wf n m = true)
    (hv : ∀ x, v = some x → x < 2 ^ n) : Memory.wf n (Memory.write a v m) = true := by
  induction m with
  | nil =>
    cases v with
    | none => rfl
    | some x => simpa [Memory.write, Memory.wf] using hv x rfl
  | cons d m ih =>
    obtain ⟨b, y⟩ := d
    obtain ⟨hy, hb, hm⟩ := (wf_cons n b y m).1 h
    rw [write_cons]
    split
    · cases v with
      | none => simpa using h
      | some x =>
        simp only [Option.map_some, Option.toList_some, List.cons_append, List.nil_append]
        refine (wf_cons n a x _).2 ⟨hv x rfl, fun c hc => ?_, h⟩
        rcases List.mem_cons.1 hc with rfl | hc
        · assumption
        · exact lt_trans ‹a < b› (hb c hc)
    · split
      · rename_i hab
        subst hab
        cases v with
        | none => simpa using hm
        | some x => exact (wf_cons n a x m).2 ⟨hv x rfl, hb, hm⟩
      · refine (wf_cons n b y _).2 ⟨hy, fun c hc => ?_, ih hm⟩
        rcases mem_write a v m c hc with h | ⟨h, -⟩
        · exact hb c h
        · omega

/-- A clipped word has the right width. -/
theorem clipWord_lt (n : Nat) (v : Option Nat) (x : Nat) (h : clipWord n v = some x) : x < 2 ^ n := by
  cases v with
  | none => simp [clipWord] at h
  | some y =>
    obtain rfl : y % 2 ^ n = x := by simpa [clipWord] using h
    exact Nat.mod_lt _ (by positivity)

/-- The owner's writes keep the canonical form. -/
theorem wf_writeAll (n : Nat) (ws : List SrcWrite) (m : Memory) (h : Memory.wf n m = true) :
    Memory.wf n (Memory.writeAll n ws m) = true := by
  induction ws generalizing m with
  | nil => exact h
  | cons w ws ih => exact ih _ (wf_write n _ _ m h fun x => clipWord_lt n _ x)

/-- Two memories in canonical form that read alike are the same list. -/
theorem eq_of_read_eq (n : Nat) (m m' : Memory) (h : Memory.wf n m = true) (h' : Memory.wf n m' = true)
    (hr : ∀ a, Memory.read a m = Memory.read a m') : m = m' := by
  induction m generalizing m' with
  | nil =>
    cases m' with
    | nil => rfl
    | cons d m' =>
      obtain ⟨b, w⟩ := d
      simpa [read_cons] using hr b
  | cons c m ih =>
    obtain ⟨a, v⟩ := c
    obtain ⟨-, ha, hm⟩ := (wf_cons n a v m).1 h
    cases m' with
    | nil => simpa [read_cons] using hr a
    | cons d m' =>
      obtain ⟨b, w⟩ := d
      obtain ⟨-, hb, hm'⟩ := (wf_cons n b w m').1 h'
      have hab : a = b := by
        rcases Nat.lt_trichotomy a b with hlt | heq | hgt
        · have := hr a
          rw [read_cons, read_cons, if_pos rfl, if_neg (by omega),
            read_eq_none_of_lt a m' fun c hc => hlt.trans (hb c hc)] at this
          simp at this
        · exact heq
        · have := hr b
          rw [read_cons, read_cons, if_pos rfl, if_neg (by omega),
            read_eq_none_of_lt b m fun c hc => hgt.trans (ha c hc)] at this
          simp at this
      subst hab
      have hvw : v = w := by simpa [read_cons] using hr a
      subst hvw
      congr 1
      refine ih m' hm hm' fun c => ?_
      by_cases hc : c = a
      · subst hc
        rw [read_eq_none_of_lt c m ha, read_eq_none_of_lt c m' hb]
      · simpa [read_cons, hc] using hr c

end Sys2Proof.Machine.Memory
end

