-- ==== Sys2Proof/Laws/PerInstr.lean ====
section
/-! SUPPORT. What is said of every instruction as syntax, one lemma a constructor: the kind of form its encoding
takes, with the operation code of its row (`30_encoding.md` R90 to R106). -/

namespace Sys2Proof

/-- A request word with the operation code `code` and the payload `bytes` (R91 to R94). -/
def Encoded.isRequest (code : Nat) (bytes : List Byte) : Encoded → Prop
  | .request w payload => w.toNat / 2 ^ 64 = code ∧ payload = bytes
  | _ => False

/-- A variant A frame, by the level its first symbol stands for (R96). -/
def Encoded.isFrameA (data : Bool) : Encoded → Prop
  | .frameA b => b.getLsbD 8 = data
  | _ => False

/-- A word made from its fields is a request of its `op`. -/
theorem isRequest_mkWord (op : BitVec 4) (a0 a1 a2 a3 : Half) (bytes : List Byte) :
    (Encoded.request (mkWord op a0 a1 a2 a3) bytes).isRequest op.toNat bytes :=
  ⟨by rw [← op_toNat, op_mkWord], rfl⟩

namespace Laws.EncodedKind

/-- The form of an instruction's encoding, as its row of the opcode table gives it. -/
def Statement : Instr → Prop
  | .sendCmd code => (encode (.sendCmd code)).isRequest 1 []
  | .sendData bytes => (encode (.sendData bytes)).isRequest 2 bytes
  | .beginStream => (encode .beginStream).isRequest 3 []
  | .rawWrite bytes => (encode (.rawWrite bytes)).isRequest 4 bytes
  | .endStream => (encode .endStream).isRequest 5 []
  | .setWindow x0 y0 x1 y1 => (encode (.setWindow x0 y0 x1 y1)).isRequest 6 []
  | .beginFrame => (encode .beginFrame).isRequest 7 []
  | .endFrame => (encode .endFrame).isRequest 8 []
  | .render fb => (encode (.render fb)).isRequest 9 []
  | .reserved0 => (encode .reserved0).isRequest 0x0 []
  | .reservedA => (encode .reservedA).isRequest 0xA []
  | .reservedB => (encode .reservedB).isRequest 0xB []
  | .reservedC => (encode .reservedC).isRequest 0xC []
  | .reservedD => (encode .reservedD).isRequest 0xD []
  | .reservedE => (encode .reservedE).isRequest 0xE []
  | .reservedF => (encode .reservedF).isRequest 0xF []
  | .frameACmd code => (encode (.frameACmd code)).isFrameA false
  | .frameAData byte => (encode (.frameAData byte)).isFrameA true
  | .frameBCmd code => encode (.frameBCmd code) = .frameB8 code
  | .frameBData byte => ∃ b, encode (.frameBData byte) = .frameB9 b ∧ b.getLsbD 8 = true
  | .windowParamBlock first last => ∃ b, encode (.windowParamBlock first last) = .data4 b
  | .pixelPair colour => encode (.pixelPair colour) = .data2 colour
  | .cmdCaset => encode .cmdCaset = .panelCommand 0x2A
  | .cmdRaset => encode .cmdRaset = .panelCommand 0x2B
  | .cmdRamwr => encode .cmdRamwr = .panelCommand 0x2C

theorem sendCmd (code : Byte) : Statement (.sendCmd code) := isRequest_mkWord _ _ _ _ _ _
theorem sendData (bytes : List Byte) : Statement (.sendData bytes) := isRequest_mkWord _ _ _ _ _ _
theorem beginStream : Statement .beginStream := isRequest_mkWord _ _ _ _ _ _
theorem rawWrite (bytes : List Byte) : Statement (.rawWrite bytes) := isRequest_mkWord _ _ _ _ _ _
theorem endStream : Statement .endStream := isRequest_mkWord _ _ _ _ _ _
theorem setWindow (x0 y0 x1 y1 : Half) : Statement (.setWindow x0 y0 x1 y1) := isRequest_mkWord _ _ _ _ _ _
theorem beginFrame : Statement .beginFrame := isRequest_mkWord _ _ _ _ _ _
theorem endFrame : Statement .endFrame := isRequest_mkWord _ _ _ _ _ _
theorem render (fb : Handle) : Statement (.render fb) := isRequest_mkWord _ _ _ _ _ _
theorem reserved0 : Statement .reserved0 := isRequest_mkWord _ _ _ _ _ _
theorem reservedA : Statement .reservedA := isRequest_mkWord _ _ _ _ _ _
theorem reservedB : Statement .reservedB := isRequest_mkWord _ _ _ _ _ _
theorem reservedC : Statement .reservedC := isRequest_mkWord _ _ _ _ _ _
theorem reservedD : Statement .reservedD := isRequest_mkWord _ _ _ _ _ _
theorem reservedE : Statement .reservedE := isRequest_mkWord _ _ _ _ _ _
theorem reservedF : Statement .reservedF := isRequest_mkWord _ _ _ _ _ _
theorem frameACmd (code : Byte) : Statement (.frameACmd code) := getLsbD_top_concat 0#1 code
theorem frameAData (byte : Byte) : Statement (.frameAData byte) := getLsbD_top_concat 1#1 byte
theorem frameBCmd (code : Byte) : Statement (.frameBCmd code) := rfl
theorem frameBData (byte : Byte) : Statement (.frameBData byte) := ⟨_, rfl, getLsbD_top_concat 1#1 byte⟩
theorem windowParamBlock (first last : Half) : Statement (.windowParamBlock first last) := ⟨_, rfl⟩
theorem pixelPair (colour : Half) : Statement (.pixelPair colour) := rfl
theorem cmdCaset : Statement .cmdCaset := rfl
theorem cmdRaset : Statement .cmdRaset := rfl
theorem cmdRamwr : Statement .cmdRamwr := rfl

end Laws.EncodedKind

end Sys2Proof
end

