-- ==== Sys2Proof/Laws/Step.lean ====
section
/-! SUPPORT. What a step can do, said once: the moves on the tape, acceptance, and the bounds of a configuration. -/

namespace Sys2Proof.Machine

/-! ## The bounds of R10 -/

/-- A legal configuration meets every bound. -/
theorem firstBroken_eq_none (c : Config) : firstBroken c = none ↔ ∀ b, Bound.met c b = true := by
  unfold firstBroken
  rw [List.find?_eq_none]
  constructor
  · intro h b
    have := h b (by cases b <;> decide)
    simpa using this
  · intro h b _
    simp [h b]

/-- The bound that is named is broken. -/
theorem firstBroken_some {c : Config} {b : Bound} (h : firstBroken c = some b) : Bound.met c b = false := by
  have := List.find?_some h
  simpa using this

/-! ## The parts of a step -/

/-- If the port's instruction answers a next state, it decoded and ran. -/
theorem deliver_next {e : Encoded} {run : Instr → State → Host.Outcome State Fault Refusal} {s t : State}
    (h : deliver e run s = .next t) : ∃ i, decode e = .ok i ∧ run i s = .next t := by
  unfold deliver at h
  split at h
  · simp at h
  · exact ⟨_, ‹_›, h⟩

/-- A settled next state. -/
theorem settled_next {o : Host.Outcome State Fault Refusal} {t : State} (h : settled o = .next t) :
    ∃ u, o = .next u ∧ t = u.settleIfOver := by
  cases o <;> simp [settled] at h
  exact ⟨_, rfl, h.symm⟩

/-- What a machine left alone does: nothing between two operations, one event during one. -/
theorem advance_cases (s : State) :
    (s.seq = .idle ∧ s.advance = s) ∨ (s.seq ≠ .idle ∧ s.advance = (nextEvent s).settleIfOver) := by
  unfold State.advance
  cases h : s.seq <;> simp

/-- If acceptance alone answers a next state: a fault that changes nothing else, or, under a legal configuration,
`BUSY = 1` and the operation's first event due. -/
theorem startRequest_next {i : Instr} {s t : State} (h : startRequest i s = .next t) :
    s.fault = none ∧
      ((∃ f, t = s.takeFault f) ∨
       (firstBroken s.cfg = none ∧ ∃ op, opOf i = some op ∧ s.busy = false ∧ s.sess = requiredSess op ∧
          t = { s with busy := true, seq := .busy i 0 })) := by
  have accepted : ∀ op, accept i s (fun s => withSession op s fun s => .next s) = .next t →
      s.fault = none ∧ ((∃ f, t = s.takeFault f) ∨
        (firstBroken s.cfg = none ∧ s.busy = false ∧ s.sess = requiredSess op ∧
          t = { s with busy := true, seq := .busy i 0 })) := by
    intro op h
    obtain ⟨hf, ⟨b, -, e⟩ | ⟨hc, ⟨-, e⟩ | ⟨hb, e⟩⟩⟩ := accept_next h
    · exact ⟨hf, .inl ⟨_, e⟩⟩
    · exact ⟨hf, .inl ⟨_, e⟩⟩
    · rcases withSession_next e with ⟨-, e⟩ | ⟨hs, e⟩
      · exact ⟨hf, .inl ⟨.protocolViolation op s.sess, by rw [e]; simp [State.takeFault]⟩⟩
      · exact ⟨hf, .inr ⟨hc, hb, hs, by simpa using e.symm⟩⟩
  unfold startRequest at h
  cases ho : opOf i with
  | none =>
    rw [ho] at h
    obtain ⟨hf, e | ⟨-, op, e, -⟩ | ⟨-, fb, rfl, -⟩⟩ := exec_next h
    · exact ⟨hf, .inl e⟩
    · simp [ho] at e
    · simp [opOf] at ho
  | some op =>
    rw [ho] at h
    cases hv : onlyIn i with
    | none =>
      rw [hv] at h
      obtain ⟨hf, e | ⟨hc, hb, hs, e⟩⟩ := accepted op h
      · exact ⟨hf, .inl e⟩
      · exact ⟨hf, .inr ⟨hc, op, rfl, hb, hs, e⟩⟩
    | some v =>
      rw [hv] at h
      obtain ⟨hf, ⟨b, -, e⟩ | ⟨-, -, h⟩⟩ := onVariant_next h
      · exact ⟨hf, .inl ⟨_, e⟩⟩
      · obtain ⟨-, e | ⟨hc, hb, hs, e⟩⟩ := accepted op h
        · exact ⟨hf, .inl e⟩
        · exact ⟨hf, .inr ⟨hc, op, rfl, hb, hs, e⟩⟩

/-- Everything a step that answers a next state has done. -/
theorem step_next {s t : State} (h : step s = .next t) :
    (s.tape = [] ∧ t = s.advance) ∨
    (∃ rest, s.tape = .tick :: rest ∧ t = { s with tape := rest }.advance) ∨
    (∃ e during rest i u, s.tape = .request e during :: rest ∧ decode e = .ok i ∧
      exec i { s with tape := rest, inFlight := s.inFlight ++ during } = .next u ∧ t = u.settleIfOver) ∨
    (∃ e rest i u, s.tape = .start e :: rest ∧ decode e = .ok i ∧
      startRequest i { s with tape := rest } = .next u ∧ t = u.settleIfOver) ∨
    (∃ fb index value rest, s.tape = .source fb index value :: rest ∧
      t = { s with tape := rest }.ownerWrite fb index value) ∨
    (∃ rest, s.tape = .reset :: rest ∧ t = { s with tape := rest }.settle.powerReset) := by
  unfold step serve at h
  split at h
  · exact .inl ⟨‹_›, by simpa using h.symm⟩
  · exact .inr (.inl ⟨_, ‹_›, by simpa using h.symm⟩)
  · obtain ⟨u, hu, ht⟩ := settled_next h
    obtain ⟨i, hi, hx⟩ := deliver_next hu
    exact .inr (.inr (.inl ⟨_, _, _, i, u, ‹_›, hi, hx, ht⟩))
  · obtain ⟨u, hu, ht⟩ := settled_next h
    obtain ⟨i, hi, hx⟩ := deliver_next hu
    exact .inr (.inr (.inr (.inl ⟨_, _, i, u, ‹_›, hi, hx, ht⟩)))
  · exact .inr (.inr (.inr (.inr (.inl ⟨_, _, _, _, ‹_›, by simpa using h.symm⟩))))
  · exact .inr (.inr (.inr (.inr (.inr ⟨_, ‹_›, by simpa using h.symm⟩))))

end Sys2Proof.Machine
end

