-- ==== Sys2Proof/Machine/Sink.lean ====
section
/-! DEFINITION. The reference sink of `95_test_vectors.md`, which that file calls not normative: it turns a logical
trace back into a picture. It is no part of the engine; its fill order is PRESUMED (`93_implementation_defined.md`
K4, log 18). -/

namespace Sys2Proof.Machine

/-- The commands of a trace, each with the data bytes that follow it up to the next command. -/
def commandGroups : List Logical → List (Byte × List Byte)
  | [] => []
  | .cmd c :: rest => (c, dataRun rest) :: commandGroups rest
  | .data _ :: rest => commandGroups rest
  | .opened :: rest => commandGroups rest
  | .closed :: rest => commandGroups rest
where
  /-- The data bytes up to the next command. -/
  dataRun : List Logical → List Byte
    | .data d :: rest => d :: dataRun rest
    | .opened :: rest => dataRun rest
    | .closed :: rest => dataRun rest
    | .cmd _ :: _ => []
    | [] => []

/-- The two coordinates of a window block (R101). -/
def windowOf : List Byte → Nat × Nat
  | [a, b, c, d] => ((a ++ b : BitVec 16).toNat, (c ++ d : BitVec 16).toNat)
  | _ => (0, 0)

/-- Pixel bytes paired high byte first (R102). -/
def pixelsOf : List Byte → List Half
  | h :: l :: rest => (h ++ l : BitVec 16) :: pixelsOf rest
  | _ => []

/-- The pixels written, in order, each with its panel column and row: the `n`-th goes to column
`x0 + n mod (x1 - x0 + 1)`, row `y0 + n / (x1 - x0 + 1)`. -/
def sinkPixels (c : Config) (xs ys : Nat × Nat) : List (Byte × List Byte) → List ((Nat × Nat) × Half)
  | [] => []
  | (b, ds) :: rest =>
    if b = c.cmdCaset then sinkPixels c (windowOf ds) ys rest
    else if b = c.cmdRaset then sinkPixels c xs (windowOf ds) rest
    else if b = c.cmdRamwr then
      (pixelsOf ds).mapIdx (fun n p => ((xs.1 + n % (xs.2 - xs.1 + 1), ys.1 + n / (xs.2 - xs.1 + 1)), p))
        ++ sinkPixels c xs ys rest
    else sinkPixels c xs ys rest

/-- The picture a trace draws. -/
def sink (c : Config) (trace : List Logical) : List ((Nat × Nat) × Half) :=
  sinkPixels c (0, 0) (0, 0) (commandGroups trace)

end Sys2Proof.Machine
end

