-- ==== Sys2Proof/Machine/Text.lean ====
section
/-! DEFINITION. The program syntax of `30_encoding.md` R107: one request a line, numbers in decimal. The rows of the
opcode table that are not operations have no text of their own and show their mnemonic. -/

namespace Sys2Proof.Machine

/-- A byte string in square brackets (R107). -/
def bytesText (bytes : List Byte) : String :=
  "[" ++ String.intercalate ", " (bytes.map fun b => toString b.toNat) ++ "]"

/-- The line of a request; `RENDER` shows the number of its handle. -/
def lineText : Instr → String
  | .sendCmd code => "SEND_CMD " ++ toString code.toNat
  | .sendData bytes => "SEND_DATA " ++ bytesText bytes
  | .beginStream => "BEGIN_STREAM"
  | .rawWrite bytes => "RAW_WRITE " ++ bytesText bytes
  | .endStream => "END_STREAM"
  | .setWindow x0 y0 x1 y1 =>
    "SET_WINDOW " ++ String.intercalate ", " ([x0, y0, x1, y1].map fun v => toString v.toNat)
  | .beginFrame => "BEGIN_FRAME"
  | .endFrame => "END_FRAME"
  | .render fb => "RENDER " ++ toString fb.toNat
  | .reserved0 => "RESERVED_0"
  | .reservedA => "RESERVED_A"
  | .reservedB => "RESERVED_B"
  | .reservedC => "RESERVED_C"
  | .reservedD => "RESERVED_D"
  | .reservedE => "RESERVED_E"
  | .reservedF => "RESERVED_F"
  | .frameACmd _ => "FRAME_A_CMD"
  | .frameAData _ => "FRAME_A_DATA"
  | .frameBCmd _ => "FRAME_B_CMD"
  | .frameBData _ => "FRAME_B_DATA"
  | .windowParamBlock _ _ => "WINDOW_PARAM_BLOCK"
  | .pixelPair _ => "PIXEL_PAIR"
  | .cmdCaset => "CMD_CASET"
  | .cmdRaset => "CMD_RASET"
  | .cmdRamwr => "CMD_RAMWR"

end Sys2Proof.Machine
end

