-- ==== Sys2Proof/Tests/Slice0.lean ====
section
/-! SUPPORT. Tests: what `WellFormed` refuses, the words of the encoding tables, the vectors of
`95_test_vectors.md` (named in each test), and a witness for the hypotheses of each statement. Expected values are
the spec's. -/

open Sys2Proof Sys2Proof.Machine Sys2Proof.Spec

namespace Sys2Proof.Tests

/-! ## Small states -/

/-- The configuration of program P3. -/
def smallCfg (v : Variant) : Config :=
  { Config.reference with
    variant := v, wSrc := 4, hSrc := 2, stride := 1, wDst := 8, hDst := 6, xOff := 1, yOff := 2 }

/-- A configuration by the sizes of its source and destination. -/
def shape (wSrc hSrc wDst hDst : Nat) : Config :=
  { Config.reference with wSrc := wSrc, hSrc := hSrc, stride := (wSrc + 7) / 8, wDst := wDst, hDst := hDst }

/-- The handle of program P3. -/
def handle : Handle := 0x20000000#32

/-- Storage words behind the handle, from word 0. -/
def words (ws : List Nat) : Memory := ws.mapIdx fun i w => (srcAddr handle i, w)

/-- Right after reset, with the source of program P3. -/
def rested (v : Variant) : State := { State.boot (smallCfg v) with source := words [0xA0, 0x60] }

/-- The same with a pixel stream open. -/
def streaming (v : Variant) : State := done (rested v) (streamEvents (smallCfg v)) (streamPins (smallCfg v) Pins.reset) .stream

/-- A request accepted and no event yet. -/
def accepted (i : Instr) (s : State) : State := { s with busy := true, seq := .busy i 0 }

/-- The state of an outcome. -/
def after : Host.Outcome State Fault Refusal → Option State
  | .next t => some t
  | .fault _ => none
  | .refused _ => none

/-- The bus after an instruction. -/
def busAfter (i : Instr) (s : State) : Option (List Event) := (after (exec i s)).map (·.bus)

/-- The recorded fault, `SESS` and the bus after an instruction. -/
def endAfter (i : Instr) (s : State) : Option (Option FaultMark × Sess × List Event) :=
  (after (exec i s)).map fun t => (t.fault, t.sess, t.bus)

/-- The sampled bits of the sessions an instruction adds in variant B. -/
def bitsAfter (i : Instr) (s : State) : Option (List (List Bool)) :=
  (busAfter i s).map fun b => sessionBits Pins.reset none b

/-- A string of bits. -/
def bits (t : String) : List Bool := t.toList.map (· == '1')

/-! ## WellFormed (R93) -/

/-- The length of a payload of equal bytes. -/
theorem replicate_wf (n : Nat) : (Instr.sendData (List.replicate n 0)).WellFormed ↔ n ≤ 65535 := by
  rw [Instr.WellFormed, Instr.payload, List.length_replicate]
theorem test_wf_refuses_long_send_data : ¬ (Instr.sendData (List.replicate 65536 0)).WellFormed := fun h =>
  absurd ((replicate_wf _).1 h) (by decide)
theorem test_wf_refuses_long_raw_write : ¬ (Instr.rawWrite (List.replicate 65536 0)).WellFormed := fun h =>
  absurd ((replicate_wf _).1 h) (by decide)
theorem test_wf_longest_payload : (Instr.rawWrite (List.replicate 65535 0)).WellFormed :=
  (replicate_wf _).2 (by decide)

/-! ## Decoding: the words of R91 to R106, written out -/

theorem test_word_send_cmd : decode (.request 0x1_0036_0000_0000_0000#68 []) = .ok (.sendCmd 0x36) := by decide
theorem test_word_send_data :
    decode (.request 0x2_0002_0000_0000_0000#68 [0x00, 0xA5]) = .ok (.sendData [0x00, 0xA5]) := by decide
theorem test_word_begin_stream : decode (.request 0x3_0000_0000_0000_0000#68 []) = .ok .beginStream := by decide
theorem test_word_raw_write :
    decode (.request 0x4_0004_0000_0000_0000#68 [0xFF, 0xFF, 0, 0]) = .ok (.rawWrite [0xFF, 0xFF, 0, 0]) := by decide
theorem test_word_end_stream : decode (.request 0x5_0000_0000_0000_0000#68 []) = .ok .endStream := by decide
/-- The fields of W2: `arg0 = x0`, `arg1 = y0`, `arg2 = x1`, `arg3 = y1`. -/
theorem test_word_set_window :
    decode (.request 0x6_1234_5678_9ABC_DEF0#68 []) = .ok (.setWindow 0x1234 0x5678 0x9ABC 0xDEF0) := by decide
theorem test_word_begin_frame : decode (.request 0x7_0000_0000_0000_0000#68 []) = .ok .beginFrame := by decide
theorem test_word_end_frame : decode (.request 0x8_0000_0000_0000_0000#68 []) = .ok .endFrame := by decide
theorem test_word_render : decode (.request 0x9_2000_0004_0000_0000#68 []) = .ok (.render 0x20000004) := by decide
theorem test_word_reserved_0 : decode (.request 0x0_0000_0000_0000_0000#68 []) = .ok .reserved0 := by decide
theorem test_word_reserved_a : decode (.request 0xA_0000_0000_0000_0000#68 []) = .ok .reservedA := by decide
theorem test_word_reserved_b : decode (.request 0xB_0000_0000_0000_0000#68 []) = .ok .reservedB := by decide
theorem test_word_reserved_c : decode (.request 0xC_0000_0000_0000_0000#68 []) = .ok .reservedC := by decide
theorem test_word_reserved_d : decode (.request 0xD_0000_0000_0000_0000#68 []) = .ok .reservedD := by decide
theorem test_word_reserved_e : decode (.request 0xE_0000_0000_0000_0000#68 []) = .ok .reservedE := by decide
theorem test_word_reserved_f : decode (.request 0xF_0000_0000_0000_0000#68 []) = .ok .reservedF := by decide
theorem test_word_frame_a_cmd : decode (.frameA 0b0_00101100#9) = .ok (.frameACmd 0x2C) := by decide
theorem test_word_frame_a_data : decode (.frameA 0b1_10100101#9) = .ok (.frameAData 0xA5) := by decide
theorem test_word_frame_b_cmd : decode (.frameB8 0b00101100#8) = .ok (.frameBCmd 0x2C) := by decide
/-- V3: the mode bit 1, then `1,0,1,0,0,1,0,1`. -/
theorem test_word_frame_b_data : decode (.frameB9 0b1_10100101#9) = .ok (.frameBData 0xA5) := by decide
theorem test_word_frame_b_no_mode_bit : decode (.frameB9 0b0_10100101#9) = .error .noModeBit := by decide
theorem test_word_window_block : decode (.data4 0x0000013F#32) = .ok (.windowParamBlock 0 319) := by decide
theorem test_word_pixel_pair : decode (.data2 0xFF00#16) = .ok (.pixelPair 0xFF00) := by decide
theorem test_word_caset : decode (.panelCommand 0x2A#8) = .ok .cmdCaset := by decide
theorem test_word_raset : decode (.panelCommand 0x2B#8) = .ok .cmdRaset := by decide
theorem test_word_ramwr : decode (.panelCommand 0x2C#8) = .ok .cmdRamwr := by decide
/-- R95: bits no operation uses are ignored. -/
theorem test_word_ignores_unused_bits : decode (.request 0x1_FF36_FFFF_FFFF_FFFF#68 []) = .ok (.sendCmd 0x36) := by
  decide
/-- R93: the payload port carries exactly `length` bytes. -/
theorem test_word_payload_length :
    decode (.request 0x2_0002_0000_0000_0000#68 [0x00]) = .error (.payloadLength 2 1) := by decide
theorem test_table_words :
    decodeTableWord 72 0x20002000000000000 = some (.sendData [0, 0]) ∧ decodeTableWord 16 0x12C = some (.frameAData 0x2C) ∧
    decodeTableWord 16 0xFFFF = some (.pixelPair 0xFFFF) ∧ decodeTableWord 8 0x36 = some (.frameBCmd 0x36) ∧
    decodeTableWord 8 0x2C = some .cmdRamwr ∧ decodeTableWord 24 0 = none := by decide
/-- R107: the program text. -/
theorem test_text : lineText (.setWindow 0 0 239 319) = "SET_WINDOW 0, 0, 239, 319" ∧
    lineText (.sendData [0x00, 0xA5]) = "SEND_DATA [0, 165]" := by decide

/-! ## The framer (section 2.1) -/

/-- F1, variant A. -/
theorem test_send_cmd_a : busAfter (.sendCmd 0x2C) (rested .A) =
    some [.setCS .asserted, .setDC .cmd, .xfer [0x2C], .setCS .idle] := by decide
/-- F1, variant B: the first twelve events, 42 in all, the sampled bits. -/
theorem test_send_cmd_b :
    (busAfter (.sendCmd 0x2C) (rested .B)).map (·.take 12) =
      some [.setCS .asserted, .setSDA false, .setSCK false, .delay, .setSCK true, .delay, .setSDA false,
        .setSCK false, .delay, .setSCK true, .delay, .setSDA true] ∧
    (busAfter (.sendCmd 0x2C) (rested .B)).map List.length = some 42 ∧
    bitsAfter (.sendCmd 0x2C) (rested .B) = some [bits "00101100"] := by decide
/-- F5 and F6, variant A. -/
theorem test_send_data_a :
    busAfter (.sendData [0x00, 0xEF]) (rested .A) =
      some [.setCS .asserted, .setDC .data, .xfer [0x00, 0xEF], .setCS .idle] ∧
    busAfter (.sendData []) (rested .A) = some [.setCS .asserted, .setDC .data, .setCS .idle] := by decide
/-- F4 (V3), variant B. -/
theorem test_send_data_b : bitsAfter (.sendData [0xA5]) (rested .B) = some [bits "110100101"] ∧
    (busAfter (.sendData [0xA5]) (rested .B)).map (risingEdges false) = some 9 := by decide
/-- F7 and F14. -/
theorem test_begin_stream :
    endAfter .beginStream (rested .A) = some (none, .stream, [.setCS .asserted, .setDC .data]) ∧
    endAfter .beginStream (streaming .B) =
      some (some (.protocolViolation .beginStream .stream), .stream, [.setCS .asserted]) := by decide
/-- F8, F9 and F15. -/
theorem test_raw_write_a :
    endAfter (.rawWrite [0xFF, 0xFF]) (streaming .A) =
      some (none, .stream, [.setCS .asserted, .setDC .data, .xfer [0xFF, 0xFF]]) ∧
    busAfter (.rawWrite []) (streaming .A) = some [.setCS .asserted, .setDC .data] ∧
    endAfter (.rawWrite [0x00]) (rested .A) = some (some (.protocolViolation .rawWrite .closed), .closed, []) := by
  decide
/-- F8 and F11, variant B: the bits of the session once it is closed. -/
theorem test_raw_write_b :
    let closed := fun s : State =>
      (after (runAll [.rawWrite [0xA5], .endStream] s)).map fun t => sessionBits Pins.reset none t.bus
    closed (streaming .B) = some [bits "110100101"] ∧
    closed { streaming .B with cfg := { smallCfg .B with bRawModeBit := false } } = some [bits "10100101"] := by decide
/-- F10 and F16. -/
theorem test_end_stream :
    endAfter .endStream (streaming .B) = some (none, .closed, [.setCS .asserted, .setCS .idle]) ∧
    endAfter .endStream (rested .A) = some (some (.protocolViolation .endStream .closed), .closed, []) := by decide
/-- F17 and F18: only `FAULT` changes. -/
theorem test_reserved :
    after (exec .reserved0 (rested .A)) = some { rested .A with fault := some (.reservedOp 0) } ∧
    after (exec .reservedA (rested .A)) = some { rested .A with fault := some (.reservedOp 0xA) } := by decide
theorem test_reserved_others :
    [Instr.reservedB, .reservedC, .reservedD, .reservedE, .reservedF].map (fun i => endAfter i (rested .B)) =
      [0xB#4, 0xC, 0xD, 0xE, 0xF].map fun c => some (some (.reservedOp c), .closed, []) := by decide

/-! ## The panel driver (section 2.2) -/

/-- W1 in variant A: 16 events. -/
theorem test_set_window_a : busAfter (.setWindow 0 0 239 319) (rested .A) =
    some [.setCS .asserted, .setDC .cmd, .xfer [0x2A], .setCS .idle,
      .setCS .asserted, .setDC .data, .xfer [0x00, 0x00, 0x00, 0xEF], .setCS .idle,
      .setCS .asserted, .setDC .cmd, .xfer [0x2B], .setCS .idle,
      .setCS .asserted, .setDC .data, .xfer [0x00, 0x00, 0x01, 0x3F], .setCS .idle] := by decide
/-- W1 in variant B. -/
theorem test_set_window_b : bitsAfter (.setWindow 0 0 239 319) (rested .B) =
    some [bits "00101010", bits "100000000100000000100000000111101111",
      bits "00101011", bits "100000000100000000100000001100111111"] := by decide +kernel
/-- W7 and W9. -/
theorem test_begin_frame :
    endAfter .beginFrame (rested .A) = some (none, .stream, [.setCS .asserted, .setDC .cmd, .xfer [0x2C], .setCS .idle,
      .setCS .asserted, .setDC .data]) ∧
    (busAfter .beginFrame (rested .B)).map List.length = some 43 ∧
    endAfter .beginFrame (streaming .B) =
      some (some (.protocolViolation .beginFrame .stream), .stream, [.setCS .asserted]) := by decide
/-- W8 and W10. -/
theorem test_end_frame :
    endAfter .endFrame (streaming .A) = some (none, .closed, [.setCS .asserted, .setDC .data, .setCS .idle]) ∧
    endAfter .endFrame (rested .A) = some (some (.protocolViolation .endFrame .closed), .closed, []) := by decide

/-! ## The other rows -/

/-- R96: `CS` idle, asserted, `DC`, one transfer, idle. -/
theorem test_frame_a :
    busAfter (.frameACmd 0x2C) (rested .A) = some [.setCS .asserted, .setDC .cmd, .xfer [0x2C], .setCS .idle] ∧
    busAfter (.frameAData 0xA5) (rested .A) = some [.setCS .asserted, .setDC .data, .xfer [0xA5], .setCS .idle] := by
  decide
/-- R97, R98. -/
theorem test_frame_b : bitsAfter (.frameBCmd 0x2C) (rested .B) = some [bits "00101100"] ∧
    bitsAfter (.frameBData 0xA5) (rested .B) = some [bits "110100101"] := by decide
/-- R101. -/
theorem test_window_block : busAfter (.windowParamBlock 0 319) (rested .A) =
    some [.setCS .asserted, .setDC .data, .xfer [0x00, 0x00, 0x01, 0x3F], .setCS .idle] := by decide
/-- R102: the high byte first. -/
theorem test_pixel_pair : busAfter (.pixelPair 0x1234) (streaming .A) =
    some [.setCS .asserted, .setDC .data, .xfer [0x12, 0x34]] := by decide
/-- R106, with a command byte other than the default. -/
theorem test_panel_commands :
    busAfter .cmdCaset { rested .A with cfg := { smallCfg .A with cmdCaset := 0x15 } } =
      some [.setCS .asserted, .setDC .cmd, .xfer [0x15], .setCS .idle] ∧
    bitsAfter .cmdRaset (rested .B) = some [bits "00101011"] ∧
    bitsAfter .cmdRamwr (rested .B) = some [bits "00101100"] := by decide

/-! ## The renderer (sections 2.3 to 2.5) -/

/-- The four numbers of a viewport. -/
def fit (wSrc hSrc wDst hDst : Nat) : Nat × Nat × Nat × Nat :=
  let v := viewport (shape wSrc hSrc wDst hDst)
  (v.actW, v.actH, v.xPad, v.yPad)

/-- S1, S4, S5, S7 to S9. -/
theorem test_viewport_panel :
    fit 512 342 240 320 = (240, 160, 0, 80) ∧ fit 512 342 320 240 = (320, 213, 0, 13) ∧
    fit 512 342 480 320 = (480, 320, 0, 0) ∧ fit 512 342 240 161 = (240, 160, 0, 0) ∧
    fit 512 342 240 159 = (238, 159, 1, 0) ∧ fit 512 342 1024 768 = (1024, 684, 0, 42) := by decide
/-- S12 to S18. -/
theorem test_viewport_small :
    fit 3 5 8 5 = (3, 5, 2, 0) ∧ fit 3 5 7 5 = (3, 5, 2, 0) ∧ fit 4 3 7 7 = (7, 5, 0, 1) ∧
    fit 2 2 3 5 = (3, 3, 0, 1) ∧ fit 1 1 1 1 = (1, 1, 0, 0) ∧ fit 512 1 240 320 = (240, 0, 0, 160) ∧
    fit 1 1000 240 320 = (0, 320, 120, 0) := by decide
/-- V1, M1 to M4, M6, M8, M9. -/
theorem test_maps :
    let at' := fun c y => if inBand (viewport c) y then some (srcRow c (viewport c) y) else none
    [80, 81, 82, 159, 160, 238, 239, 240].map (at' (shape 512 342 240 320)) =
      [some 0, some 2, some 4, some 168, some 171, some 337, some 339, none] ∧
    [12, 13, 225, 226].map (at' (shape 512 342 320 240)) = [none, some 0, some 340, none] ∧
    [1, 2, 3, 4, 5].map (at' (shape 4 3 7 7)) = [some 0, some 0, some 1, some 1, some 2] ∧
    [0, 1, 2, 3, 1023].map (srcCol (shape 512 342 1024 768) (viewport (shape 512 342 1024 768))) = [0, 0, 1, 1, 511] ∧
    [0, 1, 2, 3, 4, 5, 6].map (srcCol (shape 4 3 7 7) (viewport (shape 4 3 7 7))) = [0, 0, 1, 1, 2, 2, 3] := by decide
/-- B1 to B4 and B6. -/
theorem test_sample_positions :
    let at' := fun b w s x y =>
      let c := { Config.reference with wordBits := b, wSrc := w, stride := s }
      (wordIndex c x y, bitPosition c x)
    at' 8 512 64 10 2 = (129, 5) ∧ at' 16 512 32 10 2 = (64, 5) ∧ at' 32 64 2 37 1 = (3, 26) ∧
    at' 8 512 64 511 341 = (21887, 0) ∧ at' 8 3 1 2 4 = (4, 5) := by decide
/-- The colour mapper of section 2.5 on the word `0xA0`. -/
theorem test_colours :
    [0, 1, 2, 3].map (fun x => (sourceBit (smallCfg .A) (words [0xA0]) handle x 0).map colour) =
      [some 0xFFFF, some 0x0000, some 0xFFFF, some 0x0000] := by decide

/-- A run of equal bytes. -/
def run (n : Nat) (b : Byte) : List Byte := List.replicate n b

/-- P3 in variant A: the 29 events; at the end `BUSY = 0`, `FAULT = none`, `SESS = Closed`. -/
theorem test_render_a :
    let dark := run 16 0x00
    let one := run 4 0xFF ++ run 4 0x00 ++ run 4 0xFF ++ run 4 0x00
    let two := run 4 0x00 ++ run 8 0xFF ++ run 4 0x00
    endAfter (.render handle) (rested .A) = some (none, .closed,
      [.setCS .asserted, .setDC .cmd, .xfer [0x2A], .setCS .idle,
       .setCS .asserted, .setDC .data, .xfer [0x00, 0x01, 0x00, 0x08], .setCS .idle,
       .setCS .asserted, .setDC .cmd, .xfer [0x2B], .setCS .idle,
       .setCS .asserted, .setDC .data, .xfer [0x00, 0x02, 0x00, 0x07], .setCS .idle,
       .setCS .asserted, .setDC .cmd, .xfer [0x2C], .setCS .idle, .setCS .asserted, .setDC .data,
       .xfer dark, .xfer one, .xfer one, .xfer two, .xfer two, .xfer dark, .setCS .idle]) := by decide +kernel
/-- P4 in variant B: the rows, and that the set padding bits are ignored; `SourceUndefined` without the last word. -/
theorem test_render_b :
    let c := { shape 3 5 8 5 with variant := .B }
    let s := { State.boot c with source := words [0xFF, 0x9F, 0x5F, 0x3F, 0xBF] }
    let row := fun a b d => run 4 0x00 ++ run 2 a ++ run 2 b ++ run 2 d ++ run 6 0x00
    (busAfter (.render handle) s).bind (receive .B Pins.reset) =
      some (frameTrace c 0 0 7 4 (row 0xFF 0xFF 0xFF ++ row 0xFF 0 0 ++ row 0 0xFF 0 ++ row 0 0 0xFF ++
        row 0xFF 0 0xFF)) ∧
    (endAfter (.render handle) { s with source := words [0xFF, 0x9F, 0x5F, 0x3F] }).map Prod.fst =
      some (some (.sourceUndefined 4)) := by decide +kernel

/-! ## Programs and the interface (section 3) -/

/-- The machine after some steps. -/
def ran (n : Nat) (s : State) : Option State := after (Sys2Proof.core.run n s)

/-- P1 by its request words, in variant B: 134 events, 26 rising edges, `SCK = 1`, `SDA = 1`. -/
theorem test_program_p1 :
    let s := { rested .B with tape :=
      [.request 0x1_0036_0000_0000_0000#68 [], .request 0x2_0002_0000_0000_0000#68 [0x00, 0xA5]].map (.request · []) }
    (ran 2 s).map (fun t => (t.bus.length, risingEdges false t.bus, t.pins.sck, t.pins.sda, t.sess)) =
      some (134, 26, true, true, .closed) := by decide +kernel
/-- P2 in variant B: 852 events, 168 rising edges, and the picture of the reference sink. -/
theorem test_program_p2 :
    let c := { shape 2 2 2 2 with variant := .B }
    let s := (State.boot c).load [.setWindow 0 0 1 1, .beginFrame, .rawWrite [0xFF, 0xFF, 0x00, 0x00],
      .rawWrite [0x00, 0x00, 0xFF, 0xFF], .endFrame]
    (ran 5 s).map (fun t => (t.bus.length, risingEdges false t.bus, t.sess, t.pins.cs)) =
      some (852, 168, .closed, .idle) ∧
    ((ran 5 s).bind (fun t => receive .B Pins.reset t.bus)).map (sink c) =
      some [((0, 0), 0xFFFF), ((1, 0), 0x0000), ((0, 1), 0x0000), ((1, 1), 0xFFFF)] := by decide +kernel
/-- P5: a fault, with the stream left open; and the run that ends well. -/
theorem test_program_p5 :
    (ran 2 ((rested .A).load [.beginFrame, .render handle])).map (fun t => (t.fault, t.sess, t.pins.cs, t.bus.length)) =
      some (some (.protocolViolation .render .stream), .stream, .asserted, 6) ∧
    (ran 3 ((rested .A).load [.beginFrame, .endFrame, .render handle])).map (fun t => (t.fault, t.sess, t.busy)) =
      some (none, .closed, false) := by decide +kernel
/-- P6: the second frame shows the word the owner changed in between. -/
theorem test_program_p6 :
    let s := { rested .A with tape := [.request (encode (.render handle)) [], .source handle 0 (some 0x50),
      .request (encode (.render handle)) []] }
    let row := run 4 0x00 ++ run 4 0xFF ++ run 4 0x00 ++ run 4 0xFF
    (ran 3 s).map (fun t => (t.bus.length, t.bus[29 + 23]?, t.bus[29 + 24]?)) =
      some (58, some (.xfer row), some (.xfer row)) := by decide +kernel
/-- R262: a reset between two events of an operation. -/
theorem test_reset_abandons :
    let s := { rested .A with tape := [.start (encode (.sendCmd 0x2C)), .tick, .tick, .reset] }
    (ran 3 s).map (fun t => (t.busy, t.seq, t.sess, t.bus.length)) =
      some (true, .busy (.sendCmd 0x2C) 2, .single, 2) ∧
    (ran 4 s).map (fun t => (t.busy, t.seq, t.sess, t.bus, t.pins.cs)) = some (false, .idle, .closed, [], .idle) := by
  decide
/-- What one sees of a machine. -/
def seen (o : Option State) : Option (List Event × Bool × Sess × Pins) :=
  o.map fun t => (t.bus, t.busy, t.sess, t.pins)
/-- P3 in variant A, event by event: acceptance, then 29 events. -/
def renderTicks : State := { rested .A with tape := .start (encode (.render handle)) :: List.replicate 29 .tick }
/-- P3 in variant A in one step. -/
def renderOnce : State := { rested .A with tape := [.request (encode (.render handle)) []] }
/-- R33: the events one by one are the whole operation. -/
theorem test_events_one_by_one : seen (ran 30 renderTicks) = seen (ran 1 renderOnce) := by decide +kernel
/-- R234: a request in the middle of an operation. -/
theorem test_overlap :
    let s := { rested .A with tape := [.start (encode .beginFrame), .tick, .start (encode .endStream)] }
    (ran 3 s).map (fun t => (t.fault, t.busy, t.sess, t.bus.length)) =
      some (some (.overlap (.busy .beginFrame 1) .endStream), false, .single, 1) := by decide
/-- R67, event by event: the owner changes a word after its old content has been sent; the change is in place once the
operation is over. -/
theorem test_owner_moves_while_rendering :
    let moves := List.replicate 25 Input.tick ++ Input.source handle 0 (some 0x50) :: List.replicate 4 Input.tick
    let s := { rested .A with tape := Input.start (encode (.render handle)) :: moves }
    (ran 27 s).map (fun t => (t.busy, t.source, t.inFlight)) =
      some (true, words [0xA0, 0x60], [{ addr := srcAddr handle 0, value := some 0x50 }]) ∧
    (ran 31 s).map (fun t => (t.busy, t.source, t.inFlight, t.bus.length)) =
      some (false, words [0x50, 0x60], [], 29) := by decide +kernel
/-- R141 (F9), event by event: no event, and one tick that ends the operation (log 19). -/
theorem test_raw_write_of_nothing_by_ticks :
    let s := { streaming .B with tape := [.start (encode (.rawWrite [])), .tick] }
    (ran 1 s).map (fun t => (t.busy, t.seq, t.bus.length)) = some (true, .busy (.rawWrite []) 0, 1) ∧
    (ran 2 s).map (fun t => (t.busy, t.seq, t.bus.length, t.sess)) = some (false, .idle, 1, .stream) := by decide
/-- R239 and log 20: what the model itself refuses, with `BUSY = 1`. -/
theorem test_order_of_refusals :
    let s := accepted .beginFrame (rested .A)
    exec (.frameBCmd 0) s = .refused (.inactiveVariant .A) ∧
    (endAfter (.frameBCmd 0) { s with cfg := { smallCfg .A with wDst := 0 } }).map Prod.fst =
      some (some (.illegalConfig .wDstMin)) ∧
    step { s with tape := [.request (.frameB9 0) []] } = .refused (.undecodable .noModeBit) := ⟨rfl, rfl, rfl⟩
/-- R236, R240: an illegal configuration is recorded in `FAULT`, ahead of Overlap (R239), and nothing else happens. -/
theorem test_illegal_config :
    let s := { accepted .beginFrame (rested .A) with cfg := { smallCfg .A with stride := 2 } }
    after (exec (.sendCmd 0x2C) s) =
      some { s with fault := some (.illegalConfig .stride), busy := false, seq := .idle } := by decide
/-- R9: `T_BIT` is positive, so every bit of variant B takes time (R135, R276), in any configuration. -/
theorem test_bits_take_time (c : Config) (v : Bool) : 0 < minDuration c (bitEvents v) :=
  Nat.mul_pos (Nat.succ_pos 1) c.tBit.property
/-- R231: the codes of the outcomes, and the bound that fails, the lower and the upper told apart. -/
theorem test_outcome_codes :
    outcomeCode (exec .endStream (rested .A)) = some 1 ∧ outcomeCode (exec .reserved0 (rested .A)) = some 2 ∧
    outcomeCode (exec .endStream (accepted .beginFrame (rested .A))) = some 3 ∧
    outcomeCode (exec (.render handle) { rested .A with source := [] }) = some 4 ∧
    outcomeCode (exec .endStream { rested .A with cfg := { smallCfg .A with wSrc := 0 } }) = some 5 ∧
    outcomeCode (exec .beginStream (rested .A)) = none ∧
    firstBroken { smallCfg .A with wSrc := 0 } = some .wSrcMin ∧
    firstBroken { smallCfg .A with wSrc := 65536 } = some .wSrcMax := by decide
/-- P5 and R263: the run that leaves its stream open does not end well, the other does, and not before its requests
have run. -/
theorem test_ends_well :
    runEndsWell (smallCfg .A) (words [0xA0, 0x60]) [.beginFrame, .render handle] = false ∧
    runEndsWell (smallCfg .A) (words [0xA0, 0x60]) [.beginFrame, .endFrame, .render handle] = true ∧
    ¬ endedWell ((rested .A).load [.sendCmd 0x36]) := by decide +kernel
/-- R16, R147: what a receiver reads of an open stream, the same in both variants, and the events of a trace. -/
theorem test_open_sessions (v : Variant) :
    receive v Pins.reset (streamEvents (smallCfg v)) = some [.opened] ∧
    receive v (streamPins (smallCfg v) Pins.reset) (rawEvents (smallCfg v) [0xA5]) = some [.data 0xA5] ∧
    receive v (streamPins (smallCfg v) Pins.reset) [.setCS .idle] = some [.closed] ∧
    traceEvents (smallCfg v) [.opened] = streamEvents (smallCfg v) := by cases v <;> decide
/-- F1 and F4 from their traces (R16). -/
theorem test_trace_events :
    traceEvents (smallCfg .A) [.opened, .cmd 0x2C, .closed] =
      [.setCS .asserted, .setDC .cmd, .xfer [0x2C], .setCS .idle] ∧
    sessionBits Pins.reset none (traceEvents (smallCfg .B) [.opened, .data 0xA5, .closed]) = [bits "110100101"] := by
  decide
/-- R243: the initialisation table is replayed in order, and a tuple without data sends no data. -/
theorem test_table_replay :
    replayTable [(0x11, []), (0x3A, [0x55])] = [.sendCmd 0x11, .sendCmd 0x3A, .sendData [0x55]] := by decide
/-- R133, R35: the panel sees one long transfer as several short ones, and no `Set` to the same level. -/
theorem test_panel_view :
    samePanelView Pins.reset [.setCS .asserted, .xfer [1, 2]] [.setCS .asserted, .setCS .asserted, .xfer [1], .xfer [2]] := by
  decide
/-- `withFetchWord` runs exactly its instruction. -/
theorem test_fetch_word :
    (after (step (State.reset.withFetchWord 72 0x1_0036_0000_0000_0000))).map (·.bus) =
      some [.setCS .asserted, .setDC .cmd, .xfer [0x36], .setCS .idle] := by decide

/-! ## Witnesses: states and operands that meet the hypotheses of each statement -/

/-- The picture of program P3. -/
def picture (sx sy : Nat) : Bool := (if sy = 0 then 0xA0 else 0x60).testBit (7 - sx)

theorem renderable_of_words (s : State) (fb : Handle) (image : Nat → Nat → Bool) (hr : ready s) (hs : s.sess = .closed)
    (hf : s.inFlight = []) (h : ∀ sx < s.cfg.wSrc, ∀ sy < s.cfg.hSrc,
      sourceBit s.cfg s.source fb sx sy = some (image sx sy)) : renderable s fb image :=
  ⟨hr, hs, hf, fun sx sy hx hy => h sx hx sy hy⟩

/-- P3 can be rendered. -/
theorem rested_renderable (v : Variant) : renderable (rested v) handle picture :=
  renderable_of_words _ _ _ (by cases v <;> decide) rfl rfl (by cases v <;> decide)

/-- P3 with an all-on (all-clear) source. -/
def uniform (v : Variant) (b : Bool) : State :=
  { rested v with source := if b then words [0xFF, 0xFF] else words [0x00, 0x00] }

theorem witness_DecodeAfterEncode : (Instr.sendData []).WellFormed ∧ (Instr.rawWrite (List.replicate 65535 0)).WellFormed :=
  ⟨Nat.zero_le _, (replicate_wf _).2 (by decide)⟩
theorem witness_RequestWordsDecodeByTheirFields :
    let op := fun w : ReqWord => w.toNat / 2 ^ 64
    let arg0 := fun w : ReqWord => w.toNat / 2 ^ 48 % 2 ^ 16
    op 0x1_0036_0000_0000_0000#68 = 1 ∧
    (op 0x2_0000_0000_0000_0000#68 = 2 ∧ ([] : List Byte).length = arg0 0x2_0000_0000_0000_0000#68) ∧
    op 0x3_0000_0000_0000_0000#68 = 3 ∧
    (op 0x4_0002_0000_0000_0000#68 = 4 ∧ ([0, 0xA5] : List Byte).length = arg0 0x4_0002_0000_0000_0000#68) ∧
    op 0x5_0000_0000_0000_0000#68 = 5 ∧ op 0x6_FFFF_FFFF_FFFF_FFFF#68 = 6 ∧ op 0x7_0000_0000_0000_0000#68 = 7 ∧
    op 0x8_0000_0000_0000_0000#68 = 8 ∧ op 0x9_2000_0000_0000_0000#68 = 9 := by decide
/-- A request, a request to be run event by event, and a word that decodes to nothing for each. -/
theorem witness_StepRunsTheDecodedInstruction :
    let cmd := Encoded.request 0x1_0036_0000_0000_0000#68 []
    let short := Encoded.request 0x2_0002_0000_0000_0000#68 [0x00]
    ((State.reset.withFetchWord 72 0x1_0036_0000_0000_0000).tape = .request cmd [] :: [] ∧
      ({ rested .A with tape := [.start cmd] } : State).tape = .start cmd :: [] ∧
      decode cmd = .ok (.sendCmd 0x36)) ∧
    (({ rested .A with tape := [.request short []] } : State).tape = .request short [] :: [] ∧
      ({ rested .A with tape := [.start short] } : State).tape = .start short :: [] ∧
      decode short = .error (.payloadLength 2 1)) := by decide
theorem witness_IdleEngineDoesNothing : (rested .A).seq = .idle ∧ (rested .A).tape = [] ∧
    ({ rested .A with tape := [.tick] } : State).tape = .tick :: [] := by decide
/-- The first event, the last event, a RENDER about to read its first word (which is there, or is not), and an
operation with no event; left alone and at a tick. -/
theorem witness_SequencerAdvancesByOneEvent :
    let first := accepted (.sendCmd 0x2C) (rested .A)
    let last := nextEvents 3 first
    let row := { nextEvents 23 (accepted (.render handle) (rested .A)) with tape := [.tick] }
    let empty := accepted (.rawWrite []) (streaming .B)
    (Consistent first ∧ first.seq = .busy (.sendCmd 0x2C) 0 ∧ first.tape = []) ∧
    (Consistent last ∧ last.seq = .busy (.sendCmd 0x2C) 3) ∧
    (Consistent row ∧ row.seq = .busy (.render handle) 23 ∧ row.tape = .tick :: []) ∧
    (Consistent { row with source := [] } ∧ ({ row with source := [] } : State).seq = .busy (.render handle) 23) ∧
    (Consistent empty ∧ empty.seq = .busy (.rawWrite []) 0) := by
  refine ⟨⟨?_, by decide, rfl⟩, ⟨?_, by decide⟩, ⟨?_, by decide, rfl⟩, ⟨?_, by decide⟩, ?_, by decide⟩ <;>
    exact ⟨by decide, by decide, by decide, by decide, by decide, by decide, by decide, by decide⟩
theorem witness_WholeOperationIsItsEvents :
    (opOf (.frameBData 0xA5) = some .sendData ∧ available (.frameBData 0xA5) (rested .B).cfg ∧ ready (rested .B) ∧
      (rested .B).sess = (sessTable .sendData).1) ∧
    startRequest (.sendCmd 0x2C) (rested .A) = .next (accepted (.sendCmd 0x2C) (rested .A)) ∧
    (accepted (.sendCmd 0x2C) (rested .A)).busy = true ∧ (rested .A).busy = false ∧
    (∃ t, exec (.sendCmd 0x2C) (rested .A) = .next t) ∧
    startRequest (.render handle) (rested .B) = .next (accepted (.render handle) (rested .B)) ∧
    ∃ t, exec (.render handle) (rested .B) = .next t :=
  ⟨⟨rfl, fun _ h => Option.some.inj h, by decide, rfl⟩, rfl, rfl, rfl, ⟨_, rfl⟩, rfl, ⟨_, rfl⟩⟩

/-- Ready, with no session open, in both variants. -/
theorem rested_ready (v : Variant) : ready (rested v) ∧ (rested v).sess = .closed := by cases v <;> decide
/-- Ready, with a pixel stream open, in both variants. -/
theorem streaming_ready (v : Variant) : ready (streaming v) ∧ (streaming v).sess = .stream := by cases v <;> decide

theorem witness_SendCmdCompletes : ready (rested .B) ∧ (rested .B).sess = .closed := rested_ready .B
theorem witness_SendDataCompletes : ready (rested .B) ∧ (rested .B).sess = .closed := rested_ready .B
theorem witness_BeginStreamCompletes : ready (rested .A) ∧ (rested .A).sess = .closed := rested_ready .A
theorem witness_RawWriteCompletes : ready (streaming .B) ∧ (streaming .B).sess = .stream := streaming_ready .B
theorem witness_EndStreamCompletes : ready (streaming .A) ∧ (streaming .A).sess = .stream := streaming_ready .A
theorem witness_SetWindowCompletes : ready (rested .A) ∧ (rested .A).sess = .closed := rested_ready .A
theorem witness_BeginFrameCompletes : ready (rested .B) ∧ (rested .B).sess = .closed := rested_ready .B
theorem witness_EndFrameCompletes : ready (streaming .B) ∧ (streaming .B).sess = .stream := streaming_ready .B
theorem witness_CompositesAreTheirExpansions :
    (ready (rested .A) ∧ (rested .A).sess = .closed) ∧ (ready (streaming .A) ∧ (streaming .A).sess = .stream) ∧
    renderable (rested .A) handle picture := ⟨rested_ready .A, streaming_ready .A, rested_renderable .A⟩
theorem witness_PanelCommandBytesAreSent : ready (rested .A) ∧ (rested .A).sess = .closed := rested_ready .A
theorem witness_DataBlocksAreSent : (ready (rested .B) ∧ (rested .B).sess = .closed) ∧
    (ready (streaming .B) ∧ (streaming .B).sess = .stream) := ⟨rested_ready .B, streaming_ready .B⟩
theorem witness_BusFramesAreSent :
    (ready (rested .A) ∧ (rested .A).sess = .closed ∧ (rested .A).cfg.variant = .A) ∧
    (ready (rested .B) ∧ (rested .B).sess = .closed ∧ (rested .B).cfg.variant = .B) := by decide
theorem witness_FramesOfTheOtherVariantAreRefused :
    (legal (rested .B).cfg ∧ (rested .B).fault = none ∧ (rested .B).cfg.variant = .B) ∧
    (legal (rested .A).cfg ∧ (rested .A).fault = none ∧ (rested .A).cfg.variant = .A) := by decide

/-! ### Faults -/

theorem witness_ReservedCodesAreRecorded :
    (Instr.reserved0, 0x0#4) ∈ reservedTable ∧ (0x0_0000_0000_0000_0000#68).toNat / 2 ^ 64 = (0x0#4).toNat ∧
    (Instr.reservedF, 0xF#4) ∈ reservedTable ∧ (0xF_FFFF_FFFF_FFFF_FFFF#68).toNat / 2 ^ 64 = (0xF#4).toNat ∧
    ready (streaming .A) := by decide
/-- An operation of each kind, in the wrong and in the right session. -/
theorem witness_SessionDisciplineHolds :
    (opOf (.sendCmd 0) = some .sendCmd ∧ available (.sendCmd 0) (smallCfg .A) ∧ ready (streaming .A) ∧
      (streaming .A).sess ≠ (sessTable .sendCmd).1) ∧
    (opOf (.frameBData 0) = some .sendData ∧ available (.frameBData 0) (smallCfg .B) ∧ ready (rested .B) ∧
      ∃ t, exec (.frameBData 0) (rested .B) = .next t ∧ t.fault = none) :=
  ⟨⟨rfl, nofun, by decide, by decide⟩, rfl, fun _ h => Option.some.inj h, by decide, _, rfl, rfl⟩
theorem witness_OverlapIsRecorded :
    let s := accepted .beginFrame (rested .A)
    (legal s.cfg ∧ s.fault = none ∧ s.busy = true) ∧
    (available .endStream s.cfg ∧ (opOf .endStream).isSome) ∧
    (available .reserved0 s.cfg ∧ ∃ code, (Instr.reserved0, code) ∈ reservedTable) :=
  ⟨by decide, ⟨nofun, rfl⟩, nofun, 0x0#4, by decide⟩
/-- A configuration that breaks a bound by one, and one that stands at every upper bound. -/
theorem witness_LegalConfigurations :
    legal { Config.reference with
      wSrc := 65535, hSrc := 65535, stride := 8192, wDst := 65535, hDst := 65535, xOff := 1, yOff := 1 } ∧
    ¬ legal { Config.reference with xOff := 65297 } ∧ ¬ legal { Config.reference with stride := 63 } := by decide
/-- A configuration without a column, between two operations and during one. -/
theorem witness_IllegalConfigIsRefused :
    let c := { smallCfg .A with wDst := 0 }
    ¬ legal c ∧ (State.boot c).fault = none ∧ ({ accepted .beginFrame (rested .A) with cfg := c } : State).fault = none := by
  decide
/-- One state for each way to fail; all but the first have a legal configuration. -/
theorem witness_FirstFailingCheckDecides :
    (∃ t, (State.boot { smallCfg .A with wDst := 0 }).fault = none ∧ ¬ legal { smallCfg .A with wDst := 0 } ∧
      exec .reserved0 (State.boot { smallCfg .A with wDst := 0 }) = .next t ∧
      t.fault = some (.illegalConfig .wDstMin)) ∧
    legal (smallCfg .A) ∧
    (∃ t, (accepted .beginFrame (rested .A)).fault = none ∧ (accepted .beginFrame (rested .A)).busy = true ∧
      exec .reserved0 (accepted .beginFrame (rested .A)) = .next t ∧
      t.fault = some (.overlap (.busy .beginFrame 0) .reserved0)) ∧
    (∃ t, (rested .A).busy = false ∧ (Instr.reserved0, 0x0#4) ∈ reservedTable ∧
      exec .reserved0 (rested .A) = .next t ∧ t.fault = some (.reservedOp 0x0)) ∧
    (∃ t, (streaming .A).busy = false ∧ opOf .beginStream = some .beginStream ∧
      (streaming .A).sess ≠ (sessTable .beginStream).1 ∧
      exec .beginStream (streaming .A) = .next t ∧ t.fault = some (.protocolViolation .beginStream .stream)) ∧
    (∃ t, ({ rested .A with source := [] } : State).busy = false ∧ opOf (.render handle) = some .render ∧
      ({ rested .A with source := [] } : State).sess = (sessTable .render).1 ∧
      exec (.render handle) { rested .A with source := [] } = .next t ∧ t.fault = some (.sourceUndefined 0)) :=
  ⟨⟨_, rfl, by decide, rfl, rfl⟩, by decide, ⟨_, rfl, rfl, rfl, rfl⟩, ⟨_, rfl, by decide, rfl, rfl⟩, ⟨_, rfl, rfl, by decide, rfl, rfl⟩,
    ⟨_, rfl, rfl, rfl, rfl, rfl⟩⟩
/-- A machine that has taken a fault. -/
def broken : State := faulted (rested .A) (.reservedOp 0)
theorem witness_FaultIsSticky : broken.fault = some (.reservedOp 0) ∧
    ((∃ t, step broken = .next t) ∧ ∀ rest, broken.tape ≠ .reset :: rest) ∧
    ({ broken with tape := [.reset] } : State).tape = .reset :: [] := ⟨rfl, ⟨⟨_, rfl⟩, nofun⟩, rfl⟩
theorem witness_FaultedMachineStops : broken.fault = some (.reservedOp 0) := by decide

/-! ### Reset -/

theorem witness_ResetLeavesTheStatedValues :
    ∃ t c, t = State.boot c ∨ t = (accepted .beginFrame (streaming .A)).powerReset := ⟨_, smallCfg .B, .inr rfl⟩
/-- In the middle of an operation, a change of the owner in flight. -/
theorem witness_ResetAbandonsTheOperation :
    ({ accepted .beginFrame (rested .A) with
        inFlight := [{ addr := srcAddr handle 0, value := none }]
        tape := [.reset, .tick] } : State).tape = .reset :: [.tick] := rfl

/-! ### The renderer's arithmetic -/

/-- S1 and S8: one configuration in each branch of the fit. -/
theorem witness_ViewportFillsOneAxis :
    (legal (shape 512 342 240 320) ∧ ¬ 240 * 342 / 512 > 320) ∧
    (legal (shape 512 342 240 159) ∧ 240 * 342 / 512 > 159) := by decide
theorem witness_PaddingOnAtMostOneAxis : legal (shape 512 342 320 240) ∧ legal (shape 3 5 8 5) := by decide
theorem witness_MapsStayInsideTheSource :
    let c := shape 512 342 320 240
    let v := viewport c
    legal c ∧ inBand v 13 = true ∧ inBand v 225 = true ∧ inBand v v.yPad = true ∧ 319 < v.actW ∧
      511 < c.wSrc ∧ 341 < c.hSrc := by decide
/-- S9 has more active rows and columns than the source, S1 fewer, S2 as many. -/
theorem witness_MapsAreMonotone :
    let up := shape 512 342 1024 768
    let down := shape 512 342 240 320
    let same := shape 100 100 100 100
    (legal up ∧ up.hSrc ≤ (viewport up).actH ∧ up.wSrc ≤ (viewport up).actW ∧ inBand (viewport up) 42 = true ∧
      inBand (viewport up) 43 = true) ∧
    (legal down ∧ (viewport down).actH < down.hSrc ∧ (viewport down).actW < down.wSrc ∧
      inBand (viewport down) 238 = true ∧ inBand (viewport down) 239 = true ∧ 238 + 1 < (viewport down).actW) ∧
    (legal same ∧ same.hSrc ≤ (viewport same).actH ∧ same.wSrc ≤ (viewport same).actW) := by decide
/-- S2 and S5 (equal shapes to within the division), S3 (equal sizes). -/
theorem witness_EqualShapesNeedNoPadding :
    (legal (shape 512 342 1024 684) ∧ 1024 * 342 = 684 * 512) ∧
    (legal (shape 512 342 512 342) ∧ 511 < 512 ∧ 341 < 342) := by decide
/-- S17 and S18. -/
theorem witness_DegenerateFramesAreOff :
    (legal (shape 512 1 240 320) ∧ 240 * 1 < 512 ∧ (viewport (shape 512 1 240 320)).actH = 0) ∧
    (legal (shape 1 1000 240 320) ∧ 240 * 1000 / 1 > 320 ∧ 320 * 1 < 1000 ∧
      (viewport (shape 1 1000 240 320)).actW = 0) := by decide
theorem witness_ThirtyTwoBitsSuffice :
    let c := { shape 65535 65535 65535 65535 with wordBits := 1, stride := 65535 }
    legal c ∧ inBand (viewport c) 65534 = true ∧ 65534 < (viewport c).actW ∧ 65534 < c.wSrc := by decide
theorem witness_SourcePixelsHaveTheirOwnBits :
    let c := shape 512 342 240 320
    legal c ∧ 0 < c.wSrc ∧ 511 < c.wSrc ∧ 341 < c.hSrc ∧
      wordIndex c 511 341 = wordIndex c 511 341 ∧ bitPosition c 511 = bitPosition c 511 := by decide
/-- The first and the last pixel byte. -/
theorem witness_PixelBytesInOrder : 0 < 2 * (smallCfg .A).wDst * (smallCfg .A).hDst ∧
    95 < 2 * (smallCfg .A).wDst * (smallCfg .A).hDst := by decide

/-! ### RENDER -/

theorem witness_RenderSendsTheFrame : renderable (rested .B) handle picture := rested_renderable .B
theorem witness_UniformSourcesGiveUniformBands (b : Bool) : renderable (uniform .A b) handle (fun _ _ => b) :=
  renderable_of_words _ _ _ (by cases b <;> decide) rfl rfl (by cases b <;> decide)
/-- The second word is missing. -/
theorem witness_UnreadableSourceIsRecorded :
    let s := { rested .A with source := words [0xA0] }
    ready s ∧ s.sess = .closed ∧ s.inFlight = [] ∧ ∃ x y, x < (viewport s.cfg).actW ∧ y < (viewport s.cfg).actH ∧
      sourceBit s.cfg s.source handle (activeIndex s.cfg x y).1 (activeIndex s.cfg x y).2 = none :=
  ⟨by decide, rfl, rfl, 0, 2, by decide, by decide, by decide⟩
/-- The owner changes the first word meanwhile. -/
theorem witness_TornFrameIsStillAFrame :
    let s := { rested .A with inFlight := [{ addr := srcAddr handle 0, value := some 0x50 }] }
    ready s ∧ s.sess = .closed ∧
    (∀ sx sy, sx < s.cfg.wSrc → sy < s.cfg.hSrc → (sourceBit s.cfg s.source handle sx sy).isSome) ∧
    (∀ c ∈ s.inFlight, c.value.isSome) ∧ s.inFlight ≠ [] := by
  have h : ∀ sx < 4, ∀ sy < 2, (sourceBit (smallCfg .A) (words [0xA0, 0x60]) handle sx sy).isSome := by decide
  exact ⟨by decide, rfl, fun sx sy hx hy => h sx hx sy hy, by decide, by decide⟩
/-- P3's source with its four padding bits set. -/
theorem witness_PaddingBitsAffectNothing :
    let s := rested .A
    let m := words [0xAF, 0x6F]
    s.inFlight = [] ∧ m ≠ s.source ∧
    (∀ sx sy, sx < s.cfg.wSrc → sy < s.cfg.hSrc → sourceBit s.cfg m handle sx sy = sourceBit s.cfg s.source handle sx sy) ∧
    ∃ t, exec (.render handle) s = .next t := by
  have h : ∀ sx < 4, ∀ sy < 2, sourceBit (smallCfg .A) (words [0xAF, 0x6F]) handle sx sy =
      sourceBit (smallCfg .A) (words [0xA0, 0x60]) handle sx sy := by decide
  exact ⟨rfl, by decide, fun sx sy hx hy => h sx hx sy hy, _, rfl⟩
theorem witness_RenderSize (v : Variant) :
    renderable (rested v) handle picture ∧ (∃ t, exec (.render handle) (rested v) = .next t) ∧
      (rested v).cfg.variant = v ∧ (rested v).cfg.bRawModeBit = true :=
  ⟨rested_renderable v, by cases v <;> exact ⟨_, rfl⟩, rfl, rfl⟩

/-! ### The bus -/

theorem witness_FramerEventCounts (v : Variant) :
    (ready (rested v) ∧ (∃ t, exec (.sendCmd 0x2C) (rested v) = .next t ∧ t.fault = none) ∧
      (∃ t, exec (.sendData []) (rested v) = .next t ∧ t.fault = none) ∧
      (∃ t, exec .beginStream (rested v) = .next t ∧ t.fault = none)) ∧
    (ready (streaming v) ∧ (∃ t, exec (.rawWrite [0xFF]) (streaming v) = .next t ∧ t.fault = none) ∧
      (∃ t, exec .endStream (streaming v) = .next t ∧ t.fault = none)) := by
  cases v <;> exact ⟨⟨by decide, ⟨_, rfl, rfl⟩, ⟨_, rfl, rfl⟩, ⟨_, rfl, rfl⟩⟩, by decide, ⟨_, rfl, rfl⟩, ⟨_, rfl, rfl⟩⟩
theorem witness_SampledBits :
    (ready (rested .B) ∧ (rested .B).cfg.variant = .B ∧ (rested .B).cfg.bRawModeBit = true ∧
      (rested .B).sess = .closed) ∧
    (∃ t es, t.bus = (rested .B).bus ++ es ∧ exec (.sendCmd 0x2C) (rested .B) = .next t) ∧
    (∃ t es, t.bus = (rested .B).bus ++ es ∧ exec (.sendData [0xA5]) (rested .B) = .next t) ∧
    (∃ t es, t.bus = (rested .B).bus ++ es ∧
      runAll (.beginStream :: [[0xA5], []].map .rawWrite ++ [.endStream]) (rested .B) = .next t) :=
  ⟨by decide, ⟨_, _, rfl, rfl⟩, ⟨_, _, rfl, rfl⟩, ⟨_, _, rfl, rfl⟩⟩
/-- The states of the small helpers are orderly. -/
theorem rested_orderly (v : Variant) : orderly (rested v) := by
  cases v <;> exact ⟨by decide, by decide, fun _ => ⟨by decide, BusScan.start, by decide, nofun, by decide, rfl⟩⟩
theorem streaming_orderly (v : Variant) : orderly (streaming v) := by
  cases v <;>
    exact ⟨by decide, by decide, fun _ => ⟨by decide, betweenOps _ .stream, by decide, by decide, by decide, rfl⟩⟩
/-- With no session open (variant A with and without the mode bit), with a pixel stream open, a RENDER, and a frame drawn
by hand. -/
theorem witness_BothTransportsCarryTheTrace (v : Variant) :
    let plain := { rested .A with cfg := { smallCfg .A with bRawModeBit := false } }
    (ready (rested v) ∧ orderly (rested v) ∧ (rested v).cfg.bRawModeBit = true) ∧
    (∃ t es, t.fault = none ∧ t.bus = (rested v).bus ++ es ∧ exec (.setWindow 0 0 7 5) (rested v) = .next t) ∧
    (ready plain ∧ orderly plain ∧ plain.cfg.variant = .A ∧
      ∃ t es, t.fault = none ∧ t.bus = plain.bus ++ es ∧ exec .beginFrame plain = .next t) ∧
    (ready (streaming v) ∧ orderly (streaming v) ∧
      ∃ t es, t.fault = none ∧ t.bus = (streaming v).bus ++ es ∧ exec (.pixelPair 0xFF00) (streaming v) = .next t) ∧
    renderable (rested v) handle picture ∧
    (∃ t es, t.fault = none ∧ t.bus = (rested v).bus ++ es ∧ exec (.render handle) (rested v) = .next t) ∧
    (rested v).sess = .closed ∧
    ∃ t es, t.fault = none ∧ t.bus = (rested v).bus ++ es ∧
      runAll (.beginFrame :: [[0xFF, 0xFF], []].map .rawWrite ++ [.endFrame]) (rested v) = .next t := by
  refine ⟨⟨(rested_ready v).1, rested_orderly v, rfl⟩, ?_, ⟨by decide, rested_orderly .A, rfl, _, _, rfl, rfl, rfl⟩,
    ⟨(streaming_ready v).1, streaming_orderly v, ?_⟩, rested_renderable v, ?_, rfl, ?_⟩ <;>
    cases v <;> exact ⟨_, _, rfl, rfl, rfl⟩

/-! ### What no instruction changes, and the invariants -/

theorem witness_EngineWritesNoMemory : ∃ t, exec (.render handle) (rested .A) = .next t := ⟨_, rfl⟩
/-- Between two operations, and while one runs. -/
theorem witness_OwnerMovesOneWord :
    let s := { rested .A with tape := [.source handle 1 (some 0x1FF)] }
    let t := { accepted (.render handle) (rested .A) with tape := [.source handle 7 none] }
    (Memory.wf s.cfg.wordBits s.source = true ∧ s.tape = .source handle 1 (some 0x1FF) :: [] ∧ s.busy = false) ∧
    (Memory.wf t.cfg.wordBits t.source = true ∧ t.tape = .source handle 7 none :: [] ∧ t.busy = true) := by decide
theorem witness_ConfigurationNeverChanges :
    ∃ t, step { rested .A with tape := [.request (encode (.sendCmd 0x2C)) []] } = .next t := ⟨_, rfl⟩
theorem witness_BusIsAppendOnly :
    let s := { rested .A with tape := [.request (encode (.sendCmd 0x2C)) []] }
    (∃ t, step s = .next t) ∧ ∀ rest, s.tape ≠ .reset :: rest := ⟨⟨_, rfl⟩, nofun⟩
theorem witness_OnlyRenderUsesItsRegisters :
    (∀ fb, Instr.beginFrame ≠ .render fb) ∧ ∃ t, exec .beginFrame (rested .B) = .next t := ⟨nofun, _, rfl⟩
theorem witness_UnspecifiedValuesAreNeverRead : ∃ t, exec (.render handle) (rested .B) = .next t := ⟨_, rfl⟩
/-- A pixel stream is open. -/
theorem witness_InstructionsKeepTheBusDisciplined :
    disciplined (streaming .A) ∧ ∃ t, exec (.rawWrite [0xFF]) (streaming .A) = .next t ∧ t.fault = none :=
  ⟨⟨by decide, by decide, { asserted := true, driven := some .data }, by decide, by decide, by decide⟩, _, rfl, rfl⟩
/-- A pixel stream is open and a request waits; an operation runs. -/
theorem witness_StepKeepsOrderly :
    (orderly { streaming .A with tape := [.request (encode (.rawWrite [0xFF])) []] } ∧
      ∃ t, step { streaming .A with tape := [.request (encode (.rawWrite [0xFF])) []] } = .next t) ∧
    let s := nextEvents 2 (accepted (.sendCmd 0x2C) (rested .A))
    orderly s ∧ s.seq = .busy (.sendCmd 0x2C) 2 ∧ s.sess = .single ∧ ∃ t, step s = .next t :=
  ⟨⟨streaming_orderly .A, _, rfl⟩, ⟨by decide, by decide, fun _ => ⟨by decide, ⟨true, some .cmd⟩, by decide, by decide,
    .sendCmd, by decide, by decide, by decide⟩⟩, by decide, by decide, _, rfl⟩
theorem witness_ResetBusIsDisciplined : legal (smallCfg .B) ∧ legal (accepted .beginFrame (streaming .A)).cfg := by decide
/-- A pixel stream is open and a request waits. -/
theorem witness_StepKeepsConsistent :
    let s := { streaming .B with tape := [.request (encode (.rawWrite [0xFF])) []] }
    Consistent s ∧ ∃ t, step s = .next t := by
  refine ⟨?_, _, rfl⟩
  simp only [Consistent]
  decide
theorem witness_ResetIsConsistent : legal (smallCfg .B) := by decide

end Sys2Proof.Tests
end

/-! PROOF. The configuration (`00_scope.md` R9, R10): which ones are legal, and that no step changes one. -/

namespace Sys2Proof.Machine
open Sys2Proof Sys2Proof.Spec

/-! ## Legal configurations (R10) -/

/-- The Boolean check of a bound decides the inequality of R10. -/
theorem Bound.met_iff (c : Config) (b : Bound) : Bound.met c b = true ↔ boundHolds c b := by
  cases b <;> exact decide_eq_true_iff

theorem legal_iff (c : Config) : legal c ↔ ∀ b, boundHolds c b := by
  simp [legal, firstBroken_eq_none, Bound.met_iff]

/-- Settles O24: the twelve bounds, by their names. -/
theorem legalConfigurations : Obligations.LegalConfigurations := by
  unfold Obligations.LegalConfigurations
  intro c
  rw [legal_iff]
  constructor
  · intro h
    exact ⟨h .wSrcMin, h .hSrcMin, h .wDstMin, h .hDstMin, h .wordBitsMin, h .wSrcMax, h .hSrcMax, h .wDstMax,
      h .hDstMax, h .xOffMax, h .yOffMax, h .stride⟩
  · rintro ⟨_, _, _, _, _, _, _, _, _, _, _, _⟩ b
    cases b <;> assumption

/-! ## The viewport fits the panel (R191 to R193) -/

/-- When the width fit is too high, the height fit is not too wide (R192). -/
theorem heightFitWidth_le {c : Config} (h : exceedsHeight c = true) : c.hDst * c.wSrc / c.hSrc ≤ c.wDst := by
  have hlt : c.hDst < c.wDst * c.hSrc / c.wSrc := of_decide_eq_true h
  have hmul : c.hDst * c.wSrc ≤ c.wDst * c.hSrc :=
    (Nat.mul_le_mul_right _ hlt.le).trans (Nat.div_mul_le_self _ _)
  exact Nat.div_le_of_le_mul (by rwa [Nat.mul_comm c.hSrc])

theorem viewport_actW_le (c : Config) : (viewport c).actW ≤ c.wDst := by
  simp only [viewport]
  split
  · exact heightFitWidth_le ‹_›
  · exact le_rfl

theorem viewport_xPad (c : Config) : (viewport c).xPad = (c.wDst - (viewport c).actW) / 2 := rfl

/-- The active band ends inside the row: the premise of what is said of the rows of a frame. -/
theorem viewport_band_le (c : Config) : (viewport c).xPad + (viewport c).actW ≤ c.wDst := by
  have h := viewport_actW_le c
  have hp := viewport_xPad c
  omega

/-! ## What keeps the configuration (R9) -/

theorem loadOnly_cfg {s t : State} (h : loadOnly s t) : t.cfg = s.cfg := by rw [h]

theorem sentOnly_cfg {acts : List Act} {s t : State} (h : sentOnly acts s t) : t.cfg = s.cfg := by rw [h]; rfl

theorem exec_cfg {i : Instr} {s t : State} (h : exec i s = .next t) : t.cfg = s.cfg := by
  obtain ⟨-, ⟨f, rfl⟩ | ⟨-, op, -, -, -, -, rfl⟩ | ⟨-, fb, rfl, -, -, hr⟩⟩ := exec_next h
  · rfl
  · rfl
  · rcases render_cases fb s (viewport_band_le s.cfg) with
      ⟨bit, u, -, hu, e⟩ | ⟨bit, y, x, w, u, -, -, -, -, -, -, hu, -, -, e⟩ <;>
    · obtain rfl := Host.Outcome.next.inj (e.symm.trans hr)
      exact (sentOnly_cfg hu).trans rfl

theorem startRequest_cfg {i : Instr} {s t : State} (h : startRequest i s = .next t) : t.cfg = s.cfg := by
  obtain ⟨-, ⟨f, rfl⟩ | ⟨-, op, -, -, -, rfl⟩⟩ := startRequest_next h <;> rfl

theorem advanceActs_cfg (i : Instr) (k : Nat) (acts : List Act) (s : State) :
    (advanceActs i k acts s).cfg = s.cfg := by
  unfold advanceActs
  split
  · rfl
  · split <;> rfl

/-- The row whose event is due, loaded or already there, leaves the configuration alone. -/
theorem rowDue_cfg {first : Prop} [Decidable first] {y : Nat} {s t : State}
    (h : (if first then s.loadRow y else .ok s) = .ok t) : t.cfg = s.cfg := by
  split at h
  · exact loadOnly_cfg (loadRow_ok h).1
  · cases h
    rfl

/-- So does the read that fails as the row is loaded. -/
theorem rowDue_error_cfg {first : Prop} [Decidable first] {y w : Nat} {s t : State}
    (h : (if first then s.loadRow y else .ok s) = .error (w, t)) : t.cfg = s.cfg := by
  split at h
  · exact loadOnly_cfg (loadRow_error h).1
  · cases h

theorem advanceRender_cfg (fb : Handle) (k : Nat) (s : State) : (advanceRender fb k s).cfg = s.cfg := by
  unfold advanceRender
  split
  next hact => split <;> rfl
  next hrows =>
    dsimp only
    split
    next hrow =>
      split
      next hload => exact (rowDue_error_cfg hload :)
      next hload => exact (rowDue_cfg hload :)
    next hend => rfl

theorem nextEvent_cfg (s : State) : (nextEvent s).cfg = s.cfg := by
  unfold nextEvent
  split
  · rfl
  · exact advanceRender_cfg _ _ _
  · exact advanceActs_cfg _ _ _ _

theorem advance_cfg (s : State) : s.advance.cfg = s.cfg := by
  rcases advance_cases s with ⟨-, e⟩ | ⟨-, e⟩
  · rw [e]
  · rw [e, State.settleIfOver_cfg, nextEvent_cfg]

/-- Settles O52, by the kind of move on the tape. -/
theorem configurationNeverChanges : Obligations.ConfigurationNeverChanges := by
  unfold Obligations.ConfigurationNeverChanges
  intro s t h
  rcases step_next h with ⟨-, rfl⟩ | ⟨rest, -, rfl⟩ | ⟨e, during, rest, i, u, -, -, hu, rfl⟩ |
    ⟨e, rest, i, u, -, -, hu, rfl⟩ | ⟨fb, index, value, rest, -, rfl⟩ | ⟨rest, -, rfl⟩
  · exact advance_cfg s
  · exact advance_cfg _
  · exact (exec_cfg hu :)
  · exact (startRequest_cfg hu :)
  · rfl
  · rfl

end Sys2Proof.Machine

/-! PROOF. Transfers of several bytes taken as several of one (`40_framer.md` R133): a receiver of either variant
reads the same from both. -/

namespace Sys2Proof.Machine
open Sys2Proof

@[simp] theorem flattenXfer_nil : flattenXfer [] = [] := rfl

@[simp] theorem flattenXfer_append (es fs : List Event) :
    flattenXfer (es ++ fs) = flattenXfer es ++ flattenXfer fs := List.flatMap_append

@[simp] theorem flattenXfer_xfer (bytes : List Byte) (es : List Event) :
    flattenXfer (.xfer bytes :: es) = bytes.map (fun b => .xfer [b]) ++ flattenXfer es := rfl

@[simp] theorem flattenXfer_setCS (l : CsLevel) (es : List Event) :
    flattenXfer (.setCS l :: es) = .setCS l :: flattenXfer es := rfl

@[simp] theorem flattenXfer_setDC (l : DcLevel) (es : List Event) :
    flattenXfer (.setDC l :: es) = .setDC l :: flattenXfer es := rfl

@[simp] theorem flattenXfer_setSDA (v : Bool) (es : List Event) :
    flattenXfer (.setSDA v :: es) = .setSDA v :: flattenXfer es := rfl

@[simp] theorem flattenXfer_setSCK (v : Bool) (es : List Event) :
    flattenXfer (.setSCK v :: es) = .setSCK v :: flattenXfer es := rfl

@[simp] theorem flattenXfer_delay (es : List Event) : flattenXfer (.delay :: es) = .delay :: flattenXfer es := rfl

/-- Variant A's receiver reads one-byte transfers by the level of `DC` (R96). -/
theorem receiveA_singles (dc : DcLevel) (bytes : List Byte) (es : List Event) :
    receiveA dc (bytes.map (fun b => .xfer [b]) ++ es) = bytes.map (itemA dc) ++ receiveA dc es := by
  induction bytes with
  | nil => rfl
  | cons b bytes ih => simp [receiveA, ih]

theorem receiveA_flattenXfer (dc : DcLevel) (es : List Event) : receiveA dc (flattenXfer es) = receiveA dc es := by
  induction es generalizing dc with
  | nil => rfl
  | cons e es ih =>
    cases e with
    | xfer bytes => simp [receiveA, receiveA_singles, ih]
    | setCS l => cases l <;> simp [receiveA, ih]
    | setDC | setSDA | setSCK | delay => simp [receiveA, ih]

/-- Variant B's receiver does not see transfers (R15). -/
theorem segments_singles (p : Pins) (cur : Option (Bool × List Bool)) (bytes : List Byte) (es : List Event) :
    segments p cur (bytes.map (fun b => .xfer [b]) ++ es) = segments p cur es := by
  induction bytes with
  | nil => rfl
  | cons b bytes ih => simp [segments, ih]

theorem segments_flattenXfer (p : Pins) (cur : Option (Bool × List Bool)) (es : List Event) :
    segments p cur (flattenXfer es) = segments p cur es := by
  induction es generalizing p cur with
  | nil => rfl
  | cons e es ih =>
    cases e with
    | xfer bytes => simp [segments, segments_singles, ih]
    | setCS l => cases l <;> simp [segments, ih]
    | setSCK v => cases v <;> simp [segments, ih]
    | setDC | setSDA | delay => simp [segments, ih]

theorem receive_flattenXfer (v : Variant) (p : Pins) (es : List Event) :
    receive v p (flattenXfer es) = receive v p es := by
  cases v
  · exact congrArg some (receiveA_flattenXfer p.dc es)
  · exact congrArg receiveSegments (segments_flattenXfer p _ es)

end Sys2Proof.Machine

/-! PROOF. The events of an operation are those of its logical trace, in both variants (`00_scope.md` R16). -/

namespace Sys2Proof.Machine
open Sys2Proof

/-! ## The bits variant B shifts (R135 to R137) -/

/-- Some bits, shifted one after the other. -/
def shiftBits (vs : List Bool) : List Act := vs.flatMap shiftBit

/-- The bits of some data bytes, each behind its mode bit (R98). -/
def dataBits (bytes : List Byte) : List Bool := bytes.flatMap fun b => true :: bitsMsbFirst b

theorem dataB_eq (bytes : List Byte) : dataB bytes = shiftBits (dataBits bytes) := by
  rw [shiftBits, dataBits, List.flatMap_assoc]
  rfl

theorem cmdActs_B {c : Config} (hv : c.variant = .B) (code : Byte) :
    cmdActs c code = shiftBits (bitsMsbFirst code) := by
  simp only [cmdActs, hv]
  rfl

theorem flattenXfer_shiftBits (vs : List Bool) :
    flattenXfer (events (shiftBits vs)) = events (shiftBits vs) := by
  induction vs with
  | nil => rfl
  | cons v vs ih => exact congrArg (events (shiftBit v) ++ ·) ih

/-! ## The function from traces to events, by sessions -/

theorem traceEvents_sendCmd (c : Config) (code : Byte) (more : List Logical) :
    traceEvents c (sendCmdTrace code ++ more) =
      .setCS .asserted :: events (cmdActs c code) ++ .setCS .idle :: traceEvents c more := rfl

theorem traceEvents_sendData (c : Config) (bytes : List Byte) (more : List Logical) :
    traceEvents c (sendDataTrace bytes ++ more) =
      events (beginStreamActs c) ++ traceEvents c (bytes.map .data ++ .closed :: more) := by
  have he : events (beginStreamActs c) = .setCS .asserted :: events (dataActs c []) := by
    unfold beginStreamActs dataActs
    cases c.variant <;> rfl
  rw [he]
  cases bytes <;> simp [sendDataTrace, traceEvents]

theorem traceEvents_opened (c : Config) : traceEvents c [.opened] = events (beginStreamActs c) := by
  unfold traceEvents beginStreamActs dataActs
  cases c.variant <;> rfl

theorem traceEvents_closed (c : Config) (more : List Logical) :
    traceEvents c (.closed :: more) = .setCS .idle :: traceEvents c more := rfl

theorem traceEvents_data_A {c : Config} (hv : c.variant = .A) (bytes : List Byte) (more : List Logical) :
    traceEvents c (bytes.map .data ++ more) = bytes.map (fun b => .xfer [b]) ++ traceEvents c more := by
  induction bytes with
  | nil => rfl
  | cons b bytes ih => simp [traceEvents, hv, ih]

theorem traceEvents_data_B {c : Config} (hv : c.variant = .B) (bytes : List Byte) (more : List Logical) :
    traceEvents c (bytes.map .data ++ more) = events (shiftBits (dataBits bytes)) ++ traceEvents c more := by
  rw [← dataB_eq]
  induction bytes with
  | nil => rfl
  | cons b bytes ih => simp [traceEvents, hv, ih, dataB]

/-! ## Acts and their traces -/

/-- The premise of R100 in variant B: raw bytes carry the mode bit. -/
abbrev modeBitOn (c : Config) : Prop := c.variant = .B → c.bRawModeBit = true

/-- The acts make the events of the trace, with transfers of one byte, whatever comes after them. -/
def emits (c : Config) (acts : List Act) (trace : List Logical) : Prop :=
  ∀ more, flattenXfer (events acts) ++ traceEvents c more = traceEvents c (trace ++ more)

theorem emits.flattened {c : Config} {acts : List Act} {trace : List Logical} (h : emits c acts trace) :
    flattenXfer (events acts) = traceEvents c trace := by
  simpa [traceEvents] using h []

theorem emits_nil (c : Config) : emits c [] [] := fun _ => rfl

theorem emits_append {c : Config} {as bs : List Act} {xs ys : List Logical} (ha : emits c as xs)
    (hb : emits c bs ys) : emits c (as ++ bs) (xs ++ ys) := by
  intro more
  rw [events_append, flattenXfer_append, List.append_assoc, hb more, ha, List.append_assoc]

theorem emits_endStream (c : Config) : emits c endStreamActs [.closed] := fun _ => rfl

theorem emits_sendCmd (c : Config) (code : Byte) : emits c (sendCmdActs c code) (sendCmdTrace code) := by
  intro more
  have hcmd : flattenXfer (events (cmdActs c code)) = events (cmdActs c code) := by
    cases hv : c.variant with
    | A => simp only [cmdActs, hv]; rfl
    | B => rw [cmdActs_B hv, flattenXfer_shiftBits]
  simp [traceEvents_sendCmd, sendCmdActs, Act.event, hcmd]

theorem rawWriteActs_B {c : Config} (hv : c.variant = .B) (hm : modeBitOn c) (bytes : List Byte) :
    rawWriteActs c bytes = shiftBits (dataBits bytes) := by
  rw [← dataB_eq]
  simp only [rawWriteActs, hv, hm hv]
  rfl

theorem flattenXfer_xferActs (bytes : List Byte) :
    flattenXfer (events (xferActs bytes)) = bytes.map fun b => .xfer [b] := by
  cases bytes <;> simp [xferActs, Act.event]

theorem emits_rawWrite {c : Config} (hm : modeBitOn c) (bytes : List Byte) :
    emits c (rawWriteActs c bytes) (bytes.map .data) := by
  intro more
  cases hv : c.variant with
  | A => simp [traceEvents_data_A hv, rawWriteActs, hv, flattenXfer_xferActs]
  | B => rw [traceEvents_data_B hv, rawWriteActs_B hv hm, flattenXfer_shiftBits]

theorem emits_rawWrites {c : Config} (hm : modeBitOn c) (writes : List (List Byte)) :
    emits c (writes.flatMap (rawWriteActs c)) (writes.flatten.map .data) := by
  induction writes with
  | nil => exact emits_nil c
  | cons bytes writes ih => simpa using emits_append (emits_rawWrite hm bytes) ih

theorem flattenXfer_beginStream (c : Config) :
    flattenXfer (events (beginStreamActs c)) = events (beginStreamActs c) := by
  unfold beginStreamActs
  cases c.variant <;> rfl

/-- A stream of raw writes is one data session (R146). -/
theorem emits_stream {c : Config} (hm : modeBitOn c) (writes : List (List Byte)) :
    emits c (beginStreamActs c ++ writes.flatMap (rawWriteActs c) ++ endStreamActs)
      (sendDataTrace writes.flatten) := by
  intro more
  have hbody := emits_append (emits_rawWrites hm writes) (emits_endStream c) more
  rw [List.append_assoc] at hbody ⊢
  rw [traceEvents_sendData, events_append, flattenXfer_append, flattenXfer_beginStream, List.append_assoc, hbody]
  simp

/-- `SEND_DATA` makes the events of a stream of one raw write (R137, R139 to R142). -/
theorem events_sendDataActs {c : Config} (hm : modeBitOn c) (bytes : List Byte) :
    events (sendDataActs c bytes) = events (beginStreamActs c ++ rawWriteActs c bytes ++ endStreamActs) := by
  cases hv : c.variant with
  | A => simp [sendDataActs, dataActs, beginStreamActs, rawWriteActs, hv, dataA, endStreamActs, Act.event]
  | B =>
    rw [rawWriteActs_B hv hm]
    simp [sendDataActs, dataActs, beginStreamActs, hv, dataB_eq, endStreamActs, Act.event]

theorem emits_sendData {c : Config} (hm : modeBitOn c) (bytes : List Byte) :
    emits c (sendDataActs c bytes) (sendDataTrace bytes) := by
  have h := emits_stream hm [bytes]
  intro more
  rw [events_sendDataActs hm]
  simpa using h more

theorem emits_setWindow {c : Config} (hm : modeBitOn c) (x0 y0 x1 y1 : Half) :
    emits c (setWindowActs c x0 y0 x1 y1) (setWindowTrace c x0 y0 x1 y1) :=
  emits_append (emits_append (emits_append (emits_sendCmd c _) (emits_sendData hm _)) (emits_sendCmd c _))
    (emits_sendData hm _)

theorem flattenXfer_beginFrame (c : Config) :
    flattenXfer (events (beginFrameActs c)) = traceEvents c (sendCmdTrace c.cmdRamwr ++ [.opened]) := by
  rw [beginFrameActs, events_append, flattenXfer_append, flattenXfer_beginStream, ← traceEvents_opened]
  exact emits_sendCmd c _ _

/-- A frame of raw writes, from the memory-write command to the close (R175). -/
theorem emits_frame {c : Config} (hm : modeBitOn c) (writes : List (List Byte)) :
    emits c (beginFrameActs c ++ writes.flatMap (rawWriteActs c) ++ endFrameActs)
      (sendCmdTrace c.cmdRamwr ++ sendDataTrace writes.flatten) := by
  have h := emits_append (emits_sendCmd c c.cmdRamwr) (emits_stream hm writes)
  simpa [beginFrameActs, endFrameActs] using h

/-- Every instruction but RENDER makes the events of its logical trace. -/
theorem flattenXfer_actsOf {c : Config} (hm : modeBitOn c) (i : Instr) (hi : ∀ fb, i ≠ .render fb) :
    flattenXfer (events (actsOf c i)) = traceEvents c (logicalTrace c [] i) := by
  cases i with
  | sendCmd | frameACmd | frameBCmd | cmdCaset | cmdRaset | cmdRamwr => exact (emits_sendCmd c _).flattened
  | sendData | frameAData | frameBData | windowParamBlock => exact (emits_sendData hm _).flattened
  | rawWrite | pixelPair => exact (emits_rawWrite hm _).flattened
  | setWindow => exact (emits_setWindow hm _ _ _ _).flattened
  | beginStream => exact (flattenXfer_beginStream c).trans (traceEvents_opened c).symm
  | beginFrame => exact flattenXfer_beginFrame c
  | endStream | endFrame => exact (emits_endStream c).flattened
  | reserved0 | reservedA | reservedB | reservedC | reservedD | reservedE | reservedF => rfl
  | render fb => exact absurd rfl (hi fb)

end Sys2Proof.Machine

/-! PROOF. A receiver of either variant reads a logical trace back from its events (`00_scope.md` R16,
`30_encoding.md` R100). -/

namespace Sys2Proof.Machine
open Sys2Proof

/-! ## Bits and bytes (R98, R100) -/

theorem byteOfBits_bitsMsbFirst (b : Byte) : byteOfBits (bitsMsbFirst b) = b := by
  revert b
  decide

theorem length_dataBits (bytes : List Byte) : (dataBits bytes).length = 9 * bytes.length := by
  induction bytes with
  | nil => rfl
  | cons b bytes ih => simp [dataBits, bitsMsbFirst] at ih ⊢; omega

theorem dataBytes_dataBits (bytes : List Byte) : dataBytes (dataBits bytes) = some bytes := by
  induction bytes with
  | nil => rfl
  | cons b bytes ih =>
    have hcons : dataBytes (dataBits (b :: bytes)) =
        (dataBytes (dataBits bytes)).map (byteOfBits (bitsMsbFirst b) :: ·) := rfl
    rw [hcons, ih, byteOfBits_bitsMsbFirst]
    rfl

/-- A whole session of the 8 bits of a byte is a command (R100). -/
theorem items_command (b : Byte) :
    Segment.items { opens := true, bits := bitsMsbFirst b, closes := true } = some [.cmd b] :=
  congrArg (fun x => some [Logical.cmd x]) (byteOfBits_bitsMsbFirst b)

/-- Bits of data frames are data, whole session or not: their number is never 8 (R100). -/
theorem items_data (opens closes : Bool) (bytes : List Byte) :
    Segment.items { opens := opens, bits := dataBits bytes, closes := closes } = some (bytes.map .data) := by
  have hlen : (dataBits bytes).length ≠ 8 := by rw [length_dataBits]; omega
  simp [Segment.items, hlen, dataBytes_dataBits]

/-! ## The data bytes of variant A -/

theorem receiveA_dataSingles (bytes : List Byte) (es : List Event) :
    receiveA .data (bytes.map (fun b => .xfer [b]) ++ es) = bytes.map .data ++ receiveA .data es :=
  receiveA_singles .data bytes es

/-! ## The sessions of variant B -/

theorem segments_shiftBit (p : Pins) (o : Bool) (bits : List Bool) (v : Bool) (es : List Event) :
    segments p (some (o, bits)) (events (shiftBit v) ++ es) =
      segments (p.applyAll (events (shiftBit v))) (some (o, bits ++ [v])) es := rfl

/-- Shifted bits are sampled into the session that is open (R135). -/
theorem segments_shiftBits (p : Pins) (o : Bool) (bits vs : List Bool) (es : List Event) :
    segments p (some (o, bits)) (events (shiftBits vs) ++ es) =
      segments (p.applyAll (events (shiftBits vs))) (some (o, bits ++ vs)) es := by
  induction vs generalizing p bits with
  | nil => simp [shiftBits]
  | cons v vs ih =>
    have hcons : shiftBits (v :: vs) = shiftBit v ++ shiftBits vs := rfl
    rw [hcons, events_append, List.append_assoc, segments_shiftBit, ih, applyAll_append, List.append_assoc]
    rfl

/-- The pin levels after a whole session of some bits. -/
def Pins.afterSession (p : Pins) (vs : List Bool) : Pins :=
  { ({ p with cs := .asserted } : Pins).applyAll (events (shiftBits vs)) with cs := .idle }

theorem segments_session (p : Pins) (vs : List Bool) (es : List Event) :
    segments p none (.setCS .asserted :: events (shiftBits vs) ++ .setCS .idle :: es) =
      { opens := true, bits := vs, closes := true } :: segments (p.afterSession vs) none es := by
  rw [List.cons_append, segments, segments_shiftBits]
  rfl

theorem receiveSegments_cons {s : Segment} {items : List Logical} (h : s.items = some items) (rest : List Segment) :
    receiveSegments (s :: rest) = (receiveSegments rest).map
      (((if s.opens then [.opened] else []) ++ items ++ (if s.closes then [.closed] else [])) ++ ·) := by
  rw [receiveSegments, h]
  cases receiveSegments rest <;> rfl

/-! ## Whole sessions -/

/-- With no session open, a receiver reads the events of the trace as the trace, and no session is open again. -/
def readsBack (c : Config) (trace : List Logical) : Prop :=
  ∀ p : Pins, p.cs = .idle → ∃ q : Pins, q.cs = .idle ∧ ∀ more,
    receive c.variant p (traceEvents c (trace ++ more)) =
      (receive c.variant q (traceEvents c more)).map (trace ++ ·)

theorem readsBack_append {c : Config} {xs ys : List Logical} (hx : readsBack c xs) (hy : readsBack c ys) :
    readsBack c (xs ++ ys) := by
  intro p hp
  obtain ⟨q, hq, hxq⟩ := hx p hp
  obtain ⟨r, hr, hyr⟩ := hy q hq
  refine ⟨r, hr, fun more => ?_⟩
  rw [List.append_assoc, hxq, hyr, Option.map_map]
  congr 1
  funext more
  simp

/-- Variant B's receiver and one whole session, by its bits. -/
theorem receive_session_B {vs : List Bool} {items : List Logical}
    (h : Segment.items { opens := true, bits := vs, closes := true } = some items) {p : Pins} (hp : p.cs = .idle) :
    ∃ q : Pins, q.cs = .idle ∧ ∀ es,
      receive .B p (.setCS .asserted :: events (shiftBits vs) ++ .setCS .idle :: es) =
        (receive .B q es).map (.opened :: items ++ [.closed] ++ ·) := by
  refine ⟨p.afterSession vs, rfl, fun es => ?_⟩
  simp only [receive, hp, reduceCtorEq, if_false]
  rw [segments_session, receiveSegments_cons h]
  rfl

theorem readsBack_sendCmd (c : Config) (code : Byte) : readsBack c (sendCmdTrace code) := by
  intro p hp
  cases hv : c.variant with
  | A =>
    refine ⟨{ p with dc := .cmd }, hp, fun more => ?_⟩
    rw [traceEvents_sendCmd, cmdActs, hv]
    rfl
  | B =>
    obtain ⟨q, hq, h⟩ := receive_session_B (items_command code) hp
    refine ⟨q, hq, fun more => ?_⟩
    rw [traceEvents_sendCmd, cmdActs_B hv]
    exact h _

theorem readsBack_sendData (c : Config) (bytes : List Byte) : readsBack c (sendDataTrace bytes) := by
  intro p hp
  cases hv : c.variant with
  | A =>
    refine ⟨{ p with dc := .data }, hp, fun more => ?_⟩
    have hbody := receiveA_dataSingles bytes (traceEvents c (.closed :: more))
    rw [traceEvents_sendData, traceEvents_data_A hv, beginStreamActs, hv]
    simpa [receive, receiveA, Act.event, sendDataTrace, traceEvents_closed] using hbody
  | B =>
    obtain ⟨q, hq, h⟩ := receive_session_B (items_data true true bytes) hp
    refine ⟨q, hq, fun more => ?_⟩
    rw [traceEvents_sendData, traceEvents_data_B hv]
    simpa [beginStreamActs, hv, Act.event, traceEvents_closed, sendDataTrace] using h (traceEvents c more)

theorem readsBack_setWindow (c : Config) (x0 y0 x1 y1 : Half) : readsBack c (setWindowTrace c x0 y0 x1 y1) :=
  readsBack_append (readsBack_append (readsBack_append (readsBack_sendCmd c _) (readsBack_sendData c _))
    (readsBack_sendCmd c _)) (readsBack_sendData c _)

/-! ## A trace from given pin levels -/

/-- From these pin levels a receiver reads the trace back from its events. -/
def readable (c : Config) (p : Pins) (trace : List Logical) : Prop :=
  receive c.variant p (traceEvents c trace) = some trace

/-- The pin levels of an open stream: `CS` asserted, in variant A the mode line at data (R140). -/
def streamOpen (c : Config) (p : Pins) : Prop := p.cs = .asserted ∧ (c.variant = .A → p.dc = .data)

theorem readsBack.append_readable {c : Config} {p : Pins} {trace more : List Logical} (h : readsBack c trace)
    (hp : p.cs = .idle) (hm : ∀ q : Pins, q.cs = .idle → readable c q more) : readable c p (trace ++ more) := by
  obtain ⟨q, hq, hread⟩ := h p hp
  rw [readable, hread, hm q hq]
  rfl

theorem readable_nil (c : Config) {p : Pins} (hp : p.cs = .idle) : readable c p [] := by
  unfold readable
  cases c.variant <;> simp [receive, traceEvents, receiveA, segments, receiveSegments, hp]

theorem readsBack.readable {c : Config} {p : Pins} {trace : List Logical} (h : readsBack c trace)
    (hp : p.cs = .idle) : readable c p trace := by
  simpa using h.append_readable hp fun q hq => readable_nil c hq

theorem readable_opened (c : Config) {p : Pins} (hp : p.cs = .idle) : readable c p [.opened] := by
  unfold readable
  rw [traceEvents_opened]
  cases hv : c.variant with
  | A => simp [receive, beginStreamActs, hv, Act.event, receiveA]
  | B =>
    have hitems := receiveSegments_cons (items_data true false []) []
    simp only [receive, hp, beginStreamActs, hv]
    exact hitems

theorem readable_closed {c : Config} {p : Pins} (hp : streamOpen c p) : readable c p [.closed] := by
  unfold readable
  cases hv : c.variant with
  | A => simp [receive, traceEvents, receiveA]
  | B =>
    have hitems := receiveSegments_cons (items_data false true []) []
    simp only [receive, hp.1, if_true]
    exact hitems

theorem readable_data {c : Config} {p : Pins} (hp : streamOpen c p) (bytes : List Byte) :
    readable c p (bytes.map .data) := by
  unfold readable
  cases hv : c.variant with
  | A =>
    rw [← List.append_nil (bytes.map Logical.data), traceEvents_data_A hv, receive, hp.2 hv, receiveA_dataSingles]
    rfl
  | B =>
    have hitems := receiveSegments_cons (items_data false false bytes) []
    rw [← List.append_nil (bytes.map Logical.data), traceEvents_data_B hv, receive, if_pos hp.1, segments_shiftBits]
    simpa [traceEvents, segments, receiveSegments] using hitems

/-- Every instruction's trace is read back, from the pin levels its operation starts with. -/
theorem readable_logicalTrace {c : Config} {p : Pins} {i : Instr} {op : Op} (ho : opOf i = some op)
    (hi : ∀ fb, i ≠ .render fb) (hclosed : requiredSess op = .closed → p.cs = .idle)
    (hstream : requiredSess op = .stream → streamOpen c p) : readable c p (logicalTrace c [] i) := by
  cases i with
  | render fb => exact absurd rfl (hi fb)
  | reserved0 | reservedA | reservedB | reservedC | reservedD | reservedE | reservedF => cases ho
  | sendCmd | frameACmd | frameBCmd | cmdCaset | cmdRaset | cmdRamwr =>
    cases ho
    exact (readsBack_sendCmd c _).readable (hclosed rfl)
  | sendData | frameAData | frameBData | windowParamBlock =>
    cases ho
    exact (readsBack_sendData c _).readable (hclosed rfl)
  | setWindow =>
    cases ho
    exact (readsBack_setWindow c _ _ _ _).readable (hclosed rfl)
  | beginStream =>
    cases ho
    exact readable_opened c (hclosed rfl)
  | beginFrame =>
    cases ho
    exact (readsBack_sendCmd c _).append_readable (hclosed rfl) fun q hq => readable_opened c hq
  | rawWrite | pixelPair =>
    cases ho
    exact readable_data (hstream rfl) _
  | endStream | endFrame =>
    cases ho
    exact readable_closed (hstream rfl)

end Sys2Proof.Machine

/-! PROOF. The events of what completes without a fault: an instruction, requests one after the other, a RENDER on a
stable buffer. -/

namespace Sys2Proof.Machine
open Sys2Proof Sys2Proof.Spec

/-! ## Instructions without a fault -/

/-- An instruction that is no RENDER and ends without a fault has made the acts of its operation. -/
theorem exec_completed {i : Instr} {s t : State} (hi : ∀ fb, i ≠ .render fb) (h : exec i s = .next t)
    (ht : t.fault = none) :
    ∃ op, opOf i = some op ∧ s.sess = requiredSess op ∧ t = (s.run (actsOf s.cfg i)).complete := by
  obtain ⟨-, ⟨f, rfl⟩ | ⟨-, op, ho, -, -, hs, e⟩ | ⟨-, fb, rfl, -⟩⟩ := exec_next h
  · simp at ht
  · exact ⟨op, ho, hs, e⟩
  · exact absurd rfl (hi fb)

/-- `runAll` of a request and more, where it answers a next state. -/
theorem runAll_cons_next {i : Instr} {is : List Instr} {s t : State} (h : runAll (i :: is) s = .next t) :
    ∃ u, exec i s = .next u ∧ runAll is u = .next t := by
  unfold runAll at h
  split at h
  · exact ⟨_, ‹_›, h⟩
  · cases h
  · cases h

/-- Requests that end without a fault started without one: FAULT stops the next (R241). -/
theorem runAll_fault {is : List Instr} {s t : State} (h : runAll is s = .next t) (ht : t.fault = none) :
    s.fault = none := by
  cases is with
  | nil =>
    cases h
    exact ht
  | cons i is =>
    obtain ⟨u, hu, -⟩ := runAll_cons_next h
    exact (exec_next hu).1

/-- Requests that end without a fault have made the events of all their acts, in order. -/
theorem runAll_bus {is : List Instr} {s t : State} (hi : ∀ i ∈ is, ∀ fb, i ≠ .render fb)
    (h : runAll is s = .next t) (ht : t.fault = none) :
    t.bus = s.bus ++ events (is.flatMap (actsOf s.cfg)) := by
  induction is generalizing s with
  | nil =>
    cases h
    simp
  | cons i is ih =>
    obtain ⟨u, hu, hrest⟩ := runAll_cons_next h
    obtain ⟨op, -, -, rfl⟩ := exec_completed (hi i (by simp)) hu (runAll_fault hrest ht)
    have hbus := ih (fun j hj => hi j (by simp [hj])) hrest
    simpa using hbus

/-! ## The bytes of a row are those of the frame function (R209) -/

theorem pixelBytes_colour (b : Bool) : pixelBytes (colour b) = [colourByte b, colourByte b] := by
  rw [pixelBytes, hi8_colour, lo8_colour]

theorem pixelBytes_colorOff : pixelBytes colorOff = [0x00#8, 0x00#8] := by decide

theorem barRow_eq (c : Config) : barRow c = (List.range c.wDst).flatMap fun _ => [0x00#8, 0x00#8] := by
  have hpairs : ∀ n, List.replicate (2 * n) 0x00#8 = (List.range n).flatMap fun _ => [0x00#8, 0x00#8] := by
    intro n
    induction n with
    | zero => rfl
    | succ n ih => rw [List.range_succ, List.flatMap_append, ← ih, Nat.mul_succ, List.replicate_add]; rfl
  exact hpairs c.wDst

theorem inBand_iff (vp : Viewport) (y : Nat) : inBand vp y = true ↔ vp.yPad ≤ y ∧ y < vp.yPad + vp.actH :=
  decide_eq_true_iff

/-- A row whose active pixels show the image is the row of the frame function. -/
theorem rowOf_eq_rowBytes (c : Config) (image : Nat → Nat → Bool) (bit : Nat → Nat → Bool) (y : Nat)
    (hbit : inBand (viewport c) y = true → ∀ x, x < (viewport c).actW →
      bit y x = image (srcCol c (viewport c) x) (srcRow c (viewport c) y)) :
    rowOf c (viewport c) bit y = rowBytes c image y := by
  unfold rowOf rowBytes
  split
  next hb =>
    obtain ⟨hlo, hhi⟩ := (inBand_iff _ _).1 hb
    refine List.flatMap_congr fun x _ => ?_
    by_cases hx : (viewport c).xPad ≤ x ∧ x < (viewport c).xPad + (viewport c).actW
    · rw [if_pos hx, hbit hb _ (by omega), pixel, if_pos ⟨hlo, hhi, hx⟩, pixelBytes_colour]
      rfl
    · rw [if_neg hx, pixel, if_neg fun h => hx h.2.2, pixelBytes_colorOff]
  next hb =>
    rw [barRow_eq]
    refine List.flatMap_congr fun x _ => ?_
    rw [pixel, if_neg fun h => hb ((inBand_iff _ _).2 ⟨h.1, h.2.1⟩), pixelBytes_colorOff]

/-! ## Samples of a stable buffer (R64, R67) -/

/-- With nothing in flight, a sample is the source bit. -/
theorem sampleBit_of_stable {s : State} {b : Bool} (hf : s.inFlight = [])
    (h : sourceBit s.cfg s.source s.fb s.ctr.srcX s.ctr.srcY = some b) : s.sampleBit = .ok b := by
  obtain ⟨v, hv, rfl⟩ := Option.map_eq_some_iff.1 h
  simp [State.sampleBit, State.memRead, State.newContents, hf, hv]

/-- The source column of an active column is inside the source (R198). -/
theorem srcCol_lt {c : Config} {vp : Viewport} (hc : legal c) {x : Nat} (hx : x < vp.actW) :
    srcCol c vp x < c.wSrc := by
  have hw : 1 ≤ c.wSrc := (legal_iff c).1 hc .wSrcMin
  exact Nat.div_lt_of_lt_mul (Nat.mul_lt_mul_of_pos_right hx hw)

/-- The source row of a row inside the band is inside the source (R196). -/
theorem srcRow_lt {c : Config} {vp : Viewport} (hc : legal c) {y : Nat} (hy : inBand vp y = true) :
    srcRow c vp y < c.hSrc := by
  have hh : 1 ≤ c.hSrc := (legal_iff c).1 hc .hSrcMin
  obtain ⟨hlo, hhi⟩ := (inBand_iff vp y).1 hy
  exact Nat.div_lt_of_lt_mul (Nat.mul_lt_mul_of_pos_right (by omega) hh)

/-- The active pixels of a RENDER on a renderable buffer show the image. -/
theorem pixelSample_atRows {s : State} {fb : Handle} {image : Nat → Nat → Bool} (hr : renderable s fb image)
    {x y : Nat} (hy : inBand (viewport s.cfg) y = true) (hx : x < (viewport s.cfg).actW) :
    (s.atRows fb).pixelSample y x =
      .ok (image (srcCol s.cfg (viewport s.cfg) x) (srcRow s.cfg (viewport s.cfg) y)) := by
  obtain ⟨⟨hc, -, -⟩, -, hf, hs⟩ := hr
  exact sampleBit_of_stable hf (hs _ _ (srcCol_lt hc hx) (srcRow_lt hc hy))

/-! ## RENDER -/

/-- A RENDER on a renderable buffer that ends without a fault has sent the rows of the image (R203, R209). -/
theorem render_bus {s t : State} {fb : Handle} {image : Nat → Nat → Bool} (hr : renderable s fb image)
    (h : exec (.render fb) s = .next t) (ht : t.fault = none) :
    t.bus = s.bus ++ events (prologueActs s.cfg ++
      ((List.range s.cfg.hDst).map (rowBytes s.cfg image)).flatMap (rawWriteActs s.cfg) ++ endFrameActs) := by
  obtain ⟨-, ⟨f, rfl⟩ | ⟨-, op, ho, hne, -⟩ | ⟨-, _, hfb, -, -, hout⟩⟩ := exec_next h
  · simp at ht
  · exact absurd (Option.some.inj ho).symm hne
  · cases hfb
    rcases render_cases fb s (viewport_band_le s.cfg) with
      ⟨bit, u, hbit, hu, e⟩ | ⟨bit, y, x, w, u, -, -, -, -, -, -, hu, -, -, e⟩
    · obtain rfl := Host.Outcome.next.inj (e.symm.trans hout)
      have hrows : rowsActs s.cfg (viewport s.cfg) bit (List.range s.cfg.hDst) =
          ((List.range s.cfg.hDst).map (rowBytes s.cfg image)).flatMap (rawWriteActs s.cfg) := by
        rw [rowsActs, List.flatMap_map]
        refine List.flatMap_congr fun y hy => congrArg _ (rowOf_eq_rowBytes _ _ _ _ fun hb x hx => ?_)
        have hsample := hbit y (List.mem_range.1 hy) hb x hx
        exact Except.ok.inj (hsample.symm.trans (pixelSample_atRows hr hb hx))
      have hbus : u.bus = (s.bus ++ events (prologueActs s.cfg)) ++
          events (rowsActs s.cfg (viewport s.cfg) bit (List.range s.cfg.hDst)) := by
        rw [hu]
        rfl
      simp [hbus, hrows]
    · obtain rfl := Host.Outcome.next.inj (e.symm.trans hout)
      simp at ht

end Sys2Proof.Machine

/-! PROOF. A receiver reads the same logical trace over either transport (`00_scope.md` R16, `40_framer.md` R147). -/

namespace Sys2Proof.Machine
open Sys2Proof Sys2Proof.Spec

/-! ## The pins between two operations (R40) -/

theorem cs_idle_of_closed {s : State} (ho : orderly s) (hf : s.fault = none) (hs : s.sess = .closed) :
    s.pins.cs = .idle := by
  obtain ⟨hcs, -⟩ := ho.2.2 hf
  cases h : s.pins.cs with
  | idle => rfl
  | asserted => exact absurd hs (hcs.1 h)

theorem streamOpen_of_stream {s : State} (hr : ready s) (ho : orderly s) (hs : s.sess = .stream) :
    streamOpen s.cfg s.pins := by
  obtain ⟨-, hf, hb⟩ := hr
  obtain ⟨-, hseq, hbus⟩ := ho
  obtain ⟨hcs, b, -, hdc, hplace⟩ := hbus hf
  have hidle : s.seq = .idle := by
    by_contra hne
    rw [hseq.2 hne] at hb
    cases hb
  rw [inPlace, hidle] at hplace
  obtain ⟨-, rfl⟩ := hplace
  exact ⟨hcs.2 (by simp [hs]), fun hv => hdc .data (by simp [hs, hv, betweenOps])⟩

/-! ## Traces of sessions -/

/-- The events of a frame drawn row by row are those of its trace (R175, R203). -/
theorem emits_render {c : Config} (hm : modeBitOn c) (rows : List (List Byte)) :
    emits c (prologueActs c ++ rows.flatMap (rawWriteActs c) ++ endFrameActs)
      (frameTrace c (windowX0 c) (windowY0 c) (windowX1 c) (windowY1 c) rows.flatten) := by
  have h := emits_append (emits_setWindow hm (windowX0 c) (windowY0 c) (windowX1 c) (windowY1 c))
    (emits_frame hm rows)
  simpa [prologueActs, frameTrace] using h

theorem readsBack_frame (c : Config) (x0 y0 x1 y1 : Half) (bytes : List Byte) :
    readsBack c (frameTrace c x0 y0 x1 y1 bytes) :=
  readsBack_append (readsBack_append (readsBack_setWindow c _ _ _ _) (readsBack_sendCmd c _)) (readsBack_sendData c _)

/-- The events carry the trace: a receiver reads it from them, and they are its events (R16). -/
theorem carries_of_flattened {c : Config} {p : Pins} {es : List Event} {trace : List Logical}
    (he : flattenXfer es = traceEvents c trace) (hr : readable c p trace) :
    receive c.variant p es = some trace ∧ flattenXfer es = traceEvents c trace :=
  ⟨by rw [← receive_flattenXfer, he]; exact hr, he⟩

/-- Settles O49: the flattened events are those of the trace, and a receiver reads a trace back from its events. -/
theorem bothTransportsCarryTheTrace : Obligations.BothTransportsCarryTheTrace := by
  unfold Obligations.BothTransportsCarryTheTrace
  intro s t es hready horderly hm ht hbus
  have closed : s.sess = .closed → s.pins.cs = .idle := cs_idle_of_closed horderly hready.2.1
  refine ⟨fun i hi h => ?_, fun fb image hr h => ?_, fun writes hs h => ?_⟩
  · obtain ⟨op, hop, hs, rfl⟩ := exec_completed hi h ht
    obtain rfl : events (actsOf s.cfg i) = es := List.append_cancel_left hbus
    exact carries_of_flattened (flattenXfer_actsOf hm i hi) (readable_logicalTrace hop hi
      (fun hq => closed (hs.trans hq)) (fun hq => streamOpen_of_stream hready horderly (hs.trans hq)))
  · obtain rfl := List.append_cancel_left (hbus.symm.trans (render_bus hr h ht))
    exact carries_of_flattened (emits_render hm _).flattened
      ((readsBack_frame s.cfg _ _ _ _ _).readable (closed hr.2.1))
  · have hacts := runAll_bus (by rintro i hi fb rfl; simp at hi) h ht
    obtain rfl := List.append_cancel_left (hbus.symm.trans hacts)
    have hframe := (emits_frame hm writes).flattened
    refine carries_of_flattened ?_
      ((readsBack_append (readsBack_sendCmd s.cfg _) (readsBack_sendData s.cfg _)).readable (closed hs))
    simpa [actsOf, List.flatMap_map] using hframe

end Sys2Proof.Machine

/-! PROOF. Where the acts of an operation take the session and the bus history (`10_state.md` R40): every operation
leads from a place between two operations to another. -/

namespace Sys2Proof.Machine
open Sys2Proof Sys2Proof.Spec

/-! ## Acts and places -/

/-- An act as the operations make them: it opens a real session, closes one, or leaves `CS` alone (R131). -/
def Act.proper : Act → Bool
  | .openS kind => decide (kind ≠ .closed)
  | .closeS => true
  | .drive (.setCS _) => false
  | .drive (.setDC _) | .drive (.xfer _) | .drive (.setSDA _) | .drive (.setSCK _) | .drive .delay => true

/-- Where a history stands: what it says of the open session, and `SESS`. -/
abbrev Place := BusScan × Sess

/-- The acts lead from one place to the other, every event allowed by R40. -/
def leads (v : Variant) (x : Place) (acts : List Act) (y : Place) : Prop :=
  acts.all Act.proper = true ∧ scan v x.1 (events acts) = some y.1 ∧ sessAfter x.2 acts = y.2

/-- The place between two operations. -/
def between (v : Variant) (q : Sess) : Place := (betweenOps v q, q)

/-- A place inside a session, with the mode line driven to `d`. -/
def inside (d : Option DcLevel) (q : Sess) : Place := ({ asserted := true, driven := d }, q)

/-- What an open stream has driven the mode line to (R140). -/
def streamMode : Variant → Option DcLevel
  | .A => some .data
  | .B => none

theorem between_stream (v : Variant) : between v .stream = inside (streamMode v) .stream := by cases v <;> rfl

/-! ## Histories in parts -/

theorem scan_append (v : Variant) (b : BusScan) (es fs : List Event) :
    scan v b (es ++ fs) = (scan v b es).bind fun b => scan v b fs := by
  induction es generalizing b with
  | nil => rfl
  | cons e es ih =>
    simp only [List.cons_append, scan]
    cases scanEvent v b e with
    | none => rfl
    | some b' => exact ih b'

theorem scan_singleton (v : Variant) (b : BusScan) (e : Event) : scan v b [e] = scanEvent v b e := by
  simp only [scan]
  cases scanEvent v b e <;> rfl

theorem leads_nil (v : Variant) (x : Place) : leads v x [] x := ⟨rfl, rfl, rfl⟩

theorem leads_append {v : Variant} {x y z : Place} {as bs : List Act} (ha : leads v x as y) (hb : leads v y bs z) :
    leads v x (as ++ bs) z := by
  obtain ⟨hpa, hsa, hqa⟩ := ha
  obtain ⟨hpb, hsb, hqb⟩ := hb
  refine ⟨by simp [hpa, hpb], ?_, by rw [sessAfter_append, hqa, hqb]⟩
  rw [events_append, scan_append, hsa]
  exact hsb

/-- Blocks of acts that each come back to a place come back to it together. -/
theorem leads_flatMap {α : Type} {v : Variant} {x : Place} (l : List α) {f : α → List Act}
    (h : ∀ a, leads v x (f a) x) : leads v x (l.flatMap f) x := by
  induction l with
  | nil => exact leads_nil v x
  | cons a l ih => exact leads_append (h a) ih

/-- No act of these leaves the place. -/
def stays (v : Variant) (x : Place) (acts : List Act) : Prop := ∀ a ∈ acts, leads v x [a] x

theorem stays_append {v : Variant} {x : Place} {as bs : List Act} (ha : stays v x as) (hb : stays v x bs) :
    stays v x (as ++ bs) := List.forall_mem_append.2 ⟨ha, hb⟩

theorem stays_flatMap {α : Type} {v : Variant} {x : Place} (l : List α) {f : α → List Act}
    (h : ∀ a, stays v x (f a)) : stays v x (l.flatMap f) := by
  intro e he
  obtain ⟨a, -, he⟩ := List.mem_flatMap.1 he
  exact h a e he

theorem stays.leads {v : Variant} {x : Place} {acts : List Act} (h : stays v x acts) : leads v x acts x := by
  induction acts with
  | nil => exact leads_nil v x
  | cons a acts ih => exact leads_append (h a (by simp)) (ih fun e he => h e (by simp [he]))

/-- Acts that lead somewhere can be cut anywhere. -/
theorem leads_split {v : Variant} {x z : Place} {as bs : List Act} (h : leads v x (as ++ bs) z) :
    ∃ y, leads v x as y ∧ leads v y bs z := by
  obtain ⟨hp, hs, hq⟩ := h
  rw [List.all_append, Bool.and_eq_true] at hp
  rw [events_append, scan_append] at hs
  obtain ⟨b, hb, hs⟩ := Option.bind_eq_some_iff.1 hs
  exact ⟨(b, sessAfter x.2 as), ⟨hp.1, hb, rfl⟩, hp.2, hs, by rwa [sessAfter_append] at hq⟩

theorem leads_unique {v : Variant} {x y z : Place} {as : List Act} (hy : leads v x as y) (hz : leads v x as z) :
    y = z := by
  obtain ⟨-, hsy, hqy⟩ := hy
  obtain ⟨-, hsz, hqz⟩ := hz
  exact Prod.ext (Option.some.inj (hsy.symm.trans hsz)) (hqy.symm.trans hqz)

/-- The next act of an operation that has made some. -/
theorem leads_take_succ {v : Variant} {x y z : Place} {acts : List Act} {k : Nat} {a : Act}
    (h : leads v x acts z) (hk : leads v x (acts.take k) y) (ha : acts[k]? = some a) :
    ∃ y', leads v y [a] y' ∧ leads v x (acts.take (k + 1)) y' := by
  have hsplit : acts.take (k + 1) = acts.take k ++ [a] := by rw [List.take_add_one, ha]; rfl
  rw [← List.take_append_drop (k + 1) acts] at h
  obtain ⟨y', hy', -⟩ := leads_split h
  have hy'' := hy'
  rw [hsplit] at hy''
  obtain ⟨w, hw, hlast⟩ := leads_split hy''
  rw [leads_unique hk hw]
  exact ⟨y', hlast, hy'⟩

/-! ## The acts of the operations -/

theorem leads_open (v : Variant) {kind : Sess} (h : kind ≠ .closed) :
    leads v (between v .closed) [.openS kind] (inside none kind) :=
  ⟨by simp [Act.proper, h], rfl, rfl⟩

theorem leads_close (v : Variant) (d : Option DcLevel) (q : Sess) :
    leads v (inside d q) [.closeS] (between v .closed) := ⟨rfl, rfl, rfl⟩

theorem stays_shiftBit (d : Option DcLevel) (q : Sess) (v : Bool) : stays .B (inside d q) (shiftBit v) := by
  intro a ha
  simp only [shiftBit, List.mem_cons, List.not_mem_nil, or_false] at ha
  rcases ha with rfl | rfl | rfl | rfl | rfl <;> exact ⟨rfl, rfl, rfl⟩

theorem stays_shiftByte (d : Option DcLevel) (q : Sess) (b : Byte) : stays .B (inside d q) (shiftByte b) :=
  stays_flatMap _ (stays_shiftBit d q)

theorem stays_xferActs (l : DcLevel) (q : Sess) (bytes : List Byte) :
    stays .A (inside (some l) q) (xferActs bytes) := by
  cases bytes with
  | nil => exact nofun
  | cons b bytes =>
    intro a ha
    obtain rfl := List.mem_singleton.1 ha
    exact ⟨rfl, rfl, rfl⟩

theorem leads_cmdActs (c : Config) (q : Sess) (code : Byte) :
    ∃ d, leads c.variant (inside none q) (cmdActs c code) (inside d q) := by
  unfold cmdActs
  cases c.variant with
  | A => exact ⟨some .cmd, rfl, rfl, rfl⟩
  | B => exact ⟨none, (stays_shiftByte none q code).leads⟩

theorem leads_dataActs (c : Config) (q : Sess) (bytes : List Byte) :
    leads c.variant (inside none q) (dataActs c bytes) (inside (streamMode c.variant) q) := by
  unfold dataActs
  cases c.variant with
  | A =>
    have hmode : leads .A (inside none q) [.drive (.setDC .data)] (inside (some .data) q) := ⟨rfl, rfl, rfl⟩
    exact leads_append hmode (stays_xferActs .data q bytes).leads
  | B =>
    exact (stays_flatMap bytes fun b => stays_append (stays_shiftBit none q true) (stays_shiftByte none q b)).leads

theorem leads_sendCmdActs (c : Config) (code : Byte) :
    leads c.variant (between c.variant .closed) (sendCmdActs c code) (between c.variant .closed) := by
  obtain ⟨d, hcmd⟩ := leads_cmdActs c .single code
  exact leads_append (leads_append (leads_open _ (by decide)) hcmd) (leads_close _ d .single)

theorem leads_sendDataActs (c : Config) (bytes : List Byte) :
    leads c.variant (between c.variant .closed) (sendDataActs c bytes) (between c.variant .closed) :=
  leads_append (leads_append (leads_open _ (by decide)) (leads_dataActs c .single bytes)) (leads_close _ _ .single)

theorem leads_beginStreamActs (c : Config) :
    leads c.variant (between c.variant .closed) (beginStreamActs c) (between c.variant .stream) := by
  unfold beginStreamActs
  cases c.variant <;> exact ⟨rfl, rfl, rfl⟩

/-- No act of a `RAW_WRITE` leaves the place of an open stream. -/
theorem stays_rawWriteActs (c : Config) (bytes : List Byte) :
    stays c.variant (between c.variant .stream) (rawWriteActs c bytes) := by
  rw [between_stream]
  unfold rawWriteActs
  cases c.variant with
  | A => exact stays_xferActs .data .stream bytes
  | B =>
    have hmode : ∀ modeBit : Bool, stays .B (inside none .stream) (if modeBit then shiftBit true else [])
      | true => stays_shiftBit none .stream true
      | false => nofun
    exact stays_flatMap bytes fun b => stays_append (hmode c.bRawModeBit) (stays_shiftByte none .stream b)

theorem leads_rawWriteActs (c : Config) (bytes : List Byte) :
    leads c.variant (between c.variant .stream) (rawWriteActs c bytes) (between c.variant .stream) :=
  (stays_rawWriteActs c bytes).leads

theorem leads_endStreamActs (v : Variant) : leads v (between v .stream) endStreamActs (between v .closed) := by
  rw [between_stream]
  exact leads_close v _ .stream

theorem leads_setWindowActs (c : Config) (x0 y0 x1 y1 : Half) :
    leads c.variant (between c.variant .closed) (setWindowActs c x0 y0 x1 y1) (between c.variant .closed) :=
  leads_append (leads_append (leads_append (leads_sendCmdActs c _) (leads_sendDataActs c _)) (leads_sendCmdActs c _))
    (leads_sendDataActs c _)

theorem leads_beginFrameActs (c : Config) :
    leads c.variant (between c.variant .closed) (beginFrameActs c) (between c.variant .stream) :=
  leads_append (leads_sendCmdActs c _) (leads_beginStreamActs c)

theorem leads_prologueActs (c : Config) :
    leads c.variant (between c.variant .closed) (prologueActs c) (between c.variant .stream) :=
  leads_append (leads_setWindowActs c _ _ _ _) (leads_beginFrameActs c)

theorem leads_rowsActs (c : Config) (vp : Viewport) (bit : Nat → Nat → Bool) (ys : List Nat) :
    leads c.variant (between c.variant .stream) (rowsActs c vp bit ys) (between c.variant .stream) :=
  leads_flatMap ys fun _ => leads_rawWriteActs c _

/-- Every operation but RENDER leads from the `SESS` it requires to the `SESS` it leaves (R132). -/
theorem leads_actsOf (c : Config) {i : Instr} {op : Op} (ho : opOf i = some op) (hne : op ≠ .render) :
    leads c.variant (between c.variant (requiredSess op)) (actsOf c i) (between c.variant (finalSess op)) := by
  cases i with
  | reserved0 | reservedA | reservedB | reservedC | reservedD | reservedE | reservedF => cases ho
  | render fb => exact absurd (Option.some.inj ho).symm hne
  | sendCmd | frameACmd | frameBCmd | cmdCaset | cmdRaset | cmdRamwr => cases ho; exact leads_sendCmdActs c _
  | sendData | frameAData | frameBData | windowParamBlock => cases ho; exact leads_sendDataActs c _
  | rawWrite | pixelPair => cases ho; exact leads_rawWriteActs c _
  | beginStream => cases ho; exact leads_beginStreamActs c
  | endStream | endFrame => cases ho; exact leads_endStreamActs _
  | setWindow => cases ho; exact leads_setWindowActs c _ _ _ _
  | beginFrame => cases ho; exact leads_beginFrameActs c

theorem finalSess_ne_single (op : Op) : finalSess op ≠ .single := by cases op <;> decide

/-- RENDER and the reserved codes have no acts of their own. -/
theorem actsOf_eq_nil (c : Config) {i : Instr} (h : ∀ op, opOf i = some op → op = .render) : actsOf c i = [] := by
  cases i with
  | render | reserved0 | reservedA | reservedB | reservedC | reservedD | reservedE | reservedF => rfl
  | _ => exact absurd (h _ rfl) (by decide)

theorem actsOf_proper (c : Config) (i : Instr) : (actsOf c i).all Act.proper = true := by
  by_cases h : ∀ op, opOf i = some op → op = .render
  · rw [actsOf_eq_nil c h]
    rfl
  · obtain ⟨op, ho, hne⟩ : ∃ op, opOf i = some op ∧ op ≠ .render := by simpa using h
    exact (leads_actsOf c ho hne).1

/-! ## What an instruction that ends without a fault has done -/

/-- An instruction that ends without a fault has made acts that lead from the place it found to the place its operation
leaves; but for them only the renderer's registers can have changed. -/
theorem exec_leads {i : Instr} {s t : State} (h : exec i s = .next t) (ht : t.fault = none) :
    s.busy = false ∧ legal s.cfg ∧ ∃ op acts, s.sess = requiredSess op ∧
      leads s.cfg.variant (between s.cfg.variant s.sess) acts (between s.cfg.variant (finalSess op)) ∧
      sameButRenderer t (s.run acts).complete := by
  obtain ⟨-, ⟨f, rfl⟩ | ⟨hc, op, ho, hne, hb, hs, rfl⟩ | ⟨hc, fb, rfl, hb, hs, hr⟩⟩ := exec_next h
  · simp at ht
  · exact ⟨hb, hc, op, _, hs, hs ▸ leads_actsOf s.cfg ho hne, rfl⟩
  · rcases render_cases fb s (viewport_band_le s.cfg) with
      ⟨bit, u, -, hu, e⟩ | ⟨bit, y, x, w, u, -, -, -, -, -, -, hu, -, -, e⟩
    · obtain rfl := Host.Outcome.next.inj (e.symm.trans hr)
      refine ⟨hb, hc, .render,
        prologueActs s.cfg ++ rowsActs s.cfg (viewport s.cfg) bit (List.range s.cfg.hDst) ++ endFrameActs, hs,
        hs ▸ leads_append (leads_append (leads_prologueActs _) (leads_rowsActs _ _ _ _)) (leads_endStreamActs _), ?_⟩
      rw [sameButRenderer, run_append, run_append, hu]
      rfl
    · obtain rfl := Host.Outcome.next.inj (e.symm.trans hr)
      simp at ht

end Sys2Proof.Machine

/-! PROOF. The session invariants at the grain of an instruction, and after reset (`10_state.md` R40). -/

namespace Sys2Proof.Machine
open Sys2Proof Sys2Proof.Spec

/-! ## `CS`, the history and the mode line after some acts -/

/-- `CS` agrees with `SESS` (R40 I-a). -/
def csAgrees (p : Pins) (q : Sess) : Prop := p.cs = .asserted ↔ q ≠ .closed

/-- `DC` is at the level the history last drove it to in the open session. -/
def modeAgrees (p : Pins) (b : BusScan) : Prop := ∀ l, b.driven = some l → p.dc = l

/-- The pins agree with `SESS` and with a history that R40 allows and that says `b`. -/
def standsAt (s : State) (b : BusScan) : Prop :=
  csAgrees s.pins s.sess ∧ scan s.cfg.variant BusScan.start s.bus = some b ∧ modeAgrees s.pins b

theorem csAgrees_act {p : Pins} {q : Sess} {a : Act} (ha : a.proper = true) (h : csAgrees p q) :
    csAgrees (p.apply a.event) (a.sess q) := by
  cases a with
  | openS kind => simpa [csAgrees, Act.event, Act.sess, Pins.apply, Act.proper] using ha
  | closeS => simp [csAgrees, Act.event, Act.sess, Pins.apply]
  | drive e =>
    cases e with
    | setCS l => cases ha
    | setDC | xfer | setSDA | setSCK | delay => exact h

theorem csAgrees_run {acts : List Act} {s : State} (ha : acts.all Act.proper = true)
    (h : csAgrees s.pins s.sess) : csAgrees (s.run acts).pins (s.run acts).sess := by
  induction acts generalizing s with
  | nil => exact h
  | cons a acts ih =>
    rw [List.all_cons, Bool.and_eq_true] at ha
    rw [run_cons]
    exact ih ha.2 (csAgrees_act ha.1 h)

/-- Everything an allowed event can do to what the history says: `CS` starts the mode line anew, variant A drives it,
and the other events leave it and `DC` alone. -/
theorem scanEvent_cases {v : Variant} {b b' : BusScan} {e : Event} (h : scanEvent v b e = some b') :
    (∃ l, e = .setCS l ∧ b'.driven = none) ∨
    (∃ l, e = .setDC l ∧ v = .A ∧ b.asserted = true ∧ b' = { b with driven := some l }) ∨
    (b' = b ∧ ∀ p : Pins, (p.apply e).dc = p.dc) := by
  cases e with
  | setCS l =>
    refine .inl ⟨l, rfl, ?_⟩
    cases l <;> (simp only [scanEvent] at h; split at h <;> cases h; rfl)
  | setDC l =>
    obtain ⟨⟨hv, ha⟩, hb⟩ : (v = .A ∧ b.asserted = true) ∧ _ = b' := by simpa [scanEvent] using h
    exact .inr (.inl ⟨l, rfl, hv, ha, hb.symm⟩)
  | xfer | setSDA | setSCK | delay =>
    obtain ⟨-, hb⟩ : _ ∧ b = b' := by simpa [scanEvent] using h
    exact .inr (.inr ⟨hb.symm, fun _ => rfl⟩)

theorem modeAgrees_event {v : Variant} {p : Pins} {b b' : BusScan} {e : Event} (hs : scanEvent v b e = some b')
    (h : modeAgrees p b) : modeAgrees (p.apply e) b' := by
  rcases scanEvent_cases hs with ⟨l, -, hnone⟩ | ⟨l, rfl, -, -, rfl⟩ | ⟨rfl, hdc⟩
  · simp [modeAgrees, hnone]
  · exact fun _ hl => Option.some.inj hl
  · exact fun l hl => (hdc p).trans (h l hl)

theorem modeAgrees_applyAll {v : Variant} {p : Pins} {b b' : BusScan} {es : List Event}
    (hs : scan v b es = some b') (h : modeAgrees p b) : modeAgrees (p.applyAll es) b' := by
  induction es generalizing p b with
  | nil =>
    cases hs
    exact h
  | cons e es ih =>
    rw [← List.singleton_append, scan_append, scan_singleton] at hs
    obtain ⟨c, hc, hs⟩ := Option.bind_eq_some_iff.1 hs
    exact ih hs (modeAgrees_event hc h)

theorem scan_run {acts : List Act} {s : State} {b : BusScan} {y : Place}
    (h : scan s.cfg.variant BusScan.start s.bus = some b) (hl : leads s.cfg.variant (b, s.sess) acts y) :
    scan s.cfg.variant BusScan.start (s.run acts).bus = some y.1 := by
  rw [State.run_bus, scan_append, h]
  exact hl.2.1

theorem standsAt_run {acts : List Act} {s : State} {b : BusScan} {y : Place} (h : standsAt s b)
    (hl : leads s.cfg.variant (b, s.sess) acts y) : standsAt (s.run acts) y.1 := by
  obtain ⟨hcs, hscan, hmode⟩ := h
  exact ⟨csAgrees_run hl.1 hcs, scan_run hscan hl, modeAgrees_applyAll hl.2.1 hmode⟩

/-! ## Between two operations -/

/-- What every allowed history says: with no session open the mode line counts as not driven, and variant B never
drives it. -/
def BusScan.sound (v : Variant) (b : BusScan) : Prop :=
  (b.asserted = false → b.driven = none) ∧ (v = .B → b.driven = none)

theorem scanEvent_sound {v : Variant} {b b' : BusScan} {e : Event} (hs : scanEvent v b e = some b')
    (h : b.sound v) : b'.sound v := by
  rcases scanEvent_cases hs with ⟨l, -, hnone⟩ | ⟨l, -, rfl, ha, rfl⟩ | ⟨rfl, -⟩
  · exact ⟨fun _ => hnone, fun _ => hnone⟩
  · exact ⟨by simp [ha], nofun⟩
  · exact h

theorem scan_sound {v : Variant} {b b' : BusScan} {es : List Event} (hs : scan v b es = some b')
    (h : b.sound v) : b'.sound v := by
  induction es generalizing b with
  | nil =>
    cases hs
    exact h
  | cons e es ih =>
    rw [← List.singleton_append, scan_append, scan_singleton] at hs
    obtain ⟨c, hc, hs⟩ := Option.bind_eq_some_iff.1 hs
    exact ih hs (scanEvent_sound hc h)

/-- Between two operations a disciplined history stands at the place `SESS` names. -/
theorem disciplined.scan_eq {s : State} (h : disciplined s) (hb : s.busy = false) :
    scan s.cfg.variant BusScan.start s.bus = some (betweenOps s.cfg.variant s.sess) := by
  obtain ⟨-, hsingle, ⟨asserted, driven⟩, hscan, hopen, hmode⟩ := h
  obtain ⟨hclosed, hB⟩ := scan_sound hscan (b := BusScan.start) ⟨fun _ => rfl, fun _ => rfl⟩
  rw [hscan]
  congr 1
  cases hq : s.sess with
  | single => exact absurd hq (hsingle hb)
  | closed =>
    obtain rfl : asserted = false := by simpa [hq] using hopen
    rw [show driven = none from hclosed rfl]
    rfl
  | stream =>
    obtain rfl : asserted = true := by simpa [hq] using hopen
    cases hv : s.cfg.variant with
    | A => rw [show driven = some .data from hmode hv hq]; rfl
    | B => rw [show driven = none from hB hv]; rfl

/-- A history at the place `SESS` names is disciplined. -/
theorem disciplined_of_scan {s : State} (hcs : csAgrees s.pins s.sess) (hsingle : s.sess ≠ .single)
    (hscan : scan s.cfg.variant BusScan.start s.bus = some (betweenOps s.cfg.variant s.sess)) : disciplined s := by
  refine ⟨hcs, fun _ => hsingle, _, hscan, ?_, ?_⟩
  · cases hq : s.sess with
    | single => exact absurd hq hsingle
    | closed | stream => simp [betweenOps, BusScan.start]
  · intro hv hq
    simp [betweenOps, hv, hq]

/-- Settles O56: the acts of the instruction lead from one place between two operations to another. -/
theorem instructionsKeepTheBusDisciplined : Obligations.InstructionsKeepTheBusDisciplined := by
  unfold Obligations.InstructionsKeepTheBusDisciplined
  intro i s t hs h ht
  obtain ⟨hb, -, op, acts, -, hl, hsame⟩ := exec_leads h ht
  have hq : sessAfter s.sess acts = finalSess op := hl.2.2
  rw [hsame]
  refine disciplined_of_scan (csAgrees_run hl.1 hs.1) (hq.trans_ne (finalSess_ne_single op)) ?_
  exact (scan_run (hs.scan_eq hb) hl).trans (congrArg (fun q => some (betweenOps s.cfg.variant q)) hq.symm)

/-! ## Reset -/

/-- Between two operations, a history at the place `SESS` names is orderly. -/
theorem orderly_of_idle {s : State} (hc : legal s.cfg) (hb : s.busy = false) (hi : s.seq = .idle)
    (hsingle : s.sess ≠ .single) (h : standsAt s (betweenOps s.cfg.variant s.sess)) : orderly s := by
  obtain ⟨hcs, hscan, hmode⟩ := h
  refine ⟨hc, by simp [hb, hi], fun _ => ⟨hcs, _, hscan, hmode, ?_⟩⟩
  rw [inPlace, hi]
  exact ⟨hsingle, rfl⟩

/-- Nothing is on the bus, no session is open and `CS` is idle. -/
theorem standsAt_start {s : State} (hcs : s.pins.cs = .idle) (hq : s.sess = .closed) (hbus : s.bus = []) :
    standsAt s (betweenOps s.cfg.variant s.sess) := by
  rw [standsAt, hbus, hq]
  exact ⟨by simp [csAgrees, hcs], rfl, nofun⟩

/-- Settles O58: after reset nothing is on the bus. -/
theorem resetBusIsDisciplined : Obligations.ResetBusIsDisciplined := by
  unfold Obligations.ResetBusIsDisciplined
  have afterReset : ∀ s : State, s.pins.cs = .idle → s.sess = .closed → s.bus = [] → s.busy = false → s.seq = .idle →
      disciplined s ∧ (legal s.cfg → orderly s) := by
    intro s hcs hq hbus hb hi
    have hsingle : s.sess ≠ .single := by simp [hq]
    have hplace := standsAt_start hcs hq hbus
    exact ⟨disciplined_of_scan hplace.1 hsingle hplace.2.1, fun hc => orderly_of_idle hc hb hi hsingle hplace⟩
  exact ⟨fun c => afterReset _ rfl rfl rfl rfl rfl, fun s => afterReset _ rfl rfl rfl rfl rfl⟩

end Sys2Proof.Machine

/-! PROOF. What one event of the operation in progress can do (`10_state.md` R33), said once, and that `BUS` only
grows (R35). -/

namespace Sys2Proof.Machine
open Sys2Proof Sys2Proof.Spec

/-! ## `SEQ` moved to an event -/

/-- `SEQ` at event `k` of the operation `i`. -/
def State.atEvent (i : Instr) (k : Nat) (s : State) : State := { s with seq := .busy i k }

@[simp] theorem State.atEvent_cfg (i : Instr) (k : Nat) (s : State) : (s.atEvent i k).cfg = s.cfg := rfl
@[simp] theorem State.atEvent_sess (i : Instr) (k : Nat) (s : State) : (s.atEvent i k).sess = s.sess := rfl
@[simp] theorem State.atEvent_lb (i : Instr) (k : Nat) (s : State) : (s.atEvent i k).lb = s.lb := rfl
@[simp] theorem State.atEvent_busy (i : Instr) (k : Nat) (s : State) : (s.atEvent i k).busy = s.busy := rfl
@[simp] theorem State.atEvent_seq (i : Instr) (k : Nat) (s : State) : (s.atEvent i k).seq = .busy i k := rfl
@[simp] theorem State.atEvent_bus (i : Instr) (k : Nat) (s : State) : (s.atEvent i k).bus = s.bus := rfl
@[simp] theorem State.atEvent_fault (i : Instr) (k : Nat) (s : State) : (s.atEvent i k).fault = s.fault := rfl

/-! ## One event -/

/-- Everything an event of an operation with given acts can do: end the operation past its last act, make an act with
more to come, or make the last one. -/
theorem advanceActs_cases (i : Instr) (k : Nat) (acts : List Act) (s : State) :
    (acts.length ≤ k ∧ advanceActs i k acts s = s.complete) ∨
    (∃ a, acts[k]? = some a ∧
      ((k + 1 < acts.length ∧ advanceActs i k acts s = (s.run [a]).atEvent i (k + 1)) ∨
       (k + 1 = acts.length ∧ advanceActs i k acts s = (s.run [a]).complete))) := by
  unfold advanceActs
  cases ha : acts[k]? with
  | none => exact .inl ⟨List.getElem?_eq_none_iff.1 ha, rfl⟩
  | some a =>
    obtain ⟨hk, -⟩ := List.getElem?_eq_some_iff.1 ha
    by_cases hmore : k + 1 < acts.length
    · exact .inr ⟨a, rfl, .inl ⟨hmore, if_pos hmore⟩⟩
    · exact .inr ⟨a, rfl, .inr ⟨by omega, if_neg hmore⟩⟩

/-- The row whose event is due stands in the line buffer: it is loaded at its first event (log 7). -/
def loadDue (y j : Nat) (s : State) : Except (Nat × State) State := if j = 0 then s.loadRow y else .ok s

theorem loadDue_ok {y j : Nat} {s u : State} (h : loadDue y j s = .ok u) :
    (j = 0 ∧ s.loadRow y = .ok u) ∨ (j ≠ 0 ∧ u = s) := by
  unfold loadDue at h
  split at h
  · exact .inl ⟨‹_›, h⟩
  · exact .inr ⟨‹_›, (Except.ok.inj h).symm⟩

theorem loadDue_error {y j w : Nat} {s u : State} (h : loadDue y j s = .error (w, u)) :
    s.loadRow y = .error (w, u) := by
  unfold loadDue at h
  split at h
  · exact h
  · cases h

theorem loadDue_loadOnly {y j : Nat} {s u : State} (h : loadDue y j s = .ok u) : loadOnly s u := by
  rcases loadDue_ok h with ⟨-, h⟩ | ⟨-, rfl⟩
  · exact (loadRow_ok h).1
  · rfl

/-- `FB` and the viewport are set with the first event of a RENDER (R203). -/
def openDue (fb : Handle) (k : Nat) (s : State) : State := if k = 0 then s.startRender fb else s

theorem openDue_cases (fb : Handle) (k : Nat) (s : State) :
    openDue fb k s = s.startRender fb ∨ openDue fb k s = s := ite_eq_or_eq _ _ _

theorem openDue_bus (fb : Handle) (k : Nat) (s : State) : (openDue fb k s).bus = s.bus := by
  rcases openDue_cases fb k s with e | e <;> simp [e]

theorem advanceRender_opening {fb : Handle} {k : Nat} {s : State} {a : Act} (ha : (prologueActs s.cfg)[k]? = some a) :
    advanceRender fb k s = ((openDue fb k s).run [a]).atEvent (.render fb) (k + 1) := by
  simp only [advanceRender, ha]
  rfl

/-- Event `j` after the opening, while there are rows: the next part of the row that is due. -/
theorem advanceRender_row {fb : Handle} {j : Nat} {s : State} (hj : j / rowEvents s.cfg < s.cfg.hDst) :
    advanceRender fb ((prologueActs s.cfg).length + j) s =
      match loadDue (j / rowEvents s.cfg) (j % rowEvents s.cfg) s with
      | .error (w, u) => u.takeFault (.sourceUndefined w)
      | .ok u => (u.run ((rawWriteActs u.cfg u.lb)[j % rowEvents u.cfg]?).toList).atEvent (.render fb)
          ((prologueActs s.cfg).length + j + 1) := by
  unfold advanceRender
  rw [List.getElem?_eq_none (Nat.le_add_right _ _)]
  simp only [Nat.add_sub_cancel_left, if_pos hj]
  rfl

/-- A read that fails as the row is loaded. -/
theorem advanceRender_rowFails {fb : Handle} {j w : Nat} {s u : State} (hj : j / rowEvents s.cfg < s.cfg.hDst)
    (hload : loadDue (j / rowEvents s.cfg) (j % rowEvents s.cfg) s = .error (w, u)) :
    advanceRender fb ((prologueActs s.cfg).length + j) s = u.takeFault (.sourceUndefined w) := by
  rw [advanceRender_row hj, hload]

/-- A part of a row that stands in the line buffer. -/
theorem advanceRender_rowPart {fb : Handle} {j : Nat} {s u : State} (hj : j / rowEvents s.cfg < s.cfg.hDst)
    (hload : loadDue (j / rowEvents s.cfg) (j % rowEvents s.cfg) s = .ok u) :
    advanceRender fb ((prologueActs s.cfg).length + j) s =
      (u.run ((rawWriteActs s.cfg u.lb)[j % rowEvents s.cfg]?).toList).atEvent (.render fb)
        ((prologueActs s.cfg).length + j + 1) := by
  rw [advanceRender_row hj, hload]
  simp only [loadOnly_cfg (loadDue_loadOnly hload)]

theorem advanceRender_end {fb : Handle} {j : Nat} {s : State} (hj : s.cfg.hDst ≤ j / rowEvents s.cfg) :
    advanceRender fb ((prologueActs s.cfg).length + j) s = s.closeFrame.retire.complete := by
  unfold advanceRender
  rw [List.getElem?_eq_none (Nat.le_add_right _ _)]
  simp only [Nat.add_sub_cancel_left, if_neg (Nat.not_lt.2 hj)]

/-- Everything an event of a RENDER can do: an act of the opening, a read that fails, a part of a row, or the end. -/
theorem advanceRender_cases (fb : Handle) (k : Nat) (s : State) :
    (∃ a, (prologueActs s.cfg)[k]? = some a ∧
      advanceRender fb k s = ((openDue fb k s).run [a]).atEvent (.render fb) (k + 1)) ∨
    ∃ j, k = (prologueActs s.cfg).length + j ∧
      ((∃ w u, j / rowEvents s.cfg < s.cfg.hDst ∧ s.loadRow (j / rowEvents s.cfg) = .error (w, u) ∧
          advanceRender fb k s = u.takeFault (.sourceUndefined w)) ∨
       (∃ u, j / rowEvents s.cfg < s.cfg.hDst ∧ loadDue (j / rowEvents s.cfg) (j % rowEvents s.cfg) s = .ok u ∧
          advanceRender fb k s =
            (u.run ((rawWriteActs s.cfg u.lb)[j % rowEvents s.cfg]?).toList).atEvent (.render fb) (k + 1)) ∨
       (s.cfg.hDst ≤ j / rowEvents s.cfg ∧ advanceRender fb k s = s.closeFrame.retire.complete)) := by
  by_cases hk : k < (prologueActs s.cfg).length
  · exact .inl ⟨_, List.getElem?_eq_getElem hk, advanceRender_opening (List.getElem?_eq_getElem hk)⟩
  · obtain ⟨j, rfl⟩ := Nat.exists_eq_add_of_le (Nat.not_lt.1 hk)
    refine .inr ⟨j, rfl, ?_⟩
    by_cases hj : j / rowEvents s.cfg < s.cfg.hDst
    · cases hload : loadDue (j / rowEvents s.cfg) (j % rowEvents s.cfg) s with
      | error e => exact .inl ⟨e.1, e.2, hj, loadDue_error hload, advanceRender_rowFails hj hload⟩
      | ok u => exact .inr (.inl ⟨u, hj, rfl, advanceRender_rowPart hj hload⟩)
    · have hend := Nat.not_lt.1 hj
      exact .inr (.inr ⟨hend, advanceRender_end hend⟩)

/-- An event of an operation in progress is one of a RENDER or of an operation with acts of its own. -/
theorem nextEvent_cases {s : State} {i : Instr} {k : Nat} (h : s.seq = .busy i k) :
    (∃ fb, i = .render fb ∧ nextEvent s = advanceRender fb k s) ∨
    ((∀ fb, i ≠ .render fb) ∧ nextEvent s = advanceActs i k (actsOf s.cfg i) s) := by
  cases i with
  | render fb => exact .inl ⟨fb, rfl, by simp only [nextEvent, h]⟩
  | _ => exact .inr ⟨nofun, by simp only [nextEvent, h]⟩

theorem loadOnly_busy {s t : State} (h : loadOnly s t) : t.busy = s.busy := by rw [h]

theorem loadOnly_fault {s t : State} (h : loadOnly s t) : t.fault = s.fault := by rw [h]

theorem loadOnly_bus {s t : State} (h : loadOnly s t) : t.bus = s.bus := by rw [h]

theorem openDue_busy (fb : Handle) (k : Nat) (s : State) : (openDue fb k s).busy = s.busy := by
  rcases openDue_cases fb k s with e | e <;> simp [e]

theorem openDue_fault (fb : Handle) (k : Nat) (s : State) : (openDue fb k s).fault = s.fault := by
  rcases openDue_cases fb k s with e | e <;> simp [e]

/-- After an event `SEQ` is at the next one, or the operation is over (R33). -/
theorem nextEvent_sequencer {s : State} {i : Instr} {k : Nat} (hb : s.busy = true) (h : s.seq = .busy i k) :
    ((nextEvent s).busy = true ∧ (nextEvent s).seq = .busy i (k + 1)) ∨
    ((nextEvent s).busy = false ∧ (nextEvent s).seq = .idle) := by
  rcases nextEvent_cases h with ⟨fb, rfl, e⟩ | ⟨-, e⟩ <;> rw [e]
  · rcases advanceRender_cases fb k s with
      ⟨a, -, e⟩ | ⟨j, -, ⟨w, u, -, -, e⟩ | ⟨u, -, hload, e⟩ | ⟨-, e⟩⟩ <;> rw [e]
    · exact .inl ⟨(openDue_busy fb k s).trans hb, rfl⟩
    · exact .inr ⟨rfl, rfl⟩
    · exact .inl ⟨(loadOnly_busy (loadDue_loadOnly hload)).trans hb, rfl⟩
    · exact .inr ⟨rfl, rfl⟩
  · rcases advanceActs_cases i k (actsOf s.cfg i) s with ⟨-, e⟩ | ⟨a, -, ⟨-, e⟩ | ⟨-, e⟩⟩ <;> rw [e]
    · exact .inr ⟨rfl, rfl⟩
    · exact .inl ⟨hb, rfl⟩
    · exact .inr ⟨rfl, rfl⟩

/-- No event clears `FAULT` (R241). -/
theorem nextEvent_fault {s : State} {i : Instr} {k : Nat} (h : s.seq = .busy i k) (hf : s.fault ≠ none) :
    (nextEvent s).fault ≠ none := by
  rcases nextEvent_cases h with ⟨fb, rfl, e⟩ | ⟨-, e⟩ <;> rw [e]
  · rcases advanceRender_cases fb k s with
      ⟨a, -, e⟩ | ⟨j, -, ⟨w, u, -, -, e⟩ | ⟨u, -, hload, e⟩ | ⟨-, e⟩⟩ <;> rw [e]
    · exact (openDue_fault fb k s).trans_ne hf
    · exact Option.some_ne_none _
    · exact (loadOnly_fault (loadDue_loadOnly hload)).trans_ne hf
    · exact hf
  · rcases advanceActs_cases i k (actsOf s.cfg i) s with ⟨-, e⟩ | ⟨a, -, ⟨-, e⟩ | ⟨-, e⟩⟩ <;> rw [e] <;> exact hf

theorem advance_idle {s : State} (h : s.seq = .idle) : s.advance = s := by
  simp only [State.advance, h]

theorem advance_busy {s : State} {i : Instr} {k : Nat} (h : s.seq = .busy i k) :
    s.advance = (nextEvent s).settleIfOver := by
  simp only [State.advance, h]

/-! ## `BUS` only grows (R35) -/

theorem run_bus_grows (acts : List Act) (s : State) : s.bus <+: (s.run acts).bus := ⟨_, rfl⟩

theorem sentOnly_bus_grows {acts : List Act} {s t : State} (h : sentOnly acts s t) : s.bus <+: t.bus := by
  rw [h]
  exact run_bus_grows acts s

theorem exec_bus_grows {i : Instr} {s t : State} (h : exec i s = .next t) : s.bus <+: t.bus := by
  obtain ⟨-, ⟨f, rfl⟩ | ⟨-, op, -, -, -, -, rfl⟩ | ⟨-, fb, rfl, -, -, hr⟩⟩ := exec_next h
  · exact ⟨[], List.append_nil _⟩
  · exact run_bus_grows _ s
  · have hopening : s.bus <+: (s.atRows fb).bus := run_bus_grows (prologueActs s.cfg) s
    rcases render_cases fb s (viewport_band_le s.cfg) with
      ⟨bit, u, -, hu, e⟩ | ⟨bit, y, x, w, u, -, -, -, -, -, -, hu, -, -, e⟩
    · obtain rfl := Host.Outcome.next.inj (e.symm.trans hr)
      exact (hopening.trans (sentOnly_bus_grows hu)).trans (run_bus_grows endFrameActs u)
    · obtain rfl := Host.Outcome.next.inj (e.symm.trans hr)
      exact (hopening.trans (sentOnly_bus_grows hu) :)

theorem startRequest_bus {i : Instr} {s t : State} (h : startRequest i s = .next t) : t.bus = s.bus := by
  obtain ⟨-, ⟨f, rfl⟩ | ⟨-, op, -, -, -, rfl⟩⟩ := startRequest_next h <;> rfl

theorem advanceActs_bus_grows (i : Instr) (k : Nat) (acts : List Act) (s : State) :
    s.bus <+: (advanceActs i k acts s).bus := by
  rcases advanceActs_cases i k acts s with ⟨-, e⟩ | ⟨a, -, ⟨-, e⟩ | ⟨-, e⟩⟩ <;> rw [e]
  · exact ⟨[], List.append_nil _⟩
  · exact run_bus_grows [a] s
  · exact run_bus_grows [a] s

theorem advanceRender_bus_grows (fb : Handle) (k : Nat) (s : State) : s.bus <+: (advanceRender fb k s).bus := by
  rcases advanceRender_cases fb k s with
    ⟨a, -, e⟩ | ⟨j, -, ⟨w, u, -, hload, e⟩ | ⟨u, -, hload, e⟩ | ⟨-, e⟩⟩ <;> rw [e]
  · rw [← openDue_bus fb k s]
    exact run_bus_grows [a] _
  · rw [State.takeFault_bus, loadOnly_bus (loadRow_error hload).1]
  · rw [← loadOnly_bus (loadDue_loadOnly hload)]
    exact run_bus_grows _ u
  · exact run_bus_grows endFrameActs s

theorem nextEvent_bus_grows (s : State) : s.bus <+: (nextEvent s).bus := by
  unfold nextEvent
  split
  · exact ⟨[], List.append_nil _⟩
  · exact advanceRender_bus_grows _ _ s
  · exact advanceActs_bus_grows _ _ _ s

theorem advance_bus_grows (s : State) : s.bus <+: s.advance.bus := by
  rcases advance_cases s with ⟨-, e⟩ | ⟨-, e⟩ <;> rw [e]
  exact nextEvent_bus_grows s

/-- Settles O53, by the kind of move on the tape. -/
theorem busIsAppendOnly : Obligations.BusIsAppendOnly := by
  unfold Obligations.BusIsAppendOnly
  intro s t h hreset
  suffices hp : s.bus <+: t.bus by
    obtain ⟨es, hes⟩ := hp
    exact ⟨es, hes.symm⟩
  rcases step_next h with ⟨-, rfl⟩ | ⟨rest, -, rfl⟩ | ⟨e, during, rest, i, u, -, -, hu, rfl⟩ |
    ⟨e, rest, i, u, -, -, hu, rfl⟩ | ⟨fb, index, value, rest, -, rfl⟩ | ⟨rest, htape, rfl⟩
  · exact advance_bus_grows s
  · exact advance_bus_grows { s with tape := rest }
  · exact (exec_bus_grows hu :)
  · exact ⟨[], by simpa using (startRequest_bus hu).symm⟩
  · exact ⟨[], List.append_nil _⟩
  · exact absurd htape (hreset rest)

end Sys2Proof.Machine

/-! PROOF. Every step keeps the session invariants, inside operations too (`10_state.md` R40). -/

namespace Sys2Proof.Machine
open Sys2Proof Sys2Proof.Spec

/-! ## What `orderly` says in each state of the sequencer -/

theorem orderly_of_fault {s : State} (hc : legal s.cfg) (hseq : s.busy = true ↔ s.seq ≠ .idle) (hf : s.fault ≠ none) :
    orderly s := ⟨hc, hseq, fun h => absurd h hf⟩

theorem orderly_takeFault {s : State} (hc : legal s.cfg) (f : FaultMark) : orderly (s.takeFault f) :=
  orderly_of_fault hc (by simp) (by simp)

/-- The acts RENDER has made are those of its opening; every other operation makes its own. -/
theorem actsMade_eq (c : Config) {i : Instr} (hi : ∀ fb, i ≠ .render fb) (k : Nat) :
    actsMade c i k = (actsOf c i).take k := by
  cases i with
  | render fb => exact absurd rfl (hi fb)
  | _ => rfl

theorem actsMade_proper (c : Config) (i : Instr) (k : Nat) : (actsMade c i k).all Act.proper = true := by
  have hall : ∀ as : List Act, as.all Act.proper = true → (as.take k).all Act.proper = true := fun as h =>
    List.all_eq_true.2 fun a ha => List.all_eq_true.1 h a (List.mem_of_mem_take ha)
  cases i with
  | render fb => exact hall _ (leads_prologueActs c).1
  | _ => exact hall _ (actsOf_proper c _)

/-- Inside an operation an orderly history stands where the acts made led from the place before it. -/
theorem orderly.inside {s : State} {i : Instr} {k : Nat} (h : orderly s) (hf : s.fault = none)
    (hseq : s.seq = .busy i k) :
    ∃ op b, opOf i = some op ∧ standsAt s b ∧
      leads s.cfg.variant (between s.cfg.variant (requiredSess op)) (actsMade s.cfg i k) (b, s.sess) := by
  obtain ⟨-, -, hbus⟩ := h
  obtain ⟨hcs, b, hscan, hmode, hplace⟩ := hbus hf
  rw [inPlace, hseq] at hplace
  obtain ⟨op, ho, hs, hb⟩ := hplace
  exact ⟨op, b, ho, ⟨hcs, hscan, hmode⟩, actsMade_proper s.cfg i k, hb, hs.symm⟩

/-- Between two operations an orderly history stands at the place `SESS` names. -/
theorem orderly.idle {s : State} (h : orderly s) (hf : s.fault = none) (hb : s.busy = false) :
    standsAt s (betweenOps s.cfg.variant s.sess) := by
  obtain ⟨-, hseq, hbus⟩ := h
  obtain ⟨hcs, b, hscan, hmode, hplace⟩ := hbus hf
  have hidle : s.seq = .idle := by simpa [hb] using hseq
  rw [inPlace, hidle] at hplace
  obtain ⟨-, rfl⟩ := hplace
  exact ⟨hcs, hscan, hmode⟩

/-- The converse: acts that lead to the place where the history stands, and more to come. -/
theorem orderly_of_inside {s : State} {i : Instr} {k : Nat} {op : Op} {b : BusScan} (hc : legal s.cfg)
    (hb : s.busy = true) (hseq : s.seq = .busy i k) (ho : opOf i = some op) (hs : standsAt s b)
    (hl : leads s.cfg.variant (between s.cfg.variant (requiredSess op)) (actsMade s.cfg i k) (b, s.sess)) :
    orderly s := by
  obtain ⟨hcs, hscan, hmode⟩ := hs
  obtain ⟨-, hb', hsess⟩ := hl
  refine ⟨hc, by simp [hb, hseq], fun _ => ⟨hcs, b, hscan, hmode, ?_⟩⟩
  rw [inPlace, hseq]
  exact ⟨op, ho, hsess.symm, hb'⟩

/-- Acts that lead from where the history stands to a place between two operations, and then the end. -/
theorem orderly_of_completed {s t : State} {b : BusScan} {acts : List Act} {op : Op} (hc : legal s.cfg)
    (hs : standsAt s b)
    (hl : leads s.cfg.variant (b, s.sess) acts (between s.cfg.variant (finalSess op)))
    (ht : sameButRenderer t (s.run acts).complete) : orderly t := by
  have hq : sessAfter s.sess acts = finalSess op := hl.2.2
  have hrun := standsAt_run hs hl
  rw [ht]
  refine orderly_of_idle hc rfl rfl (hq.trans_ne (finalSess_ne_single op)) ?_
  change standsAt (s.run acts) (betweenOps s.cfg.variant (sessAfter s.sess acts))
  rw [hq]
  exact hrun

/-! ## Whole instructions, and acceptance -/

/-- An instruction that answers a next state has ended (R32, R33). -/
theorem exec_ends {i : Instr} {s t : State} (h : exec i s = .next t) : t.busy = false ∧ t.seq = .idle := by
  obtain ⟨-, ⟨f, rfl⟩ | ⟨-, op, -, -, -, -, rfl⟩ | ⟨-, fb, -, -, -, hr⟩⟩ := exec_next h
  · exact ⟨rfl, rfl⟩
  · exact ⟨rfl, rfl⟩
  · unfold renderOutcome at hr
    split at hr <;> cases hr <;> exact ⟨rfl, rfl⟩

theorem exec_orderly {i : Instr} {s t : State} (hs : orderly s) (h : exec i s = .next t) : orderly t := by
  by_cases ht : t.fault = none
  · obtain ⟨hb, hc, op, acts, -, hl, hsame⟩ := exec_leads h ht
    exact orderly_of_completed hc (hs.idle (exec_next h).1 hb) hl hsame
  · obtain ⟨hb, hseq⟩ := exec_ends h
    exact orderly_of_fault ((exec_cfg h).symm ▸ hs.1) (by simp [hb, hseq]) ht

theorem startRequest_orderly {i : Instr} {s t : State} (hs : orderly s) (h : startRequest i s = .next t) :
    orderly t := by
  obtain ⟨hf, ⟨f, rfl⟩ | ⟨hc, op, ho, hb, hq, rfl⟩⟩ := startRequest_next h
  · exact orderly_takeFault hs.1 f
  · have hidle := hs.idle hf hb
    rw [hq] at hidle
    have hnone : actsMade s.cfg i 0 = [] := by cases i <;> rfl
    refine orderly_of_inside hc rfl rfl ho (b := betweenOps s.cfg.variant (requiredSess op)) hidle ?_
    rw [hnone]
    exact hq ▸ leads_nil _ _

/-! ## One event -/

/-- One more act of an operation whose acts lead somewhere. -/
theorem orderly_of_act {s : State} {i : Instr} {k : Nat} {op : Op} {b : BusScan} {acts : List Act} {z : Place}
    {a : Act} (hs : orderly s) (hseq : s.seq = .busy i k) (ho : opOf i = some op) (hb : standsAt s b)
    (hacts : ∀ k, actsMade s.cfg i k = acts.take k)
    (hwhole : leads s.cfg.variant (between s.cfg.variant (requiredSess op)) acts z)
    (hmade : leads s.cfg.variant (between s.cfg.variant (requiredSess op)) (actsMade s.cfg i k) (b, s.sess))
    (ha : acts[k]? = some a) : orderly ((s.run [a]).atEvent i (k + 1)) := by
  rw [hacts] at hmade
  obtain ⟨⟨b', q⟩, hlast, hmore⟩ := leads_take_succ hwhole hmade ha
  obtain rfl : sessAfter s.sess [a] = q := hlast.2.2
  rw [← hacts] at hmore
  exact orderly_of_inside hs.1 (hs.2.1.2 (by simp [hseq])) rfl ho (standsAt_run hb hlast) hmore

theorem opOf_ne_render {i : Instr} {op : Op} (hi : ∀ fb, i ≠ .render fb) (ho : opOf i = some op) : op ≠ .render := by
  rintro rfl
  cases i with
  | render fb => exact hi fb rfl
  | _ => cases ho

theorem advanceActs_orderly {i : Instr} {k : Nat} {s : State} (hs : orderly s) (hf : s.fault = none)
    (hseq : s.seq = .busy i k) (hi : ∀ fb, i ≠ .render fb) : orderly (advanceActs i k (actsOf s.cfg i) s) := by
  obtain ⟨op, b, ho, hb, hmade⟩ := hs.inside hf hseq
  have hacts := actsMade_eq s.cfg hi
  have hwhole := leads_actsOf s.cfg ho (opOf_ne_render hi ho)
  rcases advanceActs_cases i k (actsOf s.cfg i) s with ⟨hk, e⟩ | ⟨a, ha, ⟨hk, e⟩ | ⟨hk, e⟩⟩ <;> rw [e]
  · rw [hacts, List.take_of_length_le hk] at hmade
    have hend : leads s.cfg.variant (b, s.sess) [] (between s.cfg.variant (finalSess op)) :=
      leads_unique hmade hwhole ▸ leads_nil _ _
    exact orderly_of_completed hs.1 hb hend (by rw [run_nil]; rfl)
  · exact orderly_of_act hs hseq ho hb hacts hwhole hmade ha
  · rw [hacts] at hmade
    obtain ⟨y, hlast, hmore⟩ := leads_take_succ hwhole hmade ha
    rw [hk, List.take_length] at hmore
    rw [leads_unique hmore hwhole] at hlast
    exact orderly_of_completed (acts := [a]) hs.1 hb hlast rfl

/-- An act of RENDER's opening. -/
theorem opening_orderly {fb : Handle} {k : Nat} {s : State} {a : Act} (hs : orderly s) (hf : s.fault = none)
    (hseq : s.seq = .busy (.render fb) k) (ha : (prologueActs s.cfg)[k]? = some a) :
    orderly ((s.run [a]).atEvent (.render fb) (k + 1)) := by
  obtain ⟨op, b, ho, hb, hmade⟩ := hs.inside hf hseq
  cases ho
  exact orderly_of_act hs hseq rfl hb (fun _ => rfl) (leads_prologueActs s.cfg) hmade ha

theorem leads_rawWritePart (c : Config) (bytes : List Byte) (j : Nat) :
    leads c.variant (between c.variant .stream) ((rawWriteActs c bytes)[j]?).toList (between c.variant .stream) := by
  cases h : (rawWriteActs c bytes)[j]? with
  | none => exact leads_nil _ _
  | some a => exact stays_rawWriteActs c bytes a (List.mem_of_getElem? h)

theorem advanceRender_orderly {fb : Handle} {k : Nat} {s : State} (hs : orderly s) (hf : s.fault = none)
    (hseq : s.seq = .busy (.render fb) k) : orderly (advanceRender fb k s) := by
  rcases advanceRender_cases fb k s with ⟨a, ha, e⟩ | ⟨j, rfl, hcases⟩
  · rcases openDue_cases fb k s with e' | e' <;> rw [e, e'] <;> exact opening_orderly hs hf hseq ha
  · obtain ⟨op, b, ho, hb, hmade⟩ := hs.inside hf hseq
    cases ho
    have hopening : ∀ k, actsMade s.cfg (.render fb) ((prologueActs s.cfg).length + k) = prologueActs s.cfg := fun k =>
      List.take_of_length_le (Nat.le_add_right _ k)
    rw [hopening] at hmade
    obtain ⟨rfl, hq⟩ := Prod.mk.inj (leads_unique hmade (leads_prologueActs s.cfg))
    rcases hcases with ⟨w, u, -, hload, e⟩ | ⟨u, -, hload, e⟩ | ⟨-, e⟩ <;> rw [e]
    · exact orderly_takeFault (loadOnly_cfg (loadRow_error hload).1 ▸ hs.1) _
    · have hpart : leads s.cfg.variant (betweenOps s.cfg.variant .stream, s.sess)
          ((rawWriteActs s.cfg u.lb)[j % rowEvents s.cfg]?).toList (between s.cfg.variant .stream) :=
        hq ▸ leads_rawWritePart s.cfg u.lb _
      have hstream : sessAfter s.sess ((rawWriteActs s.cfg u.lb)[j % rowEvents s.cfg]?).toList = .stream :=
        hpart.2.2
      rw [loadDue_loadOnly hload]
      refine orderly_of_inside hs.1 (hs.2.1.2 (by simp [hseq])) rfl rfl (standsAt_run hb hpart) ?_
      change leads s.cfg.variant (between s.cfg.variant .closed)
        (actsMade s.cfg (.render fb) ((prologueActs s.cfg).length + (j + 1))) (_, sessAfter s.sess _)
      rw [hopening, hstream]
      exact leads_prologueActs s.cfg
    · have hend : leads s.cfg.variant (betweenOps s.cfg.variant .stream, s.sess) endFrameActs
          (between s.cfg.variant (finalSess .render)) := hq ▸ leads_endStreamActs s.cfg.variant
      exact orderly_of_completed hs.1 hb hend rfl

theorem nextEvent_orderly {s : State} {i : Instr} {k : Nat} (hs : orderly s) (hseq : s.seq = .busy i k) :
    orderly (nextEvent s) := by
  by_cases hf : s.fault = none
  · rcases nextEvent_cases hseq with ⟨fb, rfl, e⟩ | ⟨hi, e⟩ <;> rw [e]
    · exact advanceRender_orderly hs hf hseq
    · exact advanceActs_orderly hs hf hseq hi
  · have hbusy : s.busy = true := hs.2.1.2 (by simp [hseq])
    have hsync : (nextEvent s).busy = true ↔ (nextEvent s).seq ≠ .idle := by
      rcases nextEvent_sequencer hbusy hseq with ⟨hb, hq⟩ | ⟨hb, hq⟩ <;> simp [hb, hq]
    exact orderly_of_fault ((nextEvent_cfg s).symm ▸ hs.1) hsync (nextEvent_fault hseq hf)

/-! ## A step -/

theorem advance_orderly {s : State} (hs : orderly s) : orderly s.advance := by
  cases hseq : s.seq with
  | idle => rwa [advance_idle hseq]
  | busy i k =>
    rw [advance_busy hseq]
    exact nextEvent_orderly hs hseq

/-- Settles O57, by the kind of move on the tape. -/
theorem stepKeepsOrderly : Obligations.StepKeepsOrderly := by
  unfold Obligations.StepKeepsOrderly
  intro s t hs h
  rcases step_next h with ⟨-, rfl⟩ | ⟨rest, -, rfl⟩ | ⟨e, during, rest, i, u, -, -, hu, rfl⟩ |
    ⟨e, rest, i, u, -, -, hu, rfl⟩ | ⟨fb, index, value, rest, -, rfl⟩ | ⟨rest, -, rfl⟩
  · exact advance_orderly hs
  · exact advance_orderly hs
  · exact (exec_orderly (s := { s with tape := rest, inFlight := s.inFlight ++ during }) hs hu :)
  · exact (startRequest_orderly (s := { s with tape := rest }) hs hu :)
  · exact hs
  · exact (resetBusIsDisciplined.2 _).2 hs.1

end Sys2Proof.Machine

/-! PROOF. Every step keeps the invariant of the machine (`10_state.md` R23, R24, R31 to R33, R40). -/

namespace Sys2Proof.Machine
open Sys2Proof Sys2Proof.Spec

/-! ## The registers fit (R23, R24) -/

/-- The viewport registers fit 16 bits (R23). -/
def viewportFits (vp : Viewport) : Prop :=
  vp.actW ≤ 65535 ∧ vp.actH ≤ 65535 ∧ vp.xPad ≤ 65535 ∧ vp.yPad ≤ 65535

/-- The counters fit 16 bits (R24). -/
def countersFit (ctr : Counters) : Prop :=
  ctr.row ≤ 65535 ∧ ctr.col ≤ 65535 ∧ ctr.srcY ≤ 65535 ∧ ctr.srcX ≤ 65535

theorem registersFit_iff (s : State) : registersFit s ↔ viewportFits s.vp ∧ countersFit s.ctr := by
  simp only [registersFit, viewportFits, countersFit, and_assoc]

theorem viewport_actH_le (c : Config) : (viewport c).actH ≤ c.hDst := by
  simp only [viewport]
  split
  · exact le_rfl
  next hfit => exact Nat.not_lt.1 fun hlt => hfit (decide_eq_true hlt)

theorem viewport_fits {c : Config} (hc : legal c) : viewportFits (viewport c) := by
  have hw : c.wDst ≤ 65535 := (legal_iff c).1 hc .wDstMax
  have hh : c.hDst ≤ 65535 := (legal_iff c).1 hc .hDstMax
  have hactW := viewport_actW_le c
  have hactH := viewport_actH_le c
  have hxPad := viewport_xPad c
  have hyPad : (viewport c).yPad = (c.hDst - (viewport c).actH) / 2 := rfl
  unfold viewportFits
  omega

theorem srcCol_fits {c : Config} {vp : Viewport} (hc : legal c) {x : Nat} (hx : x < vp.actW) :
    srcCol c vp x ≤ 65535 :=
  (srcCol_lt hc hx).le.trans ((legal_iff c).1 hc .wSrcMax)

theorem srcRow_fits {c : Config} {vp : Viewport} (hc : legal c) {y : Nat} (hy : inBand vp y = true) :
    srcRow c vp y ≤ 65535 :=
  (srcRow_lt hc hy).le.trans ((legal_iff c).1 hc .hSrcMax)

/-- The counters after a row has been loaded, or after the read that failed. -/
theorem loadRow_countersFit {s : State} {y : Nat} (hc : legal s.cfg) (hvp : viewportFits s.vp)
    (hctr : countersFit s.ctr) (hy : y < s.cfg.hDst) :
    (∀ t, s.loadRow y = .ok t → countersFit t.ctr) ∧ ∀ w t, s.loadRow y = .error (w, t) → countersFit t.ctr := by
  have hrow : y ≤ 65535 := hy.le.trans ((legal_iff s.cfg).1 hc .hDstMax)
  obtain ⟨hactW, -⟩ := hvp
  obtain ⟨-, hcol, hsrcY, hsrcX⟩ := hctr
  rcases loadRow_cases y s with
    ⟨-, e⟩ | ⟨hb, bit, u, -, e, -, -, hr, hcl, hsy, hsx⟩ | ⟨hb, x, w, u, hx, -, -, e, -, -, hu⟩
  · refine ⟨fun t h => ?_, fun w t h => ?_⟩
    · obtain rfl := Except.ok.inj (e.symm.trans h)
      exact ⟨hrow, hcol, hsrcY, hsrcX⟩
    · cases e.symm.trans h
  · refine ⟨fun t h => ?_, fun w t h => ?_⟩
    · obtain rfl := Except.ok.inj (e.symm.trans h)
      refine ⟨hr ▸ hrow, hcl ▸ hactW, hsy ▸ srcRow_fits hc hb, ?_⟩
      rcases hsx with hsx | ⟨x, hx, hsx⟩
      · exact hsx ▸ hsrcX
      · exact hsx ▸ srcCol_fits hc hx
    · cases e.symm.trans h
  · refine ⟨fun t h => ?_, fun v t h => ?_⟩
    · cases e.symm.trans h
    · obtain ⟨-, rfl⟩ := Prod.mk.inj (Except.error.inj (e.symm.trans h))
      rw [hu]
      exact ⟨hrow, hx.le.trans hactW, srcRow_fits hc hb, srcCol_fits hc hx⟩

/-! ## The invariant without the changes in flight -/

/-- `Consistent` but for the owner's changes, which are looked at when an operation has ended (R67). -/
structure coherent (s : State) : Prop where
  config : legal s.cfg
  source : Memory.wf s.cfg.wordBits s.source = true
  lineBuffer : s.lb.length = 2 * s.cfg.wDst
  viewport : viewportFits s.vp
  counters : countersFit s.ctr
  pins : s.pins = Pins.reset.applyAll s.bus
  session : csAgrees s.pins s.sess
  sequencer : s.busy = true ↔ s.seq ≠ .idle

theorem consistent_iff (s : State) : Consistent s ↔ coherent s ∧ (s.busy = false → s.inFlight = []) := by
  rw [Consistent, registersFit_iff]
  constructor
  · rintro ⟨hc, hm, hl, ⟨hv, hr⟩, hp, hcs, hq, hf⟩
    exact ⟨⟨hc, hm, hl, hv, hr, hp, hcs, hq⟩, hf⟩
  · rintro ⟨⟨hc, hm, hl, hv, hr, hp, hcs, hq⟩, hf⟩
    exact ⟨hc, hm, hl, ⟨hv, hr⟩, hp, hcs, hq, hf⟩

namespace coherent

variable {s t : State}

theorem run {acts : List Act} (hs : coherent s) (ha : acts.all Act.proper = true) : coherent (s.run acts) :=
  { hs with
    pins := by rw [State.run_pins, State.run_bus, applyAll_append, ← hs.pins]
    session := csAgrees_run ha hs.session }

theorem complete (hs : coherent s) : coherent s.complete := { hs with sequencer := by simp }

theorem takeFault (hs : coherent s) (f : FaultMark) : coherent (s.takeFault f) := { hs with sequencer := by simp }

theorem accepted (hs : coherent s) (i : Instr) (k : Nat) : coherent { s with busy := true, seq := .busy i k } :=
  { hs with sequencer := by simp }

theorem atEvent (hs : coherent s) (hb : s.busy = true) (i : Instr) (k : Nat) : coherent (s.atEvent i k) :=
  { hs with sequencer := by simp [hb] }

theorem startRender (hs : coherent s) (fb : Handle) : coherent (s.startRender fb) :=
  { hs with viewport := viewport_fits hs.config }

theorem loaded (hs : coherent s) (ho : loadOnly s t) (hl : t.lb.length = 2 * s.cfg.wDst) (hc : countersFit t.ctr) :
    coherent t := by
  rw [ho]
  exact { hs with lineBuffer := hl, counters := hc }

theorem loadRow_ok (hs : coherent s) {y : Nat} (hy : y < s.cfg.hDst) (h : s.loadRow y = .ok t) : coherent t := by
  obtain ⟨ho, hl⟩ := Machine.loadRow_ok h
  exact hs.loaded ho hl ((loadRow_countersFit hs.config hs.viewport hs.counters hy).1 t h)

theorem loadRow_error (hs : coherent s) {y w : Nat} (hy : y < s.cfg.hDst) (h : s.loadRow y = .error (w, t)) :
    coherent t := by
  obtain ⟨ho, hl⟩ := Machine.loadRow_error h
  exact hs.loaded ho hl ((loadRow_countersFit hs.config hs.viewport hs.counters hy).2 w t h)

theorem closeFrame (hs : coherent s) : coherent s.closeFrame := by
  obtain ⟨-, hcol, hsrcY, hsrcX⟩ := hs.counters
  have hrow : coherent { s with ctr := { s.ctr with row := s.cfg.hDst } } :=
    { hs with counters := ⟨(legal_iff s.cfg).1 hs.config .hDstMax, hcol, hsrcY, hsrcX⟩ }
  exact hrow.run rfl

theorem retire (hs : coherent s) : coherent s.retire := by
  have hfits : ∀ which, (Config.deadRegister s.epoch which).toNat ≤ 65535 := fun which =>
    Nat.le_of_lt_succ (Config.deadRegister s.epoch which).isLt
  exact { hs with
    lineBuffer := by simp [State.retire]
    viewport := ⟨hfits 0, hfits 1, hfits 2, hfits 3⟩
    counters := ⟨hfits 4, hfits 5, hfits 6, hfits 7⟩ }

/-! ### Whole instructions, and acceptance -/

/-- The rows of a frame keep the invariant, whether all are sent or a read fails. -/
theorem renderRows (hs : coherent s) (ys : List Nat) (hys : ∀ y ∈ ys, y < s.cfg.hDst) :
    (∀ t, s.renderRows ys = .ok t → coherent t) ∧ ∀ w t, s.renderRows ys = .error (w, t) → coherent t := by
  induction ys generalizing s with
  | nil =>
    rw [State.renderRows]
    refine ⟨fun t h => ?_, fun w t h => ?_⟩
    · cases h
      exact hs
    · cases h
  | cons y ys ih =>
    have hy := hys y (by simp)
    rw [State.renderRows]
    cases hload : s.loadRow y with
    | error e =>
      refine ⟨fun t h => ?_, fun w t h => ?_⟩
      · cases h
      · cases h
        exact hs.loadRow_error hy hload
    | ok u =>
      have hsent : coherent u.sendRow := (hs.loadRow_ok hy hload).run (leads_rawWriteActs u.cfg u.lb).1
      refine ih hsent fun z hz => ?_
      rw [State.sendRow_cfg, loadOnly_cfg (Machine.loadRow_ok hload).1]
      exact hys z (by simp [hz])

theorem renderOutcome (hs : coherent s) (fb : Handle)
    (h : Machine.renderOutcome (s.renderBody fb) = .next t) : coherent t := by
  have hrows := ((hs.startRender fb).run (leads_prologueActs s.cfg).1).renderRows (List.range s.cfg.hDst)
    fun y hy => List.mem_range.1 hy
  rw [State.renderBody] at h
  cases he : ((s.startRender fb).run (prologueActs s.cfg)).renderRows (List.range s.cfg.hDst) with
  | error e =>
    rw [he] at h
    cases h
    exact (hrows.2 e.1 e.2 he).takeFault _
  | ok u =>
    rw [he] at h
    cases h
    exact (hrows.1 u he).closeFrame.retire.complete

theorem exec {i : Instr} (hs : coherent s) (h : Machine.exec i s = .next t) : coherent t := by
  obtain ⟨-, ⟨f, rfl⟩ | ⟨-, op, -, -, -, -, rfl⟩ | ⟨-, fb, -, -, -, hr⟩⟩ := exec_next h
  · exact hs.takeFault f
  · exact (hs.run (actsOf_proper s.cfg i)).complete
  · exact (hs.accepted _ _).renderOutcome fb hr

theorem startRequest {i : Instr} (hs : coherent s) (h : Machine.startRequest i s = .next t) : coherent t := by
  obtain ⟨-, ⟨f, rfl⟩ | ⟨-, op, -, -, -, rfl⟩⟩ := startRequest_next h
  · exact hs.takeFault f
  · exact hs.accepted i 0

/-! ### One event -/

theorem openDue (hs : coherent s) (fb : Handle) (k : Nat) : coherent (openDue fb k s) := by
  rcases openDue_cases fb k s with e | e <;> rw [e]
  · exact hs.startRender fb
  · exact hs

theorem loadDue (hs : coherent s) {y j : Nat} (hy : y < s.cfg.hDst) (h : loadDue y j s = .ok t) : coherent t := by
  rcases loadDue_ok h with ⟨-, h⟩ | ⟨-, rfl⟩
  · exact hs.loadRow_ok hy h
  · exact hs

/-- One act of a list of proper ones. -/
theorem run_act {acts : List Act} (hs : coherent s) (ha : acts.all Act.proper = true) {k : Nat} {a : Act}
    (hk : acts[k]? = some a) : coherent (s.run [a]) := by
  have hproper : a.proper = true := List.all_eq_true.1 ha a (List.mem_of_getElem? hk)
  exact hs.run (by simp [hproper])

theorem nextEvent {i : Instr} {k : Nat} (hs : coherent s) (hseq : s.seq = .busy i k) : coherent (nextEvent s) := by
  have hb : s.busy = true := hs.sequencer.2 (by simp [hseq])
  rcases nextEvent_cases hseq with ⟨fb, rfl, e⟩ | ⟨-, e⟩ <;> rw [e]
  · rcases advanceRender_cases fb k s with
      ⟨a, ha, e⟩ | ⟨j, -, ⟨w, u, hj, hload, e⟩ | ⟨u, hj, hload, e⟩ | ⟨-, e⟩⟩ <;> rw [e]
    · exact ((hs.openDue fb k).run_act (leads_prologueActs s.cfg).1 ha).atEvent ((openDue_busy fb k s).trans hb) _ _
    · exact (hs.loadRow_error hj hload).takeFault _
    · have hbusy := (loadOnly_busy (loadDue_loadOnly hload)).trans hb
      exact ((hs.loadDue hj hload).run (leads_rawWritePart s.cfg u.lb _).1).atEvent hbusy _ _
    · exact hs.closeFrame.retire.complete
  · rcases advanceActs_cases i k (actsOf s.cfg i) s with ⟨-, e⟩ | ⟨a, ha, ⟨-, e⟩ | ⟨-, e⟩⟩ <;> rw [e]
    · exact hs.complete
    · exact (hs.run_act (actsOf_proper s.cfg i) ha).atEvent hb _ _
    · exact (hs.run_act (actsOf_proper s.cfg i) ha).complete

end coherent

/-! ## A step -/

/-- Once the owner's changes are in place, unless the operation still runs, the whole invariant holds (R67). -/
theorem coherent.settled {s : State} (hs : coherent s) : Consistent s.settleIfOver := by
  refine (consistent_iff _).2 ⟨{ hs with source := ?_ }, fun hb => ?_⟩
  · rw [State.settleIfOver_source]
    split
    · exact hs.source
    · exact Memory.wf_writeAll _ _ _ hs.source
  · rw [State.settleIfOver_busy] at hb
    simp [hb]

theorem Consistent.coherent {s : State} (hs : Consistent s) : coherent s := ((consistent_iff s).1 hs).1

theorem advance_consistent {s : State} (hs : Consistent s) : Consistent s.advance := by
  cases hseq : s.seq with
  | idle => rwa [advance_idle hseq]
  | busy i k =>
    rw [advance_busy hseq]
    exact (hs.coherent.nextEvent hseq).settled

theorem ownerWrite_consistent {s : State} (hs : Consistent s) (fb : Handle) (index : BitVec 32) (value : Option Nat) :
    Consistent (s.ownerWrite fb index value) := by
  obtain ⟨hs, hflight⟩ := (consistent_iff s).1 hs
  refine (consistent_iff _).2 ⟨{ hs with source := ?_ }, fun hb => ?_⟩
  · rw [State.ownerWrite_source]
    split
    · exact hs.source
    · exact Memory.wf_write _ _ _ _ hs.source fun x hx => Memory.clipWord_lt _ _ x hx
  · rw [State.ownerWrite_busy] at hb
    simp [hb, hflight hb]

theorem powerReset_consistent {s : State} (hc : legal s.cfg) (hm : Memory.wf s.cfg.wordBits s.source = true) :
    Consistent s.powerReset :=
  (consistent_iff _).2 ⟨{
    config := hc
    source := hm
    lineBuffer := List.length_replicate
    viewport := ⟨Nat.zero_le _, Nat.zero_le _, Nat.zero_le _, Nat.zero_le _⟩
    counters := ⟨Nat.zero_le _, Nat.zero_le _, Nat.zero_le _, Nat.zero_le _⟩
    pins := rfl
    session := by simp [csAgrees, Pins.reset]
    sequencer := by simp }, fun _ => rfl⟩

/-- Settles O59, by the kind of move on the tape. -/
theorem stepKeepsConsistent : Obligations.StepKeepsConsistent := by
  unfold Obligations.StepKeepsConsistent
  intro s t hs h
  rcases step_next h with ⟨-, rfl⟩ | ⟨rest, -, rfl⟩ | ⟨e, during, rest, i, u, -, -, hu, rfl⟩ |
    ⟨e, rest, i, u, -, -, hu, rfl⟩ | ⟨fb, index, value, rest, -, rfl⟩ | ⟨rest, -, rfl⟩
  · exact advance_consistent hs
  · exact advance_consistent (s := { s with tape := rest }) hs
  · have hport : coherent { s with tape := rest, inFlight := s.inFlight ++ during } := { hs.coherent with }
    exact (hport.exec hu).settled
  · have hport : coherent { s with tape := rest } := { hs.coherent with }
    exact (hport.startRequest hu).settled
  · exact ownerWrite_consistent (s := { s with tape := rest }) hs fb index value
  · exact powerReset_consistent (s := { s with tape := rest }.settle) hs.coherent.config
      (Memory.wf_writeAll _ _ _ hs.coherent.source)

end Sys2Proof.Machine

/-! PROOF. The events of an operation, numbered as the spec lists them, and a step at a tick (`10_state.md` R33). -/

namespace Sys2Proof.Machine
open Sys2Proof Sys2Proof.Spec

/-! ## The event lists of the spec (R131 to R142, R171 to R173) -/

theorem hi8_eq (v : Half) : hi8 v = BitVec.ofNat 8 (v.toNat / 256) := by
  apply BitVec.eq_of_toNat_eq
  simp [hi8, Nat.shiftRight_eq_div_pow]

theorem lo8_eq (v : Half) : lo8 v = BitVec.ofNat 8 v.toNat := by
  apply BitVec.eq_of_toNat_eq
  simp [lo8]

theorem windowBytes_eq (first last : Half) : windowBytes first last = blockBytes first last := by
  simp [windowBytes, blockBytes, hi8_eq, lo8_eq]

theorem events_xferActs (bytes : List Byte) :
    events (xferActs bytes) = if bytes = [] then [] else [.xfer bytes] := by
  cases bytes <;> rfl

theorem events_cmdActs (c : Config) (code : Byte) : events (cmdActs c code) = cmdEvents c code := by
  unfold cmdActs cmdEvents
  cases c.variant <;> rfl

theorem events_dataActs (c : Config) (bytes : List Byte) : events (dataActs c bytes) = dataEvents c bytes := by
  unfold dataActs dataEvents
  cases c.variant with
  | A => exact congrArg _ (events_xferActs bytes)
  | B => exact events_flatMap bytes dataFrameB

theorem events_rawWriteActs (c : Config) (bytes : List Byte) : events (rawWriteActs c bytes) = rawEvents c bytes := by
  unfold rawWriteActs rawEvents
  cases c.variant with
  | A => exact events_xferActs bytes
  | B =>
    refine (events_flatMap bytes _).trans (List.flatMap_congr fun b _ => ?_)
    cases c.bRawModeBit <;> rfl

theorem events_sendCmdActs (c : Config) (code : Byte) : events (sendCmdActs c code) = session (cmdEvents c code) := by
  simp [sendCmdActs, session, Act.event, events_cmdActs]

theorem events_sendDataActs_eq (c : Config) (bytes : List Byte) :
    events (sendDataActs c bytes) = session (dataEvents c bytes) := by
  simp [sendDataActs, session, Act.event, events_dataActs]

theorem events_beginStreamActs (c : Config) : events (beginStreamActs c) = streamEvents c := by
  unfold beginStreamActs streamEvents
  cases c.variant <;> rfl

theorem events_setWindowActs (c : Config) (x0 y0 x1 y1 : Half) :
    events (setWindowActs c x0 y0 x1 y1) = windowEvents c x0 y0 x1 y1 := by
  simp [setWindowActs, windowEvents, events_sendCmdActs, events_sendDataActs_eq, windowBytes_eq]

theorem events_beginFrameActs (c : Config) :
    events (beginFrameActs c) = session (cmdEvents c c.cmdRamwr) ++ streamEvents c := by
  rw [beginFrameActs, events_append, events_sendCmdActs, events_beginStreamActs]

theorem events_prologueActs (c : Config) : events (prologueActs c) = renderOpening c := by
  rw [prologueActs, events_append, events_setWindowActs, events_beginFrameActs, ← List.append_assoc]
  rfl

/-- The acts of every operation but RENDER make the spec's event list (R33). -/
theorem events_actsOf (c : Config) {i : Instr} (hi : ∀ fb, i ≠ .render fb) :
    events (actsOf c i) = opEvents c i := by
  cases i with
  | render fb => exact absurd rfl (hi fb)
  | reserved0 | reservedA | reservedB | reservedC | reservedD | reservedE | reservedF => rfl
  | endStream | endFrame => rfl
  | sendCmd | frameACmd | frameBCmd | cmdCaset | cmdRaset | cmdRamwr => exact events_sendCmdActs c _
  | sendData | frameAData | frameBData => exact events_sendDataActs_eq c _
  | windowParamBlock first last =>
    rw [actsOf, windowBlockActs, windowBytes_eq]
    exact events_sendDataActs_eq c _
  | rawWrite => exact events_rawWriteActs c _
  | pixelPair p =>
    refine (events_rawWriteActs c (pixelBytes p)).trans (congrArg (rawEvents c) ?_)
    rw [pixelBytes, hi8_eq, lo8_eq]
  | beginStream => exact events_beginStreamActs c
  | setWindow => exact events_setWindowActs c _ _ _ _
  | beginFrame => exact events_beginFrameActs c

theorem length_events (acts : List Act) : (events acts).length = acts.length := List.length_map _

/-! ## How many events a RENDER has (R145, R210) -/

theorem length_rawByteB (modeBit : Bool) (b : Byte) : (rawByteB modeBit b).length = if modeBit then 45 else 40 := by
  cases modeBit <;> rfl

/-- A row of the panel's width has as many acts as the row transmit has events. -/
theorem length_rawWriteActs {c : Config} {bytes : List Byte} (hc : legal c) (hl : bytes.length = 2 * c.wDst) :
    (rawWriteActs c bytes).length = rowEvents c := by
  have hw : 1 ≤ c.wDst := (legal_iff c).1 hc .wDstMin
  have hne : bytes ≠ [] := by
    rintro rfl
    simp at hl
    omega
  unfold rawWriteActs rowEvents
  cases c.variant with
  | A => simp [xferActs, hne]
  | B => simp [List.length_flatMap, length_rawByteB, hl]

theorem rowEvents_pos {c : Config} (hc : legal c) : 0 < rowEvents c := by
  have hw : 1 ≤ c.wDst := (legal_iff c).1 hc .wDstMin
  unfold rowEvents
  cases c.variant with
  | A => exact Nat.one_pos
  | B => cases c.bRawModeBit <;> simp <;> omega

theorem length_opEvents_render {c : Config} (hc : legal c) (fb : Handle) :
    (opEvents c (.render fb)).length = (prologueActs c).length + c.hDst * rowEvents c + 1 := by
  have hrow : (rawEvents c (List.replicate (2 * c.wDst) 0x00#8)).length = rowEvents c := by
    rw [← events_rawWriteActs, length_events]
    exact length_rawWriteActs hc List.length_replicate
  rw [opEvents, renderEvents, ← events_prologueActs]
  simp [length_events, hrow, Nat.add_assoc]

/-! ## One event of the list -/

/-- `t` is `s` with event `k` of the operation on the bus; of a RENDER, with one event (R33). -/
def appendsEvent (s : State) (i : Instr) (k : Nat) (t : State) : Prop :=
  ∃ e, t.bus = s.bus ++ [e] ∧ ((∀ fb, i ≠ .render fb) → (opEvents s.cfg i)[k]? = some e)

/-- The operation is over. -/
def ended (t : State) : Prop := t.seq = .idle ∧ t.busy = false

/-- The three outcomes of event `k` of an operation of `n` events: one event with more to come; the end, with the last
event or past it; the end at a word that RENDER cannot read (R33, R235). -/
def eventOutcome (s : State) (i : Instr) (k n : Nat) (t : State) : Prop :=
  (k + 1 < n ∧ t.seq = .busy i (k + 1) ∧ t.busy = true ∧ appendsEvent s i k t) ∨
  (n ≤ k + 1 ∧ ended t ∧ (k < n → appendsEvent s i k t) ∧ ((∃ e, t.bus = s.bus ++ [e]) ∨ t.bus = s.bus)) ∨
  (∃ fb w, i = .render fb ∧ ended t ∧ t.bus = s.bus ∧ t.fault = some (s.fault.getD (.sourceUndefined w)))

theorem advanceActs_eventOutcome {s : State} {i : Instr} (k : Nat) (hi : ∀ fb, i ≠ .render fb) (hb : s.busy = true) :
    eventOutcome s i k (opEvents s.cfg i).length (advanceActs i k (actsOf s.cfg i) s) := by
  rw [eventOutcome, ← events_actsOf s.cfg hi, length_events]
  have happends : ∀ {a t}, (actsOf s.cfg i)[k]? = some a → t.bus = s.bus ++ [a.event] → appendsEvent s i k t := by
    intro a t ha ht
    refine ⟨a.event, ht, fun _ => ?_⟩
    rw [← events_actsOf s.cfg hi, events, List.getElem?_map, ha]
    rfl
  rcases advanceActs_cases i k (actsOf s.cfg i) s with ⟨hk, e⟩ | ⟨a, ha, ⟨hk, e⟩ | ⟨hk, e⟩⟩ <;> rw [e]
  · exact .inr (.inl ⟨by omega, ⟨rfl, rfl⟩, fun h => absurd h (by omega), .inr rfl⟩)
  · exact .inl ⟨hk, rfl, hb, happends ha rfl⟩
  · exact .inr (.inl ⟨by omega, ⟨rfl, rfl⟩, fun _ => happends ha rfl, .inl ⟨a.event, rfl⟩⟩)

theorem advanceRender_eventOutcome {s : State} (hs : coherent s) (hb : s.busy = true) (fb : Handle) (k : Nat) :
    eventOutcome s (.render fb) k (opEvents s.cfg (.render fb)).length (advanceRender fb k s) := by
  have hpos := rowEvents_pos hs.config
  have happends : ∀ {e t}, t.bus = s.bus ++ [e] → appendsEvent s (.render fb) k t := fun ht =>
    ⟨_, ht, fun h => absurd rfl (h fb)⟩
  rw [eventOutcome, length_opEvents_render hs.config]
  rcases advanceRender_cases fb k s with
    ⟨a, ha, e⟩ | ⟨j, hk, ⟨w, u, -, hload, e⟩ | ⟨u, hj, hload, e⟩ | ⟨hj, e⟩⟩ <;> rw [e]
  · obtain ⟨hk, -⟩ := List.getElem?_eq_some_iff.1 ha
    refine .inl ⟨by omega, rfl, (openDue_busy fb k s).trans hb, happends (e := a.event) ?_⟩
    simp [openDue_bus]
  · have ho := (loadRow_error hload).1
    refine .inr (.inr ⟨fb, w, rfl, ⟨rfl, rfl⟩, (loadOnly_bus ho :), ?_⟩)
    rw [State.takeFault_fault, loadOnly_fault ho]
  · have ho := loadDue_loadOnly hload
    have hlen : (rawWriteActs s.cfg u.lb).length = rowEvents s.cfg :=
      length_rawWriteActs hs.config (loadOnly_cfg ho ▸ (hs.loadDue hj hload).lineBuffer)
    have hlt : j % rowEvents s.cfg < (rawWriteActs s.cfg u.lb).length := by
      rw [hlen]
      exact Nat.mod_lt _ hpos
    obtain ⟨a, ha⟩ : ∃ a, (rawWriteActs s.cfg u.lb)[j % rowEvents s.cfg]? = some a := ⟨_, List.getElem?_eq_getElem hlt⟩
    rw [Nat.div_lt_iff_lt_mul hpos] at hj
    refine .inl ⟨by omega, rfl, (loadOnly_busy ho).trans hb, happends (e := a.event) ?_⟩
    simp [ha, loadOnly_bus ho]
  · rw [Nat.le_div_iff_mul_le hpos] at hj
    refine .inr (.inl ⟨by omega, ⟨rfl, rfl⟩, fun _ => happends rfl, .inl ⟨_, rfl⟩⟩)

/-! ## A step -/

/-- The spec's state with the owner's changes in place is the model's (R67). -/
theorem settleIfOver_eq (s : State) : s.settleIfOver = settledState s := by
  unfold State.settleIfOver settledState
  split <;> rfl

/-- Settles O6: a step at a tick is `nextEvent`, and each kind of operation says what that does. -/
theorem sequencerAdvancesByOneEvent : Obligations.SequencerAdvancesByOneEvent := by
  unfold Obligations.SequencerAdvancesByOneEvent
  intro s i k hs hseq
  have hb : s.busy = true := hs.coherent.sequencer.2 (by simp [hseq])
  refine ⟨fun htape => ?_, fun rest htape => ?_, ?_⟩
  · simp only [step, serve, htape, advance_busy hseq, settleIfOver_eq]
  · have hseq' : ({ s with tape := rest } : State).seq = .busy i k := hseq
    simp only [step, serve, htape, advance_busy hseq', settleIfOver_eq]
  · rcases nextEvent_cases hseq with ⟨fb, rfl, e⟩ | ⟨hi, e⟩ <;> rw [e]
    · exact advanceRender_eventOutcome hs.coherent hb fb k
    · exact advanceActs_eventOutcome k hi hb

/-- Settles O4: `deliver` runs what decodes and refuses what does not. -/
theorem stepRunsTheDecodedInstruction : Obligations.StepRunsTheDecodedInstruction := by
  unfold Obligations.StepRunsTheDecodedInstruction
  have hsettled : ∀ o, settled o = settledOutcome o
    | .next u => congrArg Host.Outcome.next (settleIfOver_eq u)
    | .fault _ => rfl
    | .refused _ => rfl
  intro s e rest
  refine ⟨fun during htape => ⟨fun i hi => ?_, fun d hd => ?_⟩, fun htape => ⟨fun i hi => ?_, fun d hd => ?_⟩⟩
  · simp only [step, serve, htape, deliver, hi, hsettled]
  · simp only [step, serve, htape, deliver, hd, settled]
  · simp only [step, serve, htape, deliver, hi, hsettled]
  · simp only [step, serve, htape, deliver, hd, settled]

end Sys2Proof.Machine

/-! PROOF. No instruction but RENDER uses the renderer's registers (`10_state.md` R22, R41). -/

namespace Sys2Proof.Machine
open Sys2Proof Sys2Proof.Spec

/-- The same state with other values in the renderer's registers. -/
def State.withRenderer (vp : Viewport) (ctr : Counters) (fb : Handle) (lb : List Byte) (s : State) : State :=
  { s with vp := vp, ctr := ctr, fb := fb, lb := lb }

/-- The next state of an outcome, changed. -/
def mapNext (f : State → State) : Host.Outcome State Fault Refusal → Host.Outcome State Fault Refusal
  | .next s => .next (f s)
  | .fault r => .fault r
  | .refused r => .refused r

/-- What does the same whatever the renderer's registers hold, and leaves them as they are. -/
def blind (run : State → Host.Outcome State Fault Refusal) : Prop :=
  ∀ s vp ctr fb lb, run (s.withRenderer vp ctr fb lb) = mapNext (State.withRenderer vp ctr fb lb) (run s)

theorem blind_ite {test : State → Prop} [DecidablePred test] {yes no : State → Host.Outcome State Fault Refusal}
    (htest : ∀ s vp ctr fb lb, test (s.withRenderer vp ctr fb lb) = test s) (hyes : blind yes) (hno : blind no) :
    blind fun s => if test s then yes s else no s := by
  intro s vp ctr fb lb
  have htest := htest s vp ctr fb lb
  by_cases h : test s
  · have h' : test (s.withRenderer vp ctr fb lb) := htest ▸ h
    simp only [if_pos h, if_pos h']
    exact hyes s vp ctr fb lb
  · have h' : ¬ test (s.withRenderer vp ctr fb lb) := htest ▸ h
    simp only [if_neg h, if_neg h']
    exact hno s vp ctr fb lb

theorem blind_guarded {body : State → Host.Outcome State Fault Refusal} (h : blind body) :
    blind fun s => guarded s body := by
  intro s vp ctr fb lb
  have hfault : (s.withRenderer vp ctr fb lb).fault = s.fault := rfl
  have hcfg : (s.withRenderer vp ctr fb lb).cfg = s.cfg := rfl
  simp only [guarded, hfault, hcfg]
  cases s.fault with
  | some f => rfl
  | none =>
    cases firstBroken s.cfg with
    | some b => rfl
    | none => exact h s vp ctr fb lb

theorem blind_accept (i : Instr) {body : State → Host.Outcome State Fault Refusal} (h : blind body) :
    blind fun s => accept i s body :=
  blind_guarded (blind_ite (fun _ _ _ _ _ => rfl) (fun _ _ _ _ _ => rfl)
    fun s => h { s with busy := true, seq := .busy i 0 })

theorem blind_withSession (op : Op) {body : State → Host.Outcome State Fault Refusal} (h : blind body) :
    blind fun s => withSession op s body :=
  blind_ite (fun _ _ _ _ _ => rfl) h fun _ _ _ _ _ => rfl

theorem blind_perform (i : Instr) (op : Op) (acts : Config → List Act) :
    blind fun s => perform i op (acts s.cfg) s := fun s =>
  blind_accept i (blind_withSession op (body := fun u => .next (u.run (acts s.cfg)).complete) fun _ _ _ _ _ => rfl) s

theorem blind_reject (i : Instr) (code : BitVec 4) : blind (reject i code) :=
  blind_accept i fun _ _ _ _ _ => rfl

/-- A bus frame: an operation in its own variant only. -/
theorem blind_frame (v : Variant) (i : Instr) (op : Op) (acts : Config → List Act) :
    blind fun s => onVariant v s (perform i op (acts s.cfg)) := fun s =>
  blind_guarded (blind_ite (fun _ _ _ _ _ => rfl) (blind_perform i op fun _ => acts s.cfg) fun _ _ _ _ _ => rfl) s

theorem exec_blind {i : Instr} (hi : ∀ fb, i ≠ .render fb) : blind (exec i) := by
  cases i with
  | render fb => exact absurd rfl (hi fb)
  | reserved0 | reservedA | reservedB | reservedC | reservedD | reservedE | reservedF => exact blind_reject _ _
  | frameACmd code | frameBCmd code => exact blind_frame _ _ _ fun c => sendCmdActs c code
  | frameAData byte | frameBData byte => exact blind_frame _ _ _ fun c => sendDataActs c [byte]
  | sendCmd code => exact blind_perform _ _ fun c => sendCmdActs c code
  | cmdCaset => exact blind_perform _ _ fun c => sendCmdActs c c.cmdCaset
  | cmdRaset => exact blind_perform _ _ fun c => sendCmdActs c c.cmdRaset
  | cmdRamwr => exact blind_perform _ _ fun c => sendCmdActs c c.cmdRamwr
  | sendData bytes => exact blind_perform _ _ fun c => sendDataActs c bytes
  | windowParamBlock first last => exact blind_perform _ _ fun c => windowBlockActs c first last
  | rawWrite bytes => exact blind_perform _ _ fun c => rawWriteActs c bytes
  | pixelPair p => exact blind_perform _ _ fun c => pixelPairActs c p
  | beginStream => exact blind_perform _ _ beginStreamActs
  | setWindow x0 y0 x1 y1 => exact blind_perform _ _ fun c => setWindowActs c x0 y0 x1 y1
  | beginFrame => exact blind_perform _ _ beginFrameActs
  | endStream => exact blind_perform _ _ fun _ => endStreamActs
  | endFrame => exact blind_perform _ _ fun _ => endFrameActs

/-- Settles O54: every meaning but RENDER's is built from checks and acts that are blind to the registers. -/
theorem onlyRenderUsesItsRegisters : Obligations.OnlyRenderUsesItsRegisters := by
  unfold Obligations.OnlyRenderUsesItsRegisters
  intro i s t hi h
  refine ⟨?_, fun vp ctr fb lb => ?_⟩
  · obtain ⟨-, ⟨f, rfl⟩ | ⟨-, op, -, -, -, -, rfl⟩ | ⟨-, fb, rfl, -⟩⟩ := exec_next h
    · exact ⟨rfl, rfl, rfl, rfl⟩
    · exact ⟨rfl, rfl, rfl, rfl⟩
    · exact absurd rfl (hi fb)
  · have hblind := exec_blind hi s vp ctr fb lb
    rw [h] at hblind
    exact hblind

end Sys2Proof.Machine

/-! PROOF. Running an operation in one step is running its events one by one (`10_state.md` R32, R33, R35). -/

namespace Sys2Proof.Machine
open Sys2Proof Sys2Proof.Spec

/-! ## Acceptance (R239) -/

theorem sessTable_required (op : Op) : (sessTable op).1 = requiredSess op := by cases op <;> rfl

/-- A request that passes the checks is accepted, and nothing else changes (R32). -/
theorem startRequest_accepts {i : Instr} {op : Op} {s : State} (ho : opOf i = some op) (ha : available i s.cfg)
    (hr : ready s) (hs : s.sess = requiredSess op) :
    startRequest i s = .next { s with busy := true, seq := .busy i 0 } := by
  obtain ⟨hc, hf, hb⟩ := hr
  have haccept : accept i s (fun s => withSession op s fun s => .next s) =
      .next { s with busy := true, seq := .busy i 0 } := by
    rw [accept_pass _ _ _ hc hf hb]
    exact if_pos hs
  unfold startRequest
  rw [ho]
  cases hv : onlyIn i with
  | none => exact haccept
  | some v => exact (onVariant_pass v s _ hc hf (ha v hv)).trans haccept

/-! ## Runs of events -/

/-- One event of an operation in progress. -/
def busyEvent (s t : State) : Prop := s.busy = true ∧ t = nextEvent s

/-- Some number of events leads from one state to the other, with `BUSY` at 1 until then. -/
abbrev runsTo : State → State → Prop := Relation.ReflTransGen busyEvent

theorem runsTo_of_event {s t u : State} (hb : s.busy = true) (ht : nextEvent s = t) (h : runsTo t u) : runsTo s u :=
  .head ⟨hb, ht.symm⟩ h

theorem nextEvents_of_runsTo {s t : State} (h : runsTo s t) :
    ∃ n, nextEvents n s = t ∧ ∀ m, m < n → (nextEvents m s).busy = true := by
  induction h using Relation.ReflTransGen.head_induction_on with
  | refl => exact ⟨0, rfl, nofun⟩
  | head hevent _ ih =>
    obtain ⟨hb, rfl⟩ := hevent
    obtain ⟨n, hn, hbusy⟩ := ih
    refine ⟨n + 1, hn, fun m hm => ?_⟩
    cases m with
    | zero => exact hb
    | succ m => exact hbusy m (Nat.lt_of_succ_lt_succ hm)

/-! ## Operations with acts of their own -/

theorem nextEvent_acts {i : Instr} (hi : ∀ fb, i ≠ .render fb) (k : Nat) (s : State) :
    nextEvent (s.atEvent i k) = advanceActs i k (actsOf s.cfg i) (s.atEvent i k) := by
  rcases nextEvent_cases (s := s.atEvent i k) rfl with ⟨fb, rfl, -⟩ | ⟨-, e⟩
  · exact absurd rfl (hi fb)
  · exact e

/-- From any of its acts an operation runs to its end. -/
theorem runsTo_acts {i : Instr} (hi : ∀ fb, i ≠ .render fb) (rest : List Act) {pre : List Act} {a : Act} {s : State}
    (hacts : actsOf s.cfg i = pre ++ a :: rest) (hb : s.busy = true) :
    runsTo (s.atEvent i pre.length) (s.run (a :: rest)).complete := by
  have hnext := nextEvent_acts hi pre.length s
  have hk : (actsOf s.cfg i)[pre.length]? = some a := by simp [hacts]
  induction rest generalizing pre a s with
  | nil =>
    have hlast : advanceActs i pre.length (actsOf s.cfg i) (s.atEvent i pre.length) = (s.run [a]).complete := by
      simp only [advanceActs, hk]
      exact if_neg (by simp [hacts])
    exact runsTo_of_event hb (hnext.trans hlast) .refl
  | cons a' rest ih =>
    have hmore : advanceActs i pre.length (actsOf s.cfg i) (s.atEvent i pre.length) =
        (s.run [a]).atEvent i (pre ++ [a]).length := by
      simp only [advanceActs, hk]
      rw [if_pos (by simp [hacts]), List.length_append]
      rfl
    have hacts' : actsOf s.cfg i = (pre ++ [a]) ++ a' :: rest := by simp [hacts]
    rw [run_cons]
    have hrest := ih (s := s.run [a]) hacts' hb (nextEvent_acts hi _ _) (by simp [hacts])
    exact runsTo_of_event hb (hnext.trans hmore) hrest

theorem runsTo_actsOf {i : Instr} (hi : ∀ fb, i ≠ .render fb) {s : State} (hb : s.busy = true) :
    runsTo (s.atEvent i 0) (s.run (actsOf s.cfg i)).complete := by
  cases hacts : actsOf s.cfg i with
  | nil =>
    have hend : nextEvent (s.atEvent i 0) = (s.run []).complete := by
      rw [nextEvent_acts hi, hacts, run_nil]
      rfl
    exact runsTo_of_event hb hend .refl
  | cons a rest => exact runsTo_acts hi rest (pre := []) hacts hb

/-! ## Loading a row does not look at `SEQ` -/

/-- The same end of a row with `SEQ` at another event. -/
def loadAtEvent (i : Instr) (k : Nat) : Except (Nat × State) State → Except (Nat × State) State
  | .error (w, s) => .error (w, s.atEvent i k)
  | .ok s => .ok (s.atEvent i k)

theorem fillColumn_atEvent (i : Instr) (k x : Nat) (s : State) :
    (s.atEvent i k).fillColumn x = loadAtEvent i k (s.fillColumn x) := by
  have hsample : (s.atEvent i k).sampleAt x = s.sampleAt x := rfl
  rw [fillColumn_eq, fillColumn_eq, hsample]
  cases s.sampleAt x <;> rfl

theorem fillColumns_atEvent (i : Instr) (k : Nat) (xs : List Nat) (s : State) :
    (s.atEvent i k).fillColumns xs = loadAtEvent i k (s.fillColumns xs) := by
  induction xs generalizing s with
  | nil => rfl
  | cons x xs ih =>
    rw [State.fillColumns, State.fillColumns, fillColumn_atEvent]
    cases s.fillColumn x with
    | error e => rfl
    | ok u => exact ih u

/-- `COL` reaches `ACT_W` when the columns' loop ends (R24). -/
def endColumns : Except (Nat × State) State → Except (Nat × State) State
  | .error e => .error e
  | .ok s => .ok { s with ctr := { s.ctr with col := s.vp.actW } }

theorem endColumns_atEvent (i : Instr) (k : Nat) (r : Except (Nat × State) State) :
    endColumns (loadAtEvent i k r) = loadAtEvent i k (endColumns r) := by
  cases r <;> rfl

theorem loadRow_atEvent (i : Instr) (k y : Nat) (s : State) :
    (s.atEvent i k).loadRow y = loadAtEvent i k (s.loadRow y) := by
  cases hb : inBand s.vp y with
  | false =>
    rw [loadRow_bar hb, loadRow_bar (s := s.atEvent i k) hb]
    rfl
  | true =>
    have hfill := fillColumns_atEvent i k (List.range s.vp.actW)
      { s with ctr := { s.ctr with row := y, srcY := srcRow s.cfg s.vp y }, lb := List.replicate (2 * s.cfg.wDst) 0#8 }
    rw [loadRow_band hb, loadRow_band (s := s.atEvent i k) hb]
    exact (congrArg endColumns hfill).trans (endColumns_atEvent i k _)

theorem loadRow_atEvent_ok {i : Instr} {k y : Nat} {s t : State} (h : s.loadRow y = .ok t) :
    (s.atEvent i k).loadRow y = .ok (t.atEvent i k) := by rw [loadRow_atEvent, h]; rfl

theorem loadRow_atEvent_error {i : Instr} {k y w : Nat} {s t : State} (h : s.loadRow y = .error (w, t)) :
    (s.atEvent i k).loadRow y = .error (w, t.atEvent i k) := by rw [loadRow_atEvent, h]; rfl

/-! ## RENDER -/

/-- From any act but the first the acts of a part of RENDER run to its end, where each event of the part is one act on
states with this configuration and this line buffer. -/
theorem runsTo_rest {i : Instr} {base : Nat} {acts : List Act} {c : Config} {lb : List Byte}
    (hstep : ∀ {w : State} {m : Nat} {a : Act}, w.cfg = c → w.lb = lb → 0 < m → acts[m]? = some a →
      nextEvent (w.atEvent i (base + m)) = (w.run [a]).atEvent i (base + m + 1))
    (rest : List Act) {pre : List Act} {u : State} (hacts : acts = pre ++ rest) (hpre : pre ≠ [])
    (hc : u.cfg = c) (hl : u.lb = lb) (hb : u.busy = true) :
    runsTo (u.atEvent i (base + pre.length)) ((u.run rest).atEvent i (base + acts.length)) := by
  induction rest generalizing pre u with
  | nil =>
    rw [run_nil, hacts, List.append_nil]
  | cons a rest ih =>
    have hk : acts[pre.length]? = some a := by simp [hacts]
    have hnext := hstep hc hl (List.length_pos_iff.2 hpre) hk
    have hmore := ih (pre := pre ++ [a]) (u := u.run [a]) (by simp [hacts]) (by simp) hc hl hb
    rw [List.length_append, List.length_singleton, ← Nat.add_assoc] at hmore
    rw [run_cons]
    exact runsTo_of_event hb hnext hmore

theorem nextEvent_render (fb : Handle) (k : Nat) (s : State) :
    nextEvent (s.atEvent (.render fb) k) = advanceRender fb k (s.atEvent (.render fb) k) := rfl

/-- RENDER runs through its opening (R195). -/
theorem runsTo_opening (fb : Handle) {u : State} (hb : u.busy = true) :
    runsTo (u.atEvent (.render fb) 0)
      (((u.startRender fb).run (prologueActs u.cfg)).atEvent (.render fb) (prologueActs u.cfg).length) := by
  obtain ⟨a, rest, hacts⟩ : ∃ a rest, prologueActs u.cfg = a :: rest := ⟨_, _, rfl⟩
  have hfirst : nextEvent (u.atEvent (.render fb) 0) = ((u.startRender fb).run [a]).atEvent (.render fb) (0 + 1) := by
    have ha : (prologueActs (u.atEvent (.render fb) 0).cfg)[0]? = some a := congrArg (·[0]?) hacts
    rw [nextEvent_render, advanceRender_opening ha]
    rfl
  have hstep : ∀ {w : State} {m : Nat} {a : Act}, w.cfg = u.cfg → w.lb = u.lb → 0 < m →
      (prologueActs u.cfg)[m]? = some a →
      nextEvent (w.atEvent (.render fb) (0 + m)) = (w.run [a]).atEvent (.render fb) (0 + m + 1) := by
    intro w m a hc _ hm ha
    have ha' : (prologueActs (w.atEvent (.render fb) (0 + m)).cfg)[0 + m]? = some a := by simpa [hc] using ha
    rw [nextEvent_render, advanceRender_opening ha', openDue, if_neg (by omega)]
    rfl
  have hrest := runsTo_rest hstep rest (pre := [a]) (u := (u.startRender fb).run [a]) hacts (by simp) rfl rfl hb
  rw [Nat.zero_add, Nat.zero_add, ← run_cons, ← hacts] at hrest
  exact runsTo_of_event hb hfirst hrest

/-- The event at which row `y` is due. -/
def rowStart (c : Config) (y : Nat) : Nat := (prologueActs c).length + y * rowEvents c

theorem rowIndex {n m : Nat} (y : Nat) (hm : m < n) : (y * n + m) / n = y ∧ (y * n + m) % n = m := by
  have hn : 0 < n := Nat.zero_lt_of_lt hm
  rw [Nat.mul_comm, Nat.mul_add_div hn, Nat.mul_add_mod, Nat.div_eq_of_lt hm, Nat.mod_eq_of_lt hm]
  exact ⟨rfl, rfl⟩

/-- Event `m` of row `y`, with the row in the line buffer. -/
theorem nextEvent_rowPart {fb : Handle} {c : Config} {y m : Nat} {a : Act} {s u : State} (hc : s.cfg = c)
    (hy : y < c.hDst) (hm : m < rowEvents c) (ha : (rawWriteActs c u.lb)[m]? = some a)
    (hload : ∀ k, loadDue y m (s.atEvent (.render fb) k) = .ok (u.atEvent (.render fb) k)) :
    nextEvent (s.atEvent (.render fb) (rowStart c y + m)) =
      (u.run [a]).atEvent (.render fb) (rowStart c y + m + 1) := by
  subst hc
  obtain ⟨hdiv, hmod⟩ := rowIndex y hm
  have hindex : rowStart s.cfg y + m = (prologueActs s.cfg).length + (y * rowEvents s.cfg + m) := Nat.add_assoc _ _ _
  have hpart := advanceRender_rowPart (fb := fb) (j := y * rowEvents s.cfg + m)
    (s := s.atEvent (.render fb) (rowStart s.cfg y + m)) (u := u.atEvent (.render fb) (rowStart s.cfg y + m))
    (by rwa [State.atEvent_cfg, hdiv]) (by rw [State.atEvent_cfg, hdiv, hmod]; exact hload _)
  rw [State.atEvent_cfg, State.atEvent_lb, hmod, ha, ← hindex] at hpart
  exact hpart

/-- A row that can be read is loaded and sent (R201). -/
theorem runsTo_row (fb : Handle) {c : Config} {y : Nat} {s u : State} (hc : s.cfg = c) (hlegal : legal c)
    (hb : s.busy = true) (hy : y < c.hDst) (hload : s.loadRow y = .ok u) :
    runsTo (s.atEvent (.render fb) (rowStart c y)) (u.sendRow.atEvent (.render fb) (rowStart c (y + 1))) := by
  obtain ⟨ho, hlb⟩ := loadRow_ok hload
  have hcu : u.cfg = c := (loadOnly_cfg ho).trans hc
  have hlen : (rawWriteActs c u.lb).length = rowEvents c := length_rawWriteActs hlegal (hc ▸ hlb)
  obtain ⟨a, rest, hacts⟩ : ∃ a rest, rawWriteActs c u.lb = a :: rest :=
    List.exists_cons_of_length_pos (hlen ▸ rowEvents_pos hlegal)
  have hfirst : nextEvent (s.atEvent (.render fb) (rowStart c y + 0)) =
      (u.run [a]).atEvent (.render fb) (rowStart c y + 0 + 1) :=
    nextEvent_rowPart hc hy (rowEvents_pos hlegal) (by simp [hacts]) fun k => loadRow_atEvent_ok hload
  have hstep : ∀ {w : State} {m : Nat} {a : Act}, w.cfg = c → w.lb = u.lb → 0 < m →
      (rawWriteActs c u.lb)[m]? = some a →
      nextEvent (w.atEvent (.render fb) (rowStart c y + m)) =
        (w.run [a]).atEvent (.render fb) (rowStart c y + m + 1) := by
    intro w m a hw hl hm ha
    obtain ⟨hlt, -⟩ := List.getElem?_eq_some_iff.1 ha
    exact nextEvent_rowPart hw hy (hlen ▸ hlt) (hl ▸ ha) fun k => if_neg (by omega)
  have hrest := runsTo_rest hstep rest (pre := [a]) (u := u.run [a]) hacts (by simp) hcu rfl
    ((loadOnly_busy ho).trans hb)
  have hend : rowStart c y + rowEvents c = rowStart c (y + 1) := by
    simp only [rowStart, Nat.succ_mul, Nat.add_assoc]
  rw [← run_cons, ← hacts, hlen, hend, ← hcu] at hrest
  exact runsTo_of_event hb hfirst (hcu ▸ hrest)

/-- A row that cannot be read ends the RENDER at its first event (R235, log 5). -/
theorem runsTo_rowFails (fb : Handle) {c : Config} {y w : Nat} {s u : State} (hc : s.cfg = c) (hlegal : legal c)
    (hb : s.busy = true) (hy : y < c.hDst) (hload : s.loadRow y = .error (w, u)) :
    runsTo (s.atEvent (.render fb) (rowStart c y)) (u.takeFault (.sourceUndefined w)) := by
  subst hc
  obtain ⟨hdiv, hmod⟩ := rowIndex y (rowEvents_pos hlegal)
  rw [Nat.add_zero] at hdiv hmod
  have hfails := advanceRender_rowFails (fb := fb) (j := y * rowEvents s.cfg) (w := w)
    (s := s.atEvent (.render fb) (rowStart s.cfg y)) (u := u.atEvent (.render fb) (rowStart s.cfg y))
    (by rwa [State.atEvent_cfg, hdiv])
    (by rw [State.atEvent_cfg, hdiv, hmod]; exact loadRow_atEvent_error hload)
  exact runsTo_of_event hb hfails .refl

/-- RENDER runs through its rows, to their end or to the read that fails. -/
theorem runsTo_rows (fb : Handle) {c : Config} (hlegal : legal c) (n : Nat) {y : Nat} {s : State} (hc : s.cfg = c)
    (hb : s.busy = true) (hn : y + n = c.hDst) :
    (∀ t, s.renderRows (List.range' y n) = .ok t → t.cfg = c ∧ t.busy = true ∧
      runsTo (s.atEvent (.render fb) (rowStart c y)) (t.atEvent (.render fb) (rowStart c c.hDst))) ∧
    ∀ w t, s.renderRows (List.range' y n) = .error (w, t) →
      runsTo (s.atEvent (.render fb) (rowStart c y)) (t.takeFault (.sourceUndefined w)) := by
  induction n generalizing y s with
  | zero =>
    rw [List.range'_zero, State.renderRows]
    refine ⟨fun t h => ?_, fun w t h => ?_⟩
    · cases h
      exact ⟨hc, hb, hn ▸ .refl⟩
    · cases h
  | succ n ih =>
    have hy : y < c.hDst := by omega
    rw [List.range'_succ, State.renderRows]
    cases hload : s.loadRow y with
    | error e =>
      refine ⟨fun t h => ?_, fun w t h => ?_⟩
      · cases h
      · cases h
        exact runsTo_rowFails fb hc hlegal hb hy hload
    | ok u =>
      obtain ⟨ho, -⟩ := loadRow_ok hload
      have hrow := runsTo_row fb hc hlegal hb hy hload
      obtain ⟨hok, herror⟩ := ih (y := y + 1) (s := u.sendRow) ((loadOnly_cfg ho).trans hc)
        ((loadOnly_busy ho).trans hb) (by omega)
      refine ⟨fun t h => ?_, fun w t h => ?_⟩
      · obtain ⟨hct, hbt, hrest⟩ := hok t h
        exact ⟨hct, hbt, hrow.trans hrest⟩
      · exact hrow.trans (herror w t h)

/-- RENDER, accepted, runs to the outcome of its body (R203). -/
theorem runsTo_renderOutcome (fb : Handle) {s t : State} (hlegal : legal s.cfg) (hb : s.busy = true)
    (h : renderOutcome (s.renderBody fb) = .next t) : runsTo (s.atEvent (.render fb) 0) t := by
  have hopening := runsTo_opening fb hb
  have hstart : rowStart s.cfg 0 = (prologueActs s.cfg).length := by rw [rowStart, Nat.zero_mul, Nat.add_zero]
  obtain ⟨hok, herror⟩ := runsTo_rows fb hlegal s.cfg.hDst (y := 0)
    (s := (s.startRender fb).run (prologueActs s.cfg)) rfl hb (Nat.zero_add _)
  rw [← List.range_eq_range', hstart] at hok herror
  rw [State.renderBody] at h
  cases hrows : ((s.startRender fb).run (prologueActs s.cfg)).renderRows (List.range s.cfg.hDst) with
  | error e =>
    rw [hrows] at h
    cases h
    exact hopening.trans (herror e.1 e.2 hrows)
  | ok u =>
    rw [hrows] at h
    cases h
    obtain ⟨hc, hbu, hrun⟩ := hok u hrows
    have hend : nextEvent (u.atEvent (.render fb) (rowStart u.cfg u.cfg.hDst)) = u.closeFrame.retire.complete :=
      advanceRender_end (s := u.atEvent (.render fb) (rowStart u.cfg u.cfg.hDst))
        (by rw [State.atEvent_cfg, Nat.mul_div_cancel _ (rowEvents_pos (hc ▸ hlegal))])
    rw [← hc] at hrun hopening
    exact (hopening.trans hrun).trans
      (runsTo_of_event (s := u.atEvent (.render fb) (rowStart u.cfg u.cfg.hDst)) hbu hend .refl)

/-! ## The two grains agree -/

/-- An instruction that runs as an operation is that operation whole, in its own variant where it has one. -/
theorem exec_eq_perform {i : Instr} {op : Op} (s : State) (ho : opOf i = some op) (hne : op ≠ .render) :
    exec i s =
      match onlyIn i with
      | some v => onVariant v s (perform i op (actsOf s.cfg i))
      | none => perform i op (actsOf s.cfg i) s := by
  cases i with
  | reserved0 | reservedA | reservedB | reservedC | reservedD | reservedE | reservedF => cases ho
  | render fb => exact absurd (Option.some.inj ho).symm hne
  | _ =>
    cases ho
    rfl

/-- With every check passed, an answer of `exec` is the operation completed. -/
theorem exec_completes {i : Instr} {op : Op} {s t : State} (ho : opOf i = some op) (hne : op ≠ .render) (hr : ready s)
    (hs : s.sess = requiredSess op) (h : exec i s = .next t) : t = (s.run (actsOf s.cfg i)).complete := by
  obtain ⟨hc, hf, hb⟩ := hr
  rw [exec_eq_perform s ho hne] at h
  have hperform : perform i op (actsOf s.cfg i) s = .next t := by
    cases hv : onlyIn i with
    | none => simpa only [hv] using h
    | some v =>
      rw [hv] at h
      obtain ⟨-, ⟨b, hbroken, -⟩ | ⟨-, -, h⟩⟩ := onVariant_next h
      · rw [hc] at hbroken
        cases hbroken
      · exact h
  rw [perform_completes i op _ s hc hf hb hs] at hperform
  exact (Host.Outcome.next.inj hperform).symm

/-- The same for RENDER: an answer of `exec` is the outcome of its body. -/
theorem execRender_outcome {fb : Handle} {s t : State} (hr : ready s) (hs : s.sess = .closed)
    (h : exec (.render fb) s = .next t) :
    renderOutcome ({ s with busy := true, seq := .busy (.render fb) 0 }.renderBody fb) = .next t := by
  obtain ⟨hc, -, hb⟩ := hr
  obtain ⟨-, ⟨b, hbroken, -⟩ | ⟨-, ⟨hbusy, -⟩ | ⟨-, hne, -⟩ | ⟨-, -, hout⟩⟩⟩ := execRender_next h
  · rw [hc] at hbroken
    cases hbroken
  · rw [hb] at hbusy
    cases hbusy
  · exact absurd hs hne
  · exact hout

/-- From acceptance an operation runs to the state `exec` answers. -/
theorem runsTo_exec {i : Instr} {s t : State} {op : Op} (ho : opOf i = some op) (hr : ready s)
    (hs : s.sess = requiredSess op) (h : exec i s = .next t) :
    runsTo { s with busy := true, seq := .busy i 0 } t := by
  by_cases hne : op = .render
  · subst hne
    cases i with
    | render fb =>
      exact runsTo_renderOutcome fb (s := { s with busy := true, seq := .busy (.render fb) 0 }) hr.1 rfl
        (execRender_outcome hr hs h)
    | _ => cases ho
  · have hi : ∀ fb, i ≠ .render fb := by
      rintro fb rfl
      exact hne (Option.some.inj ho).symm
    rw [exec_completes ho hne hr hs h]
    exact runsTo_actsOf hi (s := { s with busy := true, seq := .busy i 0 }) rfl

/-- Settles O7: acceptance leaves the operation at its first event, from which it runs to the state `exec` answers. -/
theorem wholeOperationIsItsEvents : Obligations.WholeOperationIsItsEvents := by
  unfold Obligations.WholeOperationIsItsEvents
  refine ⟨fun i op s ho ha hr hs => startRequest_accepts ho ha hr (hs.trans (sessTable_required op)), ?_⟩
  intro i s b t hstart hbusy hb h
  obtain ⟨hf, ⟨f, rfl⟩ | ⟨hc, op, ho, -, hs, rfl⟩⟩ := startRequest_next hstart
  · cases hbusy
  · obtain ⟨n, hn, hm⟩ := nextEvents_of_runsTo (runsTo_exec ho ⟨hc, hf, hb⟩ hs h)
    exact ⟨n, hn, (exec_ends h).1, hm⟩

end Sys2Proof.Machine

/-! PROOF. The source framebuffers (`20_memory.md` R60 to R67, R79): the layout of the pixels, a read while the owner
writes, the owner's moves, and that no instruction writes. -/

namespace Sys2Proof.Machine
open Sys2Proof Sys2Proof.Spec

/-! ## The layout of the source (R60, R64) -/

/-- A row of the source fits its stride: a word index inside the row is below it (R10). -/
theorem wordInRow_lt_stride {c : Config} (hc : legal c) {sx : Nat} (hx : sx < c.wSrc) : sx / c.wordBits < c.stride := by
  have hstride : c.stride = (c.wSrc + c.wordBits - 1) / c.wordBits := (legal_iff c).1 hc .stride
  have hbits : 1 ≤ c.wordBits := (legal_iff c).1 hc .wordBitsMin
  have hnext : (sx + c.wordBits) / c.wordBits ≤ c.stride := by
    rw [hstride]
    exact Nat.div_le_div_right (by omega)
  rwa [Nat.add_div_right _ hbits] at hnext

/-- The index of a word inside a row and the row come back from the word index. -/
theorem wordIndex_injective {c : Config} (hc : legal c) {sx sy sx' sy' : Nat} (hx : sx < c.wSrc) (hx' : sx' < c.wSrc)
    (h : wordIndex c sx sy = wordIndex c sx' sy') : sx / c.wordBits = sx' / c.wordBits ∧ sy = sy' := by
  obtain ⟨hdiv, hmod⟩ := rowIndex sy (wordInRow_lt_stride hc hx)
  obtain ⟨hdiv', hmod'⟩ := rowIndex sy' (wordInRow_lt_stride hc hx')
  unfold wordIndex at h
  rw [h] at hdiv hmod
  exact ⟨hmod.symm.trans hmod', hdiv.symm.trans hdiv'⟩

/-- Settles O38: word index and bit position give back the quotient and the remainder of the column. -/
theorem sourcePixelsHaveTheirOwnBits : Obligations.SourcePixelsHaveTheirOwnBits := by
  unfold Obligations.SourcePixelsHaveTheirOwnBits
  intro c hc sx sy sx' sy' hx _ hx' _
  have hbits : 1 ≤ c.wordBits := (legal_iff c).1 hc .wordBitsMin
  refine ⟨by unfold bitPosition; omega, fun hword hbit => ?_⟩
  obtain ⟨hquot, hrow⟩ := wordIndex_injective hc hx hx' hword
  have hrem : sx % c.wordBits = sx' % c.wordBits := by
    have hlt := Nat.mod_lt sx hbits
    have hlt' := Nat.mod_lt sx' hbits
    unfold bitPosition at hbit
    omega
  exact ⟨by rw [← Nat.div_add_mod sx c.wordBits, hquot, hrem, Nat.div_add_mod], hrow⟩

/-! ## A read while the owner writes (R67) -/

theorem mem_newContents {s : State} {a : Nat} {v : Option Nat} :
    v ∈ s.newContents a ↔ ∃ c ∈ s.inFlight, c.addr = a ∧ v = clipWord s.cfg.wordBits c.value := by
  simp [State.newContents, and_assoc, eq_comm]

/-- Whichever content the free choice picks, it is the old one or one of the new ones. -/
theorem pick_cases (old : Option Nat) (news : List (Option Nat)) (i : Nat) :
    ((old :: news)[i]?).getD old = old ∨ ((old :: news)[i]?).getD old ∈ news := by
  cases h : (old :: news)[i]? with
  | none => exact .inl rfl
  | some v => exact List.mem_cons.1 (List.mem_of_getElem? h)

/-- A read is the old content of the word or one that is in flight (R67). -/
theorem memRead_cases (s : State) (w : Nat) :
    s.memRead w = Memory.read (srcAddr s.fb w) s.source ∨ s.memRead w ∈ s.newContents (srcAddr s.fb w) := by
  unfold State.memRead
  cases s.newContents (srcAddr s.fb w) with
  | nil => exact .inl rfl
  | cons n ns => exact pick_cases _ (n :: ns) _

/-- Settles O43, from what a read can be. -/
theorem tornReadIsOldOrNew : Obligations.TornReadIsOldOrNew := by
  unfold Obligations.TornReadIsOldOrNew
  intro s w
  exact (memRead_cases s w).imp_right mem_newContents.1

/-! ## The owner's moves (R67, R79) -/

namespace Memory

theorem writeAll_append (n : Nat) (ws vs : List SrcWrite) (m : Memory) :
    Memory.writeAll n (ws ++ vs) m = Memory.writeAll n vs (Memory.writeAll n ws m) := List.foldl_append

/-- The last of several writes is what its word reads as. -/
theorem read_writeAll_last (n : Nat) (ws : List SrcWrite) (w : SrcWrite) (m : Memory) (h : Memory.wf n m = true) :
    Memory.read w.addr (Memory.writeAll n (ws ++ [w]) m) = clipWord n w.value := by
  rw [writeAll_append]
  exact read_write_same n w.addr _ _ (wf_writeAll n ws m h)

/-- Writes leave alone every word that none of them names. -/
theorem read_writeAll_other (n b : Nat) (ws : List SrcWrite) (m : Memory) (h : ∀ w ∈ ws, w.addr ≠ b) :
    Memory.read b (Memory.writeAll n ws m) = Memory.read b m := by
  induction ws generalizing m with
  | nil => rfl
  | cons w ws ih =>
    have hrest := ih (Memory.write w.addr (clipWord n w.value) m) fun v hv => h v (List.mem_cons_of_mem w hv)
    exact hrest.trans (read_write_other _ _ _ _ (h w List.mem_cons_self).symm)

end Memory

/-- A step at a move of the owner is that move. -/
theorem step_source {s : State} {fb : Handle} {index : BitVec 32} {value : Option Nat} {rest : List Input}
    (h : s.tape = .source fb index value :: rest) :
    step s = .next ({ s with tape := rest }.ownerWrite fb index value) := by
  simp only [step, serve, h]

/-- Between two operations the owner's move is in place at once (R79). -/
theorem ownerWrite_idle {s : State} (hb : s.busy = false) (fb : Handle) (index : BitVec 32) (value : Option Nat) :
    s.ownerWrite fb index value =
      { s with source := Memory.write (srcAddr fb index.toNat) (clipWord s.cfg.wordBits value) s.source } := by
  simp [State.ownerWrite, hb]

/-- During an operation it is in flight (R67). -/
theorem ownerWrite_busy {s : State} (hb : s.busy = true) (fb : Handle) (index : BitVec 32) (value : Option Nat) :
    s.ownerWrite fb index value =
      { s with inFlight := s.inFlight ++ [{ addr := srcAddr fb index.toNat, value := value }] } := by
  simp [State.ownerWrite, hb]

/-- Settles O51: the laws of a write, between two operations, during one, and after other writes. -/
theorem ownerMovesOneWord : Obligations.OwnerMovesOneWord := by
  unfold Obligations.OwnerMovesOneWord
  intro s fb index value rest hwf htape
  refine ⟨fun hb => ⟨_, step_source htape, ?_⟩, fun hb => ?_, fun earlier => ⟨?_, fun b hother => ?_⟩⟩
  · rw [ownerWrite_idle (s := { s with tape := rest }) hb]
    exact ⟨rfl, Memory.wf_write _ _ _ _ hwf fun x => Memory.clipWord_lt _ _ x, Memory.read_write_same _ _ _ _ hwf,
      fun b hne => Memory.read_write_other _ _ _ _ hne⟩
  · rw [step_source htape, ownerWrite_busy (s := { s with tape := rest }) hb]
    rfl
  · exact Memory.read_writeAll_last _ earlier ⟨_, value⟩ _ hwf
  · exact Memory.read_writeAll_other _ b earlier _ hother

/-! ## What the engine leaves alone (R62, R75) -/

/-- `t` has the framebuffers, the owner's changes in flight and the inputs to come of `s`. -/
def sameOutside (s t : State) : Prop := t.source = s.source ∧ t.inFlight = s.inFlight ∧ t.tape = s.tape

theorem sentOnly_sameOutside {acts : List Act} {s t : State} (h : sentOnly acts s t) : sameOutside s t := by
  rw [h]
  exact ⟨rfl, rfl, rfl⟩

/-- No instruction changes what is outside the engine (R62). -/
theorem exec_sameOutside {i : Instr} {s t : State} (h : exec i s = .next t) : sameOutside s t := by
  obtain ⟨-, ⟨f, rfl⟩ | ⟨-, op, -, -, -, -, rfl⟩ | ⟨-, fb, rfl, -, -, hr⟩⟩ := exec_next h
  · exact ⟨rfl, rfl, rfl⟩
  · exact ⟨rfl, rfl, rfl⟩
  · rcases render_cases fb s (viewport_band_le s.cfg) with
      ⟨bit, u, -, hu, e⟩ | ⟨bit, y, x, w, u, -, -, -, -, -, -, hu, -, -, e⟩ <;>
    · obtain rfl := Host.Outcome.next.inj (e.symm.trans hr)
      exact (sentOnly_sameOutside hu :)

/-- Settles O50: a fault, the acts of an operation and a RENDER all leave the outside alone. -/
theorem engineWritesNoMemory : Obligations.EngineWritesNoMemory := by
  unfold Obligations.EngineWritesNoMemory
  intro i s t h
  obtain ⟨hsource, hflight, htape⟩ := exec_sameOutside h
  exact ⟨fun a => congrArg (Memory.read a) hsource, hsource, exec_cfg h, htape, hflight⟩

/-- Settles O5: a move that brings no request is `advance`, which does nothing while `SEQ` is idle. -/
theorem idleEngineDoesNothing : Obligations.IdleEngineDoesNothing := by
  unfold Obligations.IdleEngineDoesNothing
  intro s hseq
  refine ⟨fun htape => ?_, fun rest htape => ?_⟩
  · simp only [step, serve, htape, advance_idle hseq]
  · simp only [step, serve, htape, advance_idle (s := { s with tape := rest }) hseq]

end Sys2Proof.Machine

/-! PROOF. The pixel bytes of a frame, by their number (`20_memory.md` R76, `42_renderer.md` R209). -/

namespace Sys2Proof.Machine
open Sys2Proof Sys2Proof.Spec

theorem length_rowBytes (c : Config) (image : Nat → Nat → Bool) (y : Nat) :
    (rowBytes c image y).length = 2 * c.wDst := by
  simp [rowBytes, pixelBytes, List.length_flatMap, Nat.mul_comm]

theorem length_frameBytes (c : Config) (image : Nat → Nat → Bool) :
    (frameBytes c image).length = 2 * c.wDst * c.hDst := by
  simp [frameBytes, List.length_flatMap, length_rowBytes, Nat.mul_comm]

/-- A frame with a byte has rows with bytes. -/
theorem rowLength_pos {c : Config} {k : Nat} (hk : k < 2 * c.wDst * c.hDst) : 0 < 2 * c.wDst :=
  Nat.pos_of_mul_pos_right (Nat.zero_lt_of_lt hk)

/-- A pixel is sent high byte first (R102). -/
theorem getElem?_pixelBytes (p : Half) {j : Nat} (hj : j < 2) :
    (pixelBytes p)[j]? = some (if j = 0 then BitVec.ofNat 8 (p.toNat / 256) else BitVec.ofNat 8 p.toNat) := by
  rw [pixelBytes, hi8_eq, lo8_eq]
  match j, hj with
  | 0, _ => rfl
  | 1, _ => rfl

theorem getElem?_rowBytes (c : Config) (image : Nat → Nat → Bool) (y : Nat) {j : Nat} (hj : j < 2 * c.wDst) :
    (rowBytes c image y)[j]? = (pixelBytes (pixel c image (j / 2) y))[j % 2]? := by
  rw [rowBytes, getElem?_flatMap_blocks _ 2 Nat.two_pos fun x => rfl, if_pos (by omega)]

theorem getElem?_frameBytes (c : Config) (image : Nat → Nat → Bool) {k : Nat} (hk : k < 2 * c.wDst * c.hDst) :
    (frameBytes c image)[k]? = (rowBytes c image (k / (2 * c.wDst)))[k % (2 * c.wDst)]? := by
  rw [frameBytes, getElem?_flatMap_blocks _ _ (rowLength_pos hk) (length_rowBytes c image), if_pos (by rwa [Nat.mul_comm])]

/-- Settles O39: rows of `2 × W_DST` bytes, pixels of two. -/
theorem pixelBytesInOrder : Obligations.PixelBytesInOrder := by
  unfold Obligations.PixelBytesInOrder
  intro c image k hk
  refine ⟨length_frameBytes c image, ?_⟩
  rw [getElem?_frameBytes c image hk, getElem?_rowBytes c image _ (Nat.mod_lt k (rowLength_pos hk)),
    getElem?_pixelBytes _ (Nat.mod_lt _ Nat.two_pos), Nat.mod_mul_right_mod]

end Sys2Proof.Machine

/-! PROOF. A RENDER whose buffer the owner writes meanwhile (`20_memory.md` R67): it still sends a whole frame. -/

namespace Sys2Proof.Machine
open Sys2Proof Sys2Proof.Spec

/-! ## Samples of a buffer that is written meanwhile -/

/-- `v` is the old or a new content of the word at `a`. -/
def oldOrNew (s : State) (a v : Nat) : Prop :=
  Memory.read a s.source = some v ∨ ∃ c ∈ s.inFlight, c.addr = a ∧ clipWord s.cfg.wordBits c.value = some v

/-- Every pixel of the source can be read, before and after each of the owner's changes. -/
def readableThroughout (s : State) (fb : Handle) : Prop :=
  (∀ sx sy, sx < s.cfg.wSrc → sy < s.cfg.hSrc → (sourceBit s.cfg s.source fb sx sy).isSome) ∧
  ∀ c ∈ s.inFlight, c.value.isSome

/-- A read is an old or a new content, if there is a value in all of them. -/
theorem memRead_oldOrNew {s : State} {w : Nat} (hold : (Memory.read (srcAddr s.fb w) s.source).isSome)
    (hnew : ∀ c ∈ s.inFlight, c.value.isSome) : ∃ v, s.memRead w = some v ∧ oldOrNew s (srcAddr s.fb w) v := by
  rcases memRead_cases s w with e | hmem
  · obtain ⟨v, hv⟩ := Option.isSome_iff_exists.1 hold
    exact ⟨v, e.trans hv, .inl hv⟩
  · obtain ⟨c, hc, haddr, e⟩ := mem_newContents.1 hmem
    obtain ⟨v, hv⟩ : ∃ v, clipWord s.cfg.wordBits c.value = some v := by
      obtain ⟨x, hx⟩ := Option.isSome_iff_exists.1 (hnew c hc)
      exact ⟨_, congrArg (clipWord s.cfg.wordBits) hx⟩
    exact ⟨v, e.trans hv, .inr ⟨c, hc, haddr, hv⟩⟩

theorem sampleBit_of_memRead {s : State} {v : Nat} (h : s.memRead (wordIndex s.cfg s.ctr.srcX s.ctr.srcY) = some v) :
    s.sampleBit = .ok (v.testBit (bitPosition s.cfg s.ctr.srcX)) := by
  simp only [State.sampleBit, h]

/-- The active pixels of a RENDER show a bit of an old or a new content. -/
theorem pixelSample_oldOrNew {s : State} {fb : Handle} (hc : legal s.cfg) (hs : readableThroughout s fb) {x y : Nat}
    (hy : inBand (viewport s.cfg) y = true) (hx : x < (viewport s.cfg).actW) :
    ∃ v,
      oldOrNew s (srcAddr fb (wordIndex s.cfg (srcCol s.cfg (viewport s.cfg) x) (srcRow s.cfg (viewport s.cfg) y))) v ∧
      (s.atRows fb).pixelSample y x = .ok (v.testBit (bitPosition s.cfg (srcCol s.cfg (viewport s.cfg) x))) := by
  obtain ⟨hold, hnew⟩ := hs
  have hbit := hold _ _ (srcCol_lt hc hx) (srcRow_lt hc hy)
  rw [sourceBit, Option.isSome_map] at hbit
  obtain ⟨v, hv, hcontent⟩ := memRead_oldOrNew (s := { s.atRows fb with
    ctr := { row := y, col := x, srcY := srcRow s.cfg (viewport s.cfg) y, srcX := srcCol s.cfg (viewport s.cfg) x } })
    hbit hnew
  exact ⟨v, hcontent, sampleBit_of_memRead hv⟩

/-! ## The whole frame -/

/-- An accepted RENDER has the outcome of its body. -/
theorem exec_render_accepted {s : State} {fb : Handle} (hr : ready s) (hs : s.sess = .closed) :
    exec (.render fb) s =
      renderOutcome ({ s with busy := true, seq := .busy (.render fb) 0 }.renderBody fb) := by
  obtain ⟨hc, hf, hb⟩ := hr
  change execRender fb s = _
  rw [execRender, accept_pass _ _ _ hc hf hb, withSession, if_pos (show s.sess = requiredSess .render from hs)]

/-- Where every sample succeeds, RENDER sends all rows and closes. -/
theorem exec_render_completes {s : State} {fb : Handle} (hr : ready s) (hs : s.sess = .closed)
    (hsample : ∀ y x, inBand (viewport s.cfg) y = true → x < (viewport s.cfg).actW →
      ∃ b, (s.atRows fb).pixelSample y x = .ok b) :
    ∃ bit u, (∀ y, y < s.cfg.hDst → inBand (viewport s.cfg) y = true → ∀ x, x < (viewport s.cfg).actW →
        (s.atRows fb).pixelSample y x = .ok (bit y x)) ∧
      sentOnly (rowsActs s.cfg (viewport s.cfg) bit (List.range s.cfg.hDst)) (s.atRows fb) u ∧
      exec (.render fb) s = .next u.closeFrame.retire.complete := by
  rw [exec_render_accepted hr hs]
  rcases render_cases fb s (viewport_band_le s.cfg) with h | ⟨bit, y, x, w, u, -, hy, hx, -, -, hfail, -⟩
  · exact h
  · obtain ⟨b, hb⟩ := hsample y x hy hx
    cases hb.symm.trans hfail

/-- The events of a RENDER that has sent all its rows (R203). -/
theorem closeFrame_bus {s u : State} {fb : Handle} {bit : Nat → Nat → Bool}
    (hu : sentOnly (rowsActs s.cfg (viewport s.cfg) bit (List.range s.cfg.hDst)) (s.atRows fb) u) :
    u.closeFrame.retire.complete.bus =
      s.bus ++ renderEvents s.cfg ((List.range s.cfg.hDst).map (rowOf s.cfg (viewport s.cfg) bit)) := by
  have hbus : u.bus = (s.bus ++ events (prologueActs s.cfg)) ++
      events (rowsActs s.cfg (viewport s.cfg) bit (List.range s.cfg.hDst)) := by
    rw [hu]
    rfl
  have hrows : events (rowsActs s.cfg (viewport s.cfg) bit (List.range s.cfg.hDst)) =
      ((List.range s.cfg.hDst).map (rowOf s.cfg (viewport s.cfg) bit)).flatMap (rawEvents s.cfg) := by
    rw [rowsActs, events_flatMap, List.flatMap_map]
    exact List.flatMap_congr fun y _ => events_rawWriteActs _ _
  have hclose : u.closeFrame.retire.complete.bus = u.bus ++ [.setCS .idle] := rfl
  rw [hclose, hbus, hrows, events_prologueActs, renderEvents, List.append_assoc, List.append_assoc, List.append_assoc]

/-- The pixels of a frame, column first, counted from the corner of the band. -/
def fromBand (vp : Viewport) (bit : Nat → Nat → Bool) (x y : Nat) : Bool := bit (y + vp.yPad) x

theorem fromBand_sub {vp : Viewport} {y : Nat} (hy : vp.yPad ≤ y) (bit : Nat → Nat → Bool) (x : Nat) :
    fromBand vp bit x (y - vp.yPad) = bit y x := by rw [fromBand, Nat.sub_add_cancel hy]

/-- A row by its pixels. -/
theorem rowOf_eq_pixels (c : Config) (vp : Viewport) (bit : Nat → Nat → Bool) (y : Nat) :
    rowOf c vp bit y =
      (List.range c.wDst).flatMap fun x =>
        if vp.yPad ≤ y ∧ y < vp.yPad + vp.actH ∧ vp.xPad ≤ x ∧ x < vp.xPad + vp.actW then
          (if fromBand vp bit (x - vp.xPad) (y - vp.yPad) then [0xFF#8, 0xFF#8] else [0x00#8, 0x00#8])
        else [0x00#8, 0x00#8] := by
  have hpair : ∀ b, [colourByte b, colourByte b] = if b then [0xFF#8, 0xFF#8] else [0x00#8, 0x00#8] := by decide
  unfold rowOf
  split
  next hb =>
    obtain ⟨hlo, hhi⟩ := (inBand_iff vp y).1 hb
    refine List.flatMap_congr fun x _ => ?_
    simp only [hlo, hhi, hpair, fromBand_sub, true_and]
  next hb =>
    rw [barRow_eq]
    refine List.flatMap_congr fun x _ => ?_
    rw [if_neg fun h => hb ((inBand_iff vp y).2 ⟨h.1, h.2.1⟩)]

/-- Settles O44: every sample reads an old or a new content, so no read fails and all rows are sent. -/
theorem tornFrameIsStillAFrame : Obligations.TornFrameIsStillAFrame := by
  unfold Obligations.TornFrameIsStillAFrame
  intro s fb hr hs hold hnew
  obtain ⟨bit, u, hbit, hu, hexec⟩ := exec_render_completes (fb := fb) hr hs fun y x hy hx =>
    let ⟨v, _, hv⟩ := pixelSample_oldOrNew hr.1 ⟨hold, hnew⟩ hy hx
    ⟨_, hv⟩
  refine ⟨_, fromBand (viewport s.cfg) bit, hexec, ?_, ?_, fun x y hx hy => ?_, ?_⟩
  · rw [hu]
    exact hr.2.1
  · rfl
  · have hband : inBand (viewport s.cfg) (y + (viewport s.cfg).yPad) = true := (inBand_iff _ _).2 (by omega)
    have hrow : y + (viewport s.cfg).yPad < s.cfg.hDst := by
      have hH := viewport_actH_le s.cfg
      have hpad : (viewport s.cfg).yPad = (s.cfg.hDst - (viewport s.cfg).actH) / 2 := rfl
      omega
    obtain ⟨v, hcontent, hv⟩ := pixelSample_oldOrNew hr.1 ⟨hold, hnew⟩ hband hx
    rw [srcRow, Nat.add_sub_cancel] at hcontent
    exact ⟨v, hcontent, Except.ok.inj ((hbit _ hrow hband x hx).symm.trans hv)⟩
  · rw [closeFrame_bus hu]
    exact congrArg (fun rows => s.bus ++ renderEvents s.cfg rows)
      (List.map_congr_left fun y _ => rowOf_eq_pixels s.cfg (viewport s.cfg) bit y)

end Sys2Proof.Machine

/-! PROOF. Bits of the buffer that belong to no source pixel affect nothing (`20_memory.md` R61). -/

namespace Sys2Proof.Machine
open Sys2Proof Sys2Proof.Spec

/-- The same state with other framebuffers. -/
def State.withSource (m : Memory) (s : State) : State := { s with source := m }

/-- The buffer is stable and the framebuffers `m` show the same source image as those of `s`. -/
def sameImage (m : Memory) (fb : Handle) (s : State) : Prop :=
  s.inFlight = [] ∧ ∀ sx sy, sx < s.cfg.wSrc → sy < s.cfg.hSrc →
    sourceBit s.cfg m fb sx sy = sourceBit s.cfg s.source fb sx sy

/-! ## Samples -/

/-- With nothing in flight, a sample is the source bit, or names the word that has none. -/
theorem sampleBit_stable {s : State} (hf : s.inFlight = []) :
    s.sampleBit = (sourceBit s.cfg s.source s.fb s.ctr.srcX s.ctr.srcY).elim
      (.error (wordIndex s.cfg s.ctr.srcX s.ctr.srcY)) .ok := by
  simp only [State.sampleBit, State.memRead, State.newContents, hf, List.filter_nil, List.map_nil, sourceBit]
  cases Memory.read (srcAddr s.fb (wordIndex s.cfg s.ctr.srcX s.ctr.srcY)) s.source <;> rfl

theorem sampleBit_withSource {m : Memory} {s : State} (hs : sameImage m s.fb s) (hx : s.ctr.srcX < s.cfg.wSrc)
    (hy : s.ctr.srcY < s.cfg.hSrc) : (s.withSource m).sampleBit = s.sampleBit := by
  obtain ⟨hf, himage⟩ := hs
  rw [sampleBit_stable hf, sampleBit_stable (s := s.withSource m) hf, ← himage _ _ hx hy]
  rfl

/-! ## The renderer's loops -/

/-- The same end of a loop with other framebuffers. -/
def endWithSource (m : Memory) : Except (Nat × State) State → Except (Nat × State) State
  | .error (w, s) => .error (w, s.withSource m)
  | .ok s => .ok (s.withSource m)

theorem fillColumn_withSource {m : Memory} {s : State} (hs : sameImage m s.fb s) (hy : s.ctr.srcY < s.cfg.hSrc)
    {x : Nat} (hx : srcCol s.cfg s.vp x < s.cfg.wSrc) :
    (s.withSource m).fillColumn x = endWithSource m (s.fillColumn x) := by
  have hsample : (s.withSource m).sampleAt x = s.sampleAt x :=
    sampleBit_withSource (s := { s with ctr := { s.ctr with col := x, srcX := srcCol s.cfg s.vp x } }) hs hx hy
  rw [fillColumn_eq, fillColumn_eq, hsample]
  cases s.sampleAt x <;> rfl

theorem fillColumn_ok {x : Nat} {s t : State} (h : s.fillColumn x = .ok t) : columnsOnly s t := by
  rw [fillColumn_eq] at h
  cases hx : s.sampleAt x with
  | error w => simp [hx] at h
  | ok b =>
    rw [hx] at h
    cases h
    rfl

theorem fillColumns_withSource {m : Memory} {s : State} (hs : sameImage m s.fb s) (hy : s.ctr.srcY < s.cfg.hSrc)
    {xs : List Nat} (hxs : ∀ x ∈ xs, srcCol s.cfg s.vp x < s.cfg.wSrc) :
    (s.withSource m).fillColumns xs = endWithSource m (s.fillColumns xs) := by
  induction xs generalizing s with
  | nil => rfl
  | cons x xs ih =>
    rw [State.fillColumns, State.fillColumns, fillColumn_withSource hs hy (hxs x List.mem_cons_self)]
    cases hfill : s.fillColumn x with
    | error e => rfl
    | ok t =>
      have ht := fillColumn_ok hfill
      rw [columnsOnly] at ht
      exact ih (s := t) (by rw [ht]; exact hs) (by rw [ht]; exact hy)
        (by rw [ht]; exact fun z hz => hxs z (List.mem_cons_of_mem x hz))

theorem loadRow_withSource {m : Memory} {s : State} (hc : legal s.cfg) (hs : sameImage m s.fb s) (y : Nat) :
    (s.withSource m).loadRow y = endWithSource m (s.loadRow y) := by
  cases hb : inBand s.vp y with
  | false =>
    rw [loadRow_bar hb, loadRow_bar (s := s.withSource m) hb]
    rfl
  | true =>
    have hfill := fillColumns_withSource (m := m) (xs := List.range s.vp.actW) (s := { s with
      ctr := { s.ctr with row := y, srcY := srcRow s.cfg s.vp y }, lb := List.replicate (2 * s.cfg.wDst) 0#8 })
      hs (srcRow_lt hc hb) fun x hx => srcCol_lt hc (List.mem_range.1 hx)
    have hend : ∀ r, endColumns (endWithSource m r) = endWithSource m (endColumns r) := by
      intro r
      cases r <;> rfl
    rw [loadRow_band hb, loadRow_band (s := s.withSource m) hb]
    exact (congrArg endColumns hfill).trans (hend _)

theorem renderRows_withSource {m : Memory} {s : State} (hc : legal s.cfg) (hs : sameImage m s.fb s) (ys : List Nat) :
    (s.withSource m).renderRows ys = endWithSource m (s.renderRows ys) := by
  induction ys generalizing s with
  | nil => rfl
  | cons y ys ih =>
    rw [State.renderRows, State.renderRows, loadRow_withSource hc hs]
    cases hload : s.loadRow y with
    | error e => rfl
    | ok t =>
      have ht := (loadRow_ok hload).1
      rw [loadOnly] at ht
      exact ih (s := t.sendRow) (by rw [ht]; exact hc) (by rw [ht]; exact hs)

/-! ## RENDER -/

/-- The frame is closed when the rows' loop ends (R202). -/
def endRows : Except (Nat × State) State → Except (Nat × State) State
  | .error e => .error e
  | .ok s => .ok s.closeFrame

theorem renderBody_withSource {m : Memory} {fb : Handle} {s : State} (hc : legal s.cfg) (hs : sameImage m fb s) :
    (s.withSource m).renderBody fb = endWithSource m (s.renderBody fb) := by
  have hrows := renderRows_withSource (m := m) (s := (s.startRender fb).run (prologueActs s.cfg)) hc hs
    (List.range s.cfg.hDst)
  have hend : ∀ r, endRows (endWithSource m r) = endWithSource m (endRows r) := by
    intro r
    cases r <;> rfl
  exact (congrArg endRows hrows).trans (hend _)

theorem renderOutcome_endWithSource (m : Memory) (r : Except (Nat × State) State) :
    renderOutcome (endWithSource m r) = mapNext (State.withSource m) (renderOutcome r) := by
  cases r <;> rfl

section
variable {m : Memory} {s : State} {body : State → Host.Outcome State Fault Refusal}

theorem guarded_withSource (h : legal s.cfg → body (s.withSource m) = mapNext (State.withSource m) (body s)) :
    guarded (s.withSource m) body = mapNext (State.withSource m) (guarded s body) := by
  have hfault : (s.withSource m).fault = s.fault := rfl
  have hcfg : (s.withSource m).cfg = s.cfg := rfl
  simp only [guarded, hfault, hcfg]
  cases s.fault with
  | some f => rfl
  | none =>
    cases hc : firstBroken s.cfg with
    | some b => rfl
    | none => exact h hc

theorem accept_withSource {i : Instr}
    (h : legal s.cfg → body (State.withSource m { s with busy := true, seq := .busy i 0 }) =
      mapNext (State.withSource m) (body { s with busy := true, seq := .busy i 0 })) :
    accept i (s.withSource m) body = mapNext (State.withSource m) (accept i s body) := by
  refine guarded_withSource fun hc => ?_
  have hbusy : (s.withSource m).busy = s.busy := rfl
  simp only [hbusy]
  split
  · rfl
  · exact h hc

theorem withSession_withSource {op : Op} (h : body (s.withSource m) = mapNext (State.withSource m) (body s)) :
    withSession op (s.withSource m) body = mapNext (State.withSource m) (withSession op s body) := by
  have hsess : (s.withSource m).sess = s.sess := rfl
  simp only [withSession, hsess]
  split
  · exact h
  · rfl

end

/-- Over framebuffers that show the same source image a RENDER has the same outcome. -/
theorem exec_render_withSource {m : Memory} {fb : Handle} {s : State} (hs : sameImage m fb s) :
    exec (.render fb) (s.withSource m) = mapNext (State.withSource m) (exec (.render fb) s) := by
  change execRender fb (s.withSource m) = mapNext (State.withSource m) (execRender fb s)
  unfold execRender
  refine accept_withSource fun hc => withSession_withSource (body := fun s => renderOutcome (s.renderBody fb)) ?_
  have hbody := renderBody_withSource (s := { s with busy := true, seq := .busy (.render fb) 0 }) hc hs
  rw [hbody, renderOutcome_endWithSource]

/-- Settles O45: a RENDER reads the framebuffers through its samples alone, which see the source pixels only. -/
theorem paddingBitsAffectNothing : Obligations.PaddingBitsAffectNothing := by
  unfold Obligations.PaddingBitsAffectNothing
  intro s fb m t hf himage h
  have hrender := exec_render_withSource (m := m) (fb := fb) ⟨hf, himage⟩
  rw [h] at hrender
  exact hrender

end Sys2Proof.Machine

/-! PROOF. The decoder (`30_encoding.md` R91 to R106): what a request word decodes to by its `op` field, that decoding
undoes encoding, and the words written out from the tables. -/

namespace Sys2Proof
open Sys2Proof.Machine Sys2Proof.Spec

/-! ## A request by its `op` field (R92 to R95) -/

/-- A payload of the announced length is accepted (R93). -/
theorem decode_request {w : ReqWord} {payload : List Byte} (h : payload.length = w.payloadBytes) :
    decode (.request w payload) = .ok (decodeOp w payload) :=
  if_pos ((carries_iff _ _).2 h)

/-- No `op` but 2 and 4 announces a payload. -/
theorem decode_bare {w : ReqWord} {op : BitVec 4} (h : w.op = op) (h2 : op ≠ 2#4) (h4 : op ≠ 4#4) :
    decode (.request w []) = .ok (decodeOp w []) := by
  subst h
  exact decode_request (if_neg (not_or.2 ⟨h2, h4⟩)).symm

/-- `SEND_DATA` and `RAW_WRITE` announce `arg0` bytes. -/
theorem decode_carrying {w : ReqWord} {payload : List Byte} (h : w.op = 2#4 ∨ w.op = 4#4)
    (hl : payload.length = w.arg0.toNat) : decode (.request w payload) = .ok (decodeOp w payload) :=
  decode_request (hl.trans (if_pos h).symm)

section
variable {w : ReqWord} {payload : List Byte}

theorem decode_sendCmd (h : w.op = 1#4) : decode (.request w []) = .ok (.sendCmd (w.arg0.extractLsb' 0 8)) := by
  rw [decode_bare h (by decide) (by decide), decodeOp, h]
  rfl

theorem decode_sendData (h : w.op = 2#4) (hl : payload.length = w.arg0.toNat) :
    decode (.request w payload) = .ok (.sendData payload) := by
  rw [decode_carrying (.inl h) hl, decodeOp, h]
  rfl

theorem decode_beginStream (h : w.op = 3#4) : decode (.request w []) = .ok .beginStream := by
  rw [decode_bare h (by decide) (by decide), decodeOp, h]
  rfl

theorem decode_rawWrite (h : w.op = 4#4) (hl : payload.length = w.arg0.toNat) :
    decode (.request w payload) = .ok (.rawWrite payload) := by
  rw [decode_carrying (.inr h) hl, decodeOp, h]
  rfl

theorem decode_endStream (h : w.op = 5#4) : decode (.request w []) = .ok .endStream := by
  rw [decode_bare h (by decide) (by decide), decodeOp, h]
  rfl

theorem decode_setWindow (h : w.op = 6#4) :
    decode (.request w []) = .ok (.setWindow w.arg0 w.arg1 w.arg2 w.arg3) := by
  rw [decode_bare h (by decide) (by decide), decodeOp, h]
  rfl

theorem decode_beginFrame (h : w.op = 7#4) : decode (.request w []) = .ok .beginFrame := by
  rw [decode_bare h (by decide) (by decide), decodeOp, h]
  rfl

theorem decode_endFrame (h : w.op = 8#4) : decode (.request w []) = .ok .endFrame := by
  rw [decode_bare h (by decide) (by decide), decodeOp, h]
  rfl

theorem decode_render (h : w.op = 9#4) : decode (.request w []) = .ok (.render (w.arg0 ++ w.arg1)) := by
  rw [decode_bare h (by decide) (by decide), decodeOp, h]
  rfl

/-- The reserved codes decode to their rows, whatever the rest of the word holds (R94, R95). -/
theorem decode_reserved {i : Instr} {op : BitVec 4} (hi : (i, op) ∈ reservedTable) (h : w.op = op) :
    decode (.request w []) = .ok i := by
  simp only [reservedTable, List.mem_cons, Prod.mk.injEq, List.not_mem_nil, or_false] at hi
  rcases hi with ⟨rfl, rfl⟩ | ⟨rfl, rfl⟩ | ⟨rfl, rfl⟩ | ⟨rfl, rfl⟩ | ⟨rfl, rfl⟩ | ⟨rfl, rfl⟩ | ⟨rfl, rfl⟩
  all_goals
    rw [decode_bare h (by decide) (by decide), decodeOp, h]
    rfl

end

/-! ## Decoding undoes encoding -/

/-- A payload length is a 16-bit count (R93). -/
theorem toNat_ofNat_length {bytes : List Byte} (h : bytes.length ≤ 65535) :
    (BitVec.ofNat 16 bytes.length).toNat = bytes.length :=
  Nat.mod_eq_of_lt (Nat.lt_succ_of_le h)

/-- A 9-symbol frame of variant A with the symbol 0 is a command (R96). -/
theorem decode_frameA_cmd (code : Byte) : decode (.frameA (0#1 ++ code)) = .ok (.frameACmd code) := by
  simp only [decode, getLsbD_top_concat, low_concat]
  rfl

/-- With the symbol 1 it is data (R96). -/
theorem decode_frameA_data (byte : Byte) : decode (.frameA (1#1 ++ byte)) = .ok (.frameAData byte) := by
  simp only [decode, getLsbD_top_concat, low_concat]
  rfl

/-- Variant B data carries the mode bit 1 (R98). -/
theorem decode_frameB_data (byte : Byte) : decode (.frameB9 (1#1 ++ byte)) = .ok (.frameBData byte) := by
  simp only [decode, getLsbD_top_concat, low_concat]
  rfl

/-- The first half of a window block stands in the high bits (R101). -/
theorem decode_windowBlock (first last : Half) :
    decode (.data4 (first ++ last)) = .ok (.windowParamBlock first last) := by
  rw [decode, high_concat, low_concat]

/-- Settles O1: each row's form decodes by its format, and a request by its `op` and the fields it was made from. -/
theorem decodeAfterEncode : Obligations.DecodeAfterEncode := by
  unfold Obligations.DecodeAfterEncode
  intro i hi
  cases i with
  | sendCmd code => exact (decode_sendCmd (op_mkWord ..)).trans (by rw [arg0_mkWord, low_concat])
  | sendData bytes =>
    exact decode_sendData (op_mkWord ..) (by rw [arg0_mkWord, toNat_ofNat_length (bytes := bytes) hi])
  | beginStream => exact decode_beginStream (op_mkWord ..)
  | rawWrite bytes =>
    exact decode_rawWrite (op_mkWord ..) (by rw [arg0_mkWord, toNat_ofNat_length (bytes := bytes) hi])
  | endStream => exact decode_endStream (op_mkWord ..)
  | setWindow x0 y0 x1 y1 =>
    exact (decode_setWindow (op_mkWord ..)).trans (by rw [arg0_mkWord, arg1_mkWord, arg2_mkWord, arg3_mkWord])
  | beginFrame => exact decode_beginFrame (op_mkWord ..)
  | endFrame => exact decode_endFrame (op_mkWord ..)
  | render fb => exact (decode_render (op_mkWord ..)).trans (by rw [arg0_mkWord, arg1_mkWord, concat_parts])
  | reserved0 | reservedA | reservedB | reservedC | reservedD | reservedE | reservedF =>
    exact decode_reserved (by decide) (op_mkWord ..)
  | frameACmd code => exact decode_frameA_cmd code
  | frameAData byte => exact decode_frameA_data byte
  | frameBData byte => exact decode_frameB_data byte
  | windowParamBlock first last => exact decode_windowBlock first last
  | frameBCmd | pixelPair | cmdCaset | cmdRaset | cmdRamwr => rfl

/-! ## The fields by division (R91, R92) -/

section
variable (w : ReqWord)

theorem op_eq_of_div {n : Nat} (h : w.toNat / 2 ^ 64 = n) : w.op = BitVec.ofNat 4 n := by
  rw [← h, ← op_toNat, BitVec.ofNat_toNat, BitVec.setWidth_eq]

theorem arg0_eq : w.arg0 = BitVec.ofNat 16 (w.toNat / 2 ^ 48 % 2 ^ 16) := by
  rw [← arg0_toNat, BitVec.ofNat_toNat, BitVec.setWidth_eq]

theorem arg1_eq : w.arg1 = BitVec.ofNat 16 (w.toNat / 2 ^ 32 % 2 ^ 16) := by
  rw [← arg1_toNat, BitVec.ofNat_toNat, BitVec.setWidth_eq]

theorem arg2_eq : w.arg2 = BitVec.ofNat 16 (w.toNat / 2 ^ 16 % 2 ^ 16) := by
  rw [← arg2_toNat, BitVec.ofNat_toNat, BitVec.setWidth_eq]

theorem arg3_eq : w.arg3 = BitVec.ofNat 16 (w.toNat % 2 ^ 16) := by
  rw [← arg3_toNat, BitVec.ofNat_toNat, BitVec.setWidth_eq]

/-- The command byte is the low byte of `arg0` (R92). -/
theorem arg0_low_eq : w.arg0.extractLsb' 0 8 = BitVec.ofNat 8 (w.toNat / 2 ^ 48 % 2 ^ 16 % 2 ^ 8) := by
  apply BitVec.eq_of_toNat_eq
  rw [BitVec.extractLsb'_toNat, Nat.shiftRight_zero, arg0_toNat, BitVec.toNat_ofNat, Nat.mod_mod]

/-- The framebuffer handle is `{arg0, arg1}` (R92). -/
theorem handle_eq :
    w.arg0 ++ w.arg1 = BitVec.ofNat 32 (w.toNat / 2 ^ 48 % 2 ^ 16 * 2 ^ 16 + w.toNat / 2 ^ 32 % 2 ^ 16) := by
  rw [← arg0_toNat, ← arg1_toNat, ← toNat_concat, BitVec.ofNat_toNat, BitVec.setWidth_eq]

end

/-- Settles O2: an `op` read by division is the `op` field, and each operand the field of its argument. -/
theorem requestWordsDecodeByTheirFields : Obligations.RequestWordsDecodeByTheirFields := by
  unfold Obligations.RequestWordsDecodeByTheirFields
  intro w payload
  dsimp only
  refine ⟨fun h => ?_, fun h hl => ?_, fun h => ?_, fun h hl => ?_, fun h => ?_, fun h => ?_, fun h => ?_,
    fun h => ?_, fun h => ?_⟩ <;> replace h := op_eq_of_div w h
  · rw [decode_sendCmd h, arg0_low_eq]
  · exact decode_sendData h (hl.trans (arg0_toNat w).symm)
  · exact decode_beginStream h
  · exact decode_rawWrite h (hl.trans (arg0_toNat w).symm)
  · exact decode_endStream h
  · rw [decode_setWindow h, arg0_eq, arg1_eq, arg2_eq, arg3_eq]
  · exact decode_beginFrame h
  · exact decode_endFrame h
  · rw [decode_render h, handle_eq]

/-- Settles O3, by running the decoder on the ten words. -/
theorem writtenWordsDecode : Obligations.WrittenWordsDecode := by
  unfold Obligations.WrittenWordsDecode
  decide

end Sys2Proof

/-! PROOF. What a request that passes every check leaves, said with the spec's event lists and pin levels: the bus
frames, data blocks and panel command bytes (`30_encoding.md` R96 to R106, `40_framer.md` R134 to R144). -/

namespace Sys2Proof.Machine
open Sys2Proof Sys2Proof.Spec

/-! ## A request that completes -/

/-- A request that passes every check makes the acts of its operation. -/
theorem exec_acts {i : Instr} {op : Op} {s : State} (ho : opOf i = some op) (hne : op ≠ .render)
    (ha : available i s.cfg) (hr : ready s) (hs : s.sess = requiredSess op) :
    exec i s = .next (s.run (actsOf s.cfg i)).complete := by
  obtain ⟨hc, hf, hb⟩ := hr
  have hperform := perform_completes i op (actsOf s.cfg i) s hc hf hb hs
  rw [exec_eq_perform s ho hne]
  cases hv : onlyIn i with
  | none => exact hperform
  | some v => exact (onVariant_pass v s _ hc hf (ha v hv)).trans hperform

/-- `SESS` after the acts of an operation is the value the operation leaves (R132). -/
theorem sessAfter_actsOf (c : Config) {i : Instr} {op : Op} (ho : opOf i = some op) (hne : op ≠ .render) :
    sessAfter (requiredSess op) (actsOf c i) = finalSess op := by
  obtain ⟨-, -, hsess⟩ := leads_actsOf c ho hne
  exact hsess

/-- The same state by the spec's event list: its events and pin levels, and the `SESS` the operation leaves. -/
theorem exec_done {i : Instr} {op : Op} {s : State} (ho : opOf i = some op) (hne : op ≠ .render)
    (ha : available i s.cfg) (hr : ready s) (hs : s.sess = requiredSess op) :
    exec i s =
      .next (done s (opEvents s.cfg i) (s.pins.applyAll (opEvents s.cfg i)) (finalSess op)) := by
  have hi : ∀ fb, i ≠ .render fb := by
    rintro fb rfl
    exact hne (Option.some.inj ho).symm
  rw [exec_acts ho hne ha hr hs, ← events_actsOf s.cfg hi, ← sessAfter_actsOf s.cfg ho hne, ← hs]
  rfl

/-! ## Pin levels (R144) -/

/-- `SCK` and `SDA` after a shifted bit (R135). -/
theorem applyAll_bitEvents (p : Pins) (v : Bool) : p.applyAll (bitEvents v) = { p with sck := true, sda := v } := rfl

/-- `SCK` and `SDA` after a shifted byte: bit 0 is the last (R136). -/
theorem applyAll_byteEvents (p : Pins) (b : Byte) : p.applyAll (byteEvents b) = shifted p b := by
  simp only [byteEvents, applyAll_append, applyAll_bitEvents]
  rfl

/-- A mode bit ahead of the byte leaves no trace on the pins (R98). -/
theorem applyAll_modeByte (p : Pins) (b : Byte) : p.applyAll (bitEvents true ++ byteEvents b) = shifted p b := by
  rw [applyAll_append, applyAll_bitEvents, applyAll_byteEvents]
  rfl

/-- Of several bytes the last one stays on the pins. -/
theorem shiftedAll_cons (p : Pins) (b : Byte) (bytes : List Byte) :
    shiftedAll p (b :: bytes) = shiftedAll (shifted p b) bytes := by
  cases hb : bytes.getLast? with
  | none =>
    rw [List.getLast?_eq_none_iff.1 hb]
    rfl
  | some l => simp [shiftedAll, List.getLast?_cons, hb, shifted]

/-- Frames that each leave their byte on the pins leave the last one's. -/
theorem applyAll_frames {frame : Byte → List Event} (hframe : ∀ p b, Pins.applyAll p (frame b) = shifted p b)
    (p : Pins) (bytes : List Byte) : p.applyAll (bytes.flatMap frame) = shiftedAll p bytes := by
  induction bytes generalizing p with
  | nil => rfl
  | cons b bytes ih => rw [List.flatMap_cons, applyAll_append, hframe, ih, shiftedAll_cons]

/-- The shifted bytes leave `CS` alone. -/
theorem shiftedAll_cs (p : Pins) (l : CsLevel) (bytes : List Byte) :
    shiftedAll { p with cs := l } bytes = { shiftedAll p bytes with cs := l } := by
  unfold shiftedAll
  cases bytes.getLast? <;> rfl

/-- A session asserts `CS` around its events and leaves it idle (R131). -/
theorem applyAll_session (p : Pins) (es : List Event) :
    p.applyAll (session es) = { ({ p with cs := .asserted } : Pins).applyAll es with cs := .idle } := by
  rw [session, applyAll_append, applyAll_cons]
  rfl

/-- After `SEND_CMD`. -/
theorem applyAll_cmdSession (c : Config) (p : Pins) (code : Byte) :
    p.applyAll (session (cmdEvents c code)) = cmdPins c p code := by
  rw [applyAll_session, cmdEvents, cmdPins]
  cases c.variant with
  | A => rfl
  | B =>
    dsimp only
    rw [applyAll_byteEvents]
    rfl

/-- After `SEND_DATA`. -/
theorem applyAll_dataSession (c : Config) (p : Pins) (bytes : List Byte) :
    p.applyAll (session (dataEvents c bytes)) = dataPins c p bytes := by
  rw [applyAll_session, dataEvents, dataPins]
  cases c.variant with
  | A => cases bytes <;> rfl
  | B =>
    dsimp only
    rw [applyAll_frames applyAll_modeByte, shiftedAll_cs]

/-- After `RAW_WRITE`, with or without the mode bit (R141). -/
theorem applyAll_rawEvents (c : Config) (p : Pins) (bytes : List Byte) :
    p.applyAll (rawEvents c bytes) = rawPins c p bytes := by
  rw [rawEvents, rawPins]
  cases c.variant with
  | A => cases bytes <;> rfl
  | B =>
    refine applyAll_frames (fun p b => ?_) p bytes
    cases c.bRawModeBit with
    | true => exact applyAll_modeByte p b
    | false => exact applyAll_byteEvents p b

/-! ## Requests that run as a framer operation -/

/-- An instruction with the event list of a `SEND_CMD` leaves the state of one (R138). -/
theorem exec_sendsCmd {i : Instr} {s : State} {code : Byte} (ho : opOf i = some .sendCmd) (ha : available i s.cfg)
    (he : opEvents s.cfg i = session (cmdEvents s.cfg code)) (hr : ready s) (hs : s.sess = .closed) :
    exec i s = .next (done s (session (cmdEvents s.cfg code)) (cmdPins s.cfg s.pins code) .closed) := by
  rw [exec_done ho (by decide) ha hr hs, he, applyAll_cmdSession]
  rfl

/-- An instruction with the event list of a `SEND_DATA` leaves the state of one (R139). -/
theorem exec_sendsData {i : Instr} {s : State} {bytes : List Byte} (ho : opOf i = some .sendData)
    (ha : available i s.cfg) (he : opEvents s.cfg i = session (dataEvents s.cfg bytes)) (hr : ready s)
    (hs : s.sess = .closed) :
    exec i s = .next (done s (session (dataEvents s.cfg bytes)) (dataPins s.cfg s.pins bytes) .closed) := by
  rw [exec_done ho (by decide) ha hr hs, he, applyAll_dataSession]
  rfl

/-- An instruction with the event list of a `RAW_WRITE` leaves the state of one (R141). -/
theorem exec_writesRaw {i : Instr} {s : State} {bytes : List Byte} (ho : opOf i = some .rawWrite)
    (ha : available i s.cfg) (he : opEvents s.cfg i = rawEvents s.cfg bytes) (hr : ready s) (hs : s.sess = .stream) :
    exec i s = .next (done s (rawEvents s.cfg bytes) (rawPins s.cfg s.pins bytes) .stream) := by
  rw [exec_done ho (by decide) ha hr hs, he, applyAll_rawEvents]
  rfl

/-- What belongs to no variant exists in both (R130). -/
theorem available_of_both {i : Instr} (h : onlyIn i = none) (c : Config) : available i c := by
  intro v hv
  cases h.symm.trans hv

/-- A bus frame exists in its own variant (R96 to R98). -/
theorem available_of_variant {i : Instr} {c : Config} {v : Variant} (h : onlyIn i = some v) (hc : c.variant = v) :
    available i c := by
  intro w hw
  cases h.symm.trans hw
  exact hc

/-- Settles O19: each frame runs as the framer operation that carries it, whose events in its variant are the frame. -/
theorem busFramesAreSent : Obligations.BusFramesAreSent := by
  unfold Obligations.BusFramesAreSent
  intro s b hr hs
  refine ⟨fun hv => ⟨?_, ?_⟩, fun hv => ⟨?_, ?_⟩⟩
  · rw [exec_sendsCmd (code := b) rfl (available_of_variant rfl hv) rfl hr hs, cmdEvents, cmdPins, hv]
    rfl
  · rw [exec_sendsData (bytes := [b]) rfl (available_of_variant rfl hv) rfl hr hs, dataEvents, dataPins, hv]
    rfl
  · rw [exec_sendsCmd (code := b) rfl (available_of_variant rfl hv) rfl hr hs, cmdEvents, cmdPins, hv]
  · rw [exec_sendsData (bytes := [b]) rfl (available_of_variant rfl hv) rfl hr hs, dataEvents, dataPins, hv]
    rfl

/-- Settles O17: each row has the event list of a `SEND_CMD` of the configured byte. -/
theorem panelCommandBytesAreSent : Obligations.PanelCommandBytesAreSent := by
  unfold Obligations.PanelCommandBytesAreSent
  intro s hr hs
  exact ⟨exec_sendsCmd rfl (available_of_both rfl _) rfl hr hs, exec_sendsCmd rfl (available_of_both rfl _) rfl hr hs,
    exec_sendsCmd rfl (available_of_both rfl _) rfl hr hs⟩

/-- Settles O18: a window block has the event list of a `SEND_DATA` of its bytes, a pixel pair that of a
`RAW_WRITE`. -/
theorem dataBlocksAreSent : Obligations.DataBlocksAreSent := by
  unfold Obligations.DataBlocksAreSent
  exact ⟨fun s first last hr hs => exec_sendsData rfl (available_of_both rfl _) rfl hr hs,
    fun s p hr hs => exec_writesRaw rfl (available_of_both rfl _) rfl hr hs⟩

end Sys2Proof.Machine

/-! PROOF. The composite operations are their expansions (`30_encoding.md` R108): requests one after the other make the
acts of all of them, in order. -/

namespace Sys2Proof.Machine
open Sys2Proof Sys2Proof.Spec

/-! ## Requests one after the other -/

/-- Requests of both variants, none of them RENDER, each of which finds the `SESS` it requires where the one before
leaves it (R132); the first finds `q`. -/
def inTurn : Sess → List Instr → Prop
  | _, [] => True
  | q, i :: is => onlyIn i = none ∧
    ∃ op, opOf i = some op ∧ op ≠ .render ∧ q = requiredSess op ∧ inTurn (finalSess op) is

/-- Between two requests of a sequence every check still passes. -/
theorem ready_complete {s : State} (hr : ready s) (acts : List Act) : ready (s.run acts).complete := by
  obtain ⟨hc, hf, -⟩ := hr
  exact ⟨hc, hf, rfl⟩

/-- Behind acts already made, requests in turn make the acts of all of them and complete. -/
theorem runAll_after {s : State} (hr : ready s) (is : List Instr) (acts : List Act)
    (hturn : inTurn (sessAfter s.sess acts) is) :
    runAll is (s.run acts).complete = .next (s.run (acts ++ is.flatMap (actsOf s.cfg))).complete := by
  induction is generalizing acts with
  | nil =>
    rw [List.flatMap_nil, List.append_nil]
    rfl
  | cons i is ih =>
    obtain ⟨hboth, op, ho, hne, hq, hrest⟩ := hturn
    have hexec := exec_acts ho hne (available_of_both hboth _) (ready_complete hr acts) hq
    have hacts : ((s.run acts).complete.run (actsOf s.cfg i)).complete = (s.run (acts ++ actsOf s.cfg i)).complete := by
      rw [run_append]
      rfl
    have hsess : sessAfter s.sess (acts ++ actsOf s.cfg i) = finalSess op := by
      rw [sessAfter_append, hq, sessAfter_actsOf s.cfg ho hne]
    rw [← hsess] at hrest
    rw [runAll, hexec, List.flatMap_cons, ← List.append_assoc]
    exact (congrArg (runAll is) hacts).trans (ih _ hrest)

/-- Requests in turn, at least one, make the acts of all of them and complete. -/
theorem runAll_inTurn {s : State} (hr : ready s) (i : Instr) (is : List Instr) (hturn : inTurn s.sess (i :: is)) :
    runAll (i :: is) s = .next (s.run ((i :: is).flatMap (actsOf s.cfg))).complete := by
  obtain ⟨hboth, op, ho, hne, hq, hrest⟩ := hturn
  rw [← sessAfter_actsOf s.cfg ho hne, ← hq] at hrest
  rw [runAll, exec_acts ho hne (available_of_both hboth _) hr hq]
  exact runAll_after hr is (actsOf s.cfg i) hrest

/-- Raw writes leave the stream open for what follows. -/
theorem inTurn_rawWrites {α : Type} (ys : List α) (bytes : α → List Byte) {is : List Instr}
    (h : inTurn .stream is) :
    inTurn .stream (ys.map (fun y => Instr.rawWrite (bytes y)) ++ is) := by
  induction ys with
  | nil => exact h
  | cons y ys ih => exact ⟨rfl, .rawWrite, rfl, by decide, rfl, ih⟩

/-! ## RENDER -/

/-- The requests RENDER is defined as, for an image (R108, R203). -/
def renderRequests (c : Config) (image : Nat → Nat → Bool) : List Instr :=
  [Instr.setWindow (windowX0 c) (windowY0 c) (windowX1 c) (windowY1 c), Instr.beginFrame] ++
    (List.range c.hDst).map (fun y => Instr.rawWrite (rowBytes c image y)) ++ [Instr.endFrame]

theorem inTurn_renderRequests (c : Config) (image : Nat → Nat → Bool) :
    inTurn .closed (renderRequests c image) := by
  have hend : inTurn .stream [.endFrame] := ⟨rfl, .endFrame, rfl, by decide, rfl, trivial⟩
  exact ⟨rfl, .setWindow, rfl, by decide, rfl, rfl, .beginFrame, rfl, by decide, rfl, inTurn_rawWrites _ _ hend⟩

/-- The raw writes of the rows of an image, top to bottom (R201, R209). -/
def imageActs (c : Config) (image : Nat → Nat → Bool) : List Act :=
  (List.range c.hDst).flatMap fun y => rawWriteActs c (rowBytes c image y)

/-- The acts of those requests are the acts of RENDER, row by row. -/
theorem actsOf_renderRequests (c : Config) (image : Nat → Nat → Bool) :
    (renderRequests c image).flatMap (actsOf c) =
      prologueActs c ++ imageActs c image ++ endFrameActs := by
  simp [renderRequests, imageActs, prologueActs, List.flatMap_append, List.flatMap_map, actsOf]

/-- On a renderable buffer RENDER completes, having sent the rows of the image (R203, R209). -/
theorem exec_render_renderable {s : State} {fb : Handle} {image : Nat → Nat → Bool} (h : renderable s fb image) :
    ∃ u, sentOnly (imageActs s.cfg image) (s.atRows fb) u ∧
      exec (.render fb) s = .next u.closeFrame.retire.complete := by
  have ⟨hr, hs, _, _⟩ := h
  obtain ⟨bit, u, hbit, hu, hexec⟩ := exec_render_completes (fb := fb) hr hs fun y x hy hx =>
    ⟨_, pixelSample_atRows h hy hx⟩
  refine ⟨u, ?_, hexec⟩
  have hrows : rowsActs s.cfg (viewport s.cfg) bit (List.range s.cfg.hDst) = imageActs s.cfg image := by
    refine List.flatMap_congr fun y hy => congrArg _ (rowOf_eq_rowBytes _ _ _ _ fun hb x hx => ?_)
    exact Except.ok.inj ((hbit y (List.mem_range.1 hy) hb x hx).symm.trans (pixelSample_atRows h hb hx))
  rwa [hrows] at hu

/-- A RENDER that has sent its rows ends as the same acts made at once do, but for the renderer's registers. -/
theorem sameButRenderer_of_sent {s u : State} {fb : Handle} {rows : List Act} (hu : sentOnly rows (s.atRows fb) u) :
    sameButRenderer u.closeFrame.retire.complete (s.run (prologueActs s.cfg ++ rows ++ endFrameActs)).complete := by
  rw [run_append, run_append, sameButRenderer, hu]
  rfl

/-- The requests of RENDER make its acts and complete. -/
theorem runAll_renderRequests {s : State} (hr : ready s) (hs : s.sess = .closed) (image : Nat → Nat → Bool) :
    runAll (renderRequests s.cfg image) s =
      .next (s.run (prologueActs s.cfg ++ imageActs s.cfg image ++ endFrameActs)).complete := by
  have hturn := inTurn_renderRequests s.cfg image
  rw [← hs] at hturn
  rw [← actsOf_renderRequests]
  exact runAll_inTurn hr _ _ hturn

/-- An operation whose acts are those of requests in turn is those requests. -/
theorem exec_eq_runAll {s : State} {i j : Instr} {js : List Instr} {op : Op} (ho : opOf i = some op)
    (hne : op ≠ .render) (hboth : onlyIn i = none) (hr : ready s) (hs : s.sess = requiredSess op)
    (hturn : inTurn (requiredSess op) (j :: js)) (hacts : actsOf s.cfg i = (j :: js).flatMap (actsOf s.cfg)) :
    exec i s = runAll (j :: js) s := by
  rw [← hs] at hturn
  rw [exec_acts ho hne (available_of_both hboth _) hr hs, runAll_inTurn hr j js hturn, hacts]

/-- Settles O16: a composite makes the acts of the requests of its expansion, one list after the other. -/
theorem compositesAreTheirExpansions : Obligations.CompositesAreTheirExpansions := by
  unfold Obligations.CompositesAreTheirExpansions
  intro s hr
  refine ⟨fun hs x0 y0 x1 y1 => ?_, fun hs => ?_, fun hs => ?_, fun fb image h => ?_⟩
  · exact exec_eq_runAll (op := .setWindow) rfl (by decide) rfl hr hs
      (by simp [inTurn, onlyIn, opOf, requiredSess, finalSess]) (by simp [actsOf, setWindowActs, windowBytes_eq])
  · exact exec_eq_runAll (op := .beginFrame) rfl (by decide) rfl hr hs
      (by simp [inTurn, onlyIn, opOf, requiredSess, finalSess]) (by simp [actsOf, beginFrameActs])
  · exact exec_eq_runAll (op := .endFrame) rfl (by decide) rfl hr hs
      (by simp [inTurn, onlyIn, opOf, requiredSess]) (by simp [actsOf, endFrameActs])
  · have ⟨_, hs, _, _⟩ := h
    obtain ⟨u, hu, hrender⟩ := exec_render_renderable h
    exact ⟨_, _, hrender, runAll_renderRequests hr hs image, sameButRenderer_of_sent hu⟩

end Sys2Proof.Machine

/-! PROOF. The framer operations (`40_framer.md` R130 to R144): what each of the five leaves, the session discipline,
and the bus frames of the variant that is not active. -/

namespace Sys2Proof.Machine
open Sys2Proof Sys2Proof.Spec

/-! ## The five operations (R138 to R142) -/

/-- Settles O8: the acts of `SEND_CMD` make the session of its command byte, whose events leave those pins. -/
theorem sendCmdCompletes : Obligations.SendCmdCompletes := by
  unfold Obligations.SendCmdCompletes
  intro s code hr hs
  exact exec_sendsCmd rfl (available_of_both rfl _) rfl hr hs

/-- Settles O9: the acts of `SEND_DATA` make the session of its bytes, of which the last stays on the pins. -/
theorem sendDataCompletes : Obligations.SendDataCompletes := by
  unfold Obligations.SendDataCompletes
  intro s bytes hr hs
  exact exec_sendsData rfl (available_of_both rfl _) rfl hr hs

/-- After `BEGIN_STREAM`: variant A drives the mode line, variant B does not (R144). -/
theorem applyAll_streamEvents (c : Config) (p : Pins) : p.applyAll (streamEvents c) = streamPins c p := by
  unfold streamEvents streamPins
  cases c.variant <;> rfl

/-- Settles O10: the stream opens, and the pins are those its events leave. -/
theorem beginStreamCompletes : Obligations.BeginStreamCompletes := by
  unfold Obligations.BeginStreamCompletes
  intro s hr hs
  rw [exec_done (op := .beginStream) rfl (by decide) (available_of_both rfl _) hr hs, ← applyAll_streamEvents]
  rfl

/-- Settles O11: the acts of `RAW_WRITE` make its events in the stream that is open, of which the last byte stays on
the pins. -/
theorem rawWriteCompletes : Obligations.RawWriteCompletes := by
  unfold Obligations.RawWriteCompletes
  intro s bytes hr hs
  exact exec_writesRaw rfl (available_of_both rfl _) rfl hr hs

/-- Settles O12: the one event of `END_STREAM` takes `CS` to idle. -/
theorem endStreamCompletes : Obligations.EndStreamCompletes := by
  unfold Obligations.EndStreamCompletes
  intro s hr hs
  rw [exec_done (op := .endStream) rfl (by decide) (available_of_both rfl _) hr hs]
  rfl

/-! ## The session discipline (R132, R232) -/

/-- Where `FAULT` is clear, taking a fault records just that fault (R36, R240). -/
theorem takeFault_eq_faulted {s : State} (hf : s.fault = none) (f : FaultMark) : s.takeFault f = faulted s f := by
  simp [State.takeFault, faulted, hf]

/-- An available operation that finds another `SESS` than it requires records that, and nothing else happens. -/
theorem exec_violates {i : Instr} {op : Op} {s : State} (ho : opOf i = some op) (ha : available i s.cfg)
    (hr : ready s) (hs : s.sess ≠ requiredSess op) :
    exec i s = .next (s.takeFault (.protocolViolation op s.sess)) := by
  obtain ⟨hc, hf, hb⟩ := hr
  by_cases hne : op = .render
  · subst hne
    cases i with
    | render fb =>
      change execRender fb s = _
      rw [execRender, accept_pass _ _ _ hc hf hb, withSession, if_neg hs]
      rfl
    | _ => cases ho
  · have hperform := perform_violates i op (actsOf s.cfg i) s hc hf hb hs
    rw [exec_eq_perform s ho hne]
    cases hv : onlyIn i with
    | none => exact hperform
    | some v => exact (onVariant_pass v s _ hc hf (ha v hv)).trans hperform

/-- A RENDER that ends without a fault has closed its stream (R202, R203). -/
theorem renderOutcome_sess {fb : Handle} {s t : State} (h : renderOutcome (s.renderBody fb) = .next t)
    (ht : t.fault = none) : t.sess = .closed := by
  unfold State.renderBody at h
  split at h
  · cases h
    simp at ht
  · cases h
    rfl

/-- An operation that ends without a fault has found the `SESS` it requires and leaves the one it ends in. -/
theorem exec_sess {i : Instr} {op : Op} {s t : State} (ho : opOf i = some op) (h : exec i s = .next t)
    (ht : t.fault = none) : s.sess = requiredSess op ∧ t.sess = finalSess op := by
  obtain ⟨-, ⟨f, rfl⟩ | ⟨-, op', ho', hne, -, hs, rfl⟩ | ⟨-, fb, rfl, -, hs, hout⟩⟩ := exec_next h
  · simp at ht
  · obtain rfl := Option.some.inj (ho'.symm.trans ho)
    refine ⟨hs, ?_⟩
    rw [State.complete_sess, State.run_sess, hs, sessAfter_actsOf s.cfg ho hne]
  · cases ho
    exact ⟨hs, renderOutcome_sess hout ht⟩

theorem sessTable_eq (op : Op) : sessTable op = (requiredSess op, finalSess op) := by cases op <;> rfl

/-- Settles O22: the table of R132 is what each operation checks at its start and what its acts leave. -/
theorem sessionDisciplineHolds : Obligations.SessionDisciplineHolds := by
  unfold Obligations.SessionDisciplineHolds
  intro i op s ho ha hr
  rw [sessTable_eq]
  have ⟨_, hf, _⟩ := hr
  exact ⟨fun hs => (exec_violates ho ha hr hs).trans (congrArg _ (takeFault_eq_faulted hf _)),
    fun t h ht => exec_sess ho h ht⟩

/-! ## Bus frames of the variant that is not active (R130) -/

/-- `onVariant` in the other variant, whatever `BUSY` is. -/
theorem onVariant_refuses {v w : Variant} {s : State} (body : State → Host.Outcome State Fault Refusal)
    (hc : legal s.cfg) (hf : s.fault = none) (hw : s.cfg.variant = w) (hne : w ≠ v) :
    onVariant v s body = .refused (.inactiveVariant w) := by
  rw [onVariant, guarded_pass _ _ hc hf, hw, if_neg hne]

/-- Settles O20: each frame runs under `onVariant`, ahead of the check of `BUSY`. -/
theorem framesOfTheOtherVariantAreRefused : Obligations.FramesOfTheOtherVariantAreRefused := by
  unfold Obligations.FramesOfTheOtherVariantAreRefused
  intro s b hc hf
  exact ⟨fun hv => ⟨onVariant_refuses _ hc hf hv (by decide), onVariant_refuses _ hc hf hv (by decide)⟩,
    fun hv => ⟨onVariant_refuses _ hc hf hv (by decide), onVariant_refuses _ hc hf hv (by decide)⟩⟩

end Sys2Proof.Machine

/-! PROOF. The counting laws of the framer and the bits the panel samples (`40_framer.md` R145, R146). Every session of
variant B shifts a list of bits; its events, its rising edges and its samples follow from that list. -/

namespace Sys2Proof.Machine
open Sys2Proof Sys2Proof.Spec

/-! ## What variant B shifts (R136, R137, R141) -/

/-- The bits of some raw bytes, each behind its mode bit where the configuration has it (R141). -/
def rawBits (modeBit : Bool) (bytes : List Byte) : List Bool :=
  bytes.flatMap fun b => (if modeBit then [true] else []) ++ bitsMsbFirst b

theorem rawWriteActs_B_bits {c : Config} (hv : c.variant = .B) (bytes : List Byte) :
    rawWriteActs c bytes = shiftBits (rawBits c.bRawModeBit bytes) := by
  simp only [rawWriteActs, hv]
  rw [shiftBits, rawBits, List.flatMap_assoc]
  refine List.flatMap_congr fun b _ => ?_
  cases c.bRawModeBit <;> rfl

theorem length_rawBits (modeBit : Bool) (bytes : List Byte) :
    (rawBits modeBit bytes).length = (if modeBit then 9 else 8) * bytes.length := by
  cases modeBit <;> simp [rawBits, bitsMsbFirst, List.length_flatMap, Nat.mul_comm]

/-- A session that shifts some bits. -/
abbrev bitSession (vs : List Bool) : List Event := session (events (shiftBits vs))

theorem events_sendCmdActs_B {c : Config} (hv : c.variant = .B) (code : Byte) :
    events (sendCmdActs c code) = bitSession (bitsMsbFirst code) := by
  rw [events_sendCmdActs, ← events_cmdActs, cmdActs_B hv]

theorem events_sendDataActs_B {c : Config} (hv : c.variant = .B) (bytes : List Byte) :
    events (sendDataActs c bytes) = bitSession (dataBits bytes) := by
  have hacts : dataActs c bytes = dataB bytes := by simp only [dataActs, hv]
  rw [events_sendDataActs_eq, ← events_dataActs, hacts, dataB_eq]

theorem events_beginStreamActs_B {c : Config} (hv : c.variant = .B) :
    events (beginStreamActs c) = [.setCS .asserted] := by
  rw [events_beginStreamActs, streamEvents, hv]

/-- The raw writes of a stream shift the bits of all their bytes, one write after the other. -/
theorem rawWrites_B {c : Config} (hv : c.variant = .B) (hm : c.bRawModeBit = true) (writes : List (List Byte)) :
    writes.flatMap (rawWriteActs c) = shiftBits (dataBits writes.flatten) := by
  induction writes with
  | nil => rfl
  | cons bytes writes ih =>
    rw [List.flatMap_cons, ih, rawWriteActs_B hv fun _ => hm, List.flatten_cons]
    simp only [dataBits, shiftBits, List.flatMap_append]

/-- A whole stream is one session of the bits of all its bytes (R146). -/
theorem events_stream_B {c : Config} (hv : c.variant = .B) (hm : c.bRawModeBit = true) (writes : List (List Byte)) :
    events (beginStreamActs c ++ writes.flatMap (rawWriteActs c) ++ endStreamActs) =
      bitSession (dataBits writes.flatten) := by
  rw [events_append, events_append, events_beginStreamActs_B hv, rawWrites_B hv hm]
  rfl

/-! ## Counts (R145) -/

/-- A shifted bit is five events (R135). -/
theorem length_shiftBits (vs : List Bool) : (events (shiftBits vs)).length = 5 * vs.length := by
  simp [length_events, shiftBits, shiftBit, List.length_flatMap, Nat.mul_comm]

/-- A shifted bit is one rising edge, from either level of `SCK` (R135); here ahead of events that make none. -/
theorem risingEdges_shiftBits (level : Bool) (vs : List Bool) {more : List Event}
    (hmore : ∀ level, risingEdges level more = 0) :
    risingEdges level (events (shiftBits vs) ++ more) = vs.length := by
  induction vs generalizing level with
  | nil => exact hmore level
  | cons v vs ih =>
    have hbit : risingEdges level (events (shiftBits (v :: vs)) ++ more) =
        1 + risingEdges true (events (shiftBits vs) ++ more) := by
      simp [shiftBits, shiftBit, Act.event, risingEdges]
    rw [hbit, ih, List.length_cons, Nat.add_comm]

theorem length_bitSession (vs : List Bool) : (bitSession vs).length = 5 * vs.length + 2 := by
  simp [session, length_shiftBits]

theorem risingEdges_bitSession (level : Bool) (vs : List Bool) : risingEdges level (bitSession vs) = vs.length :=
  risingEdges_shiftBits level vs fun _ => rfl

/-- An instruction that is no RENDER and ends without a fault has appended the events of its acts. -/
theorem exec_bus {i : Instr} {s t : State} (hi : ∀ fb, i ≠ .render fb) (h : exec i s = .next t)
    (ht : t.fault = none) : t.bus = s.bus ++ events (actsOf s.cfg i) := by
  obtain ⟨op, -, -, rfl⟩ := exec_completed hi h ht
  rfl

theorem length_sendCmd_A {c : Config} (hv : c.variant = .A) (code : Byte) :
    (events (sendCmdActs c code)).length = 4 := by
  rw [events_sendCmdActs, cmdEvents, hv]
  rfl

/-- A data session has one event less where no byte is transferred (R133). -/
theorem length_sendData_A {c : Config} (hv : c.variant = .A) (bytes : List Byte) :
    (events (sendDataActs c bytes)).length = if bytes = [] then 3 else 4 := by
  rw [events_sendDataActs_eq, dataEvents, hv]
  cases bytes <;> rfl

theorem length_beginStream_A {c : Config} (hv : c.variant = .A) : (events (beginStreamActs c)).length = 2 := by
  rw [events_beginStreamActs, streamEvents, hv]
  rfl

theorem length_rawWrite_A {c : Config} (hv : c.variant = .A) (bytes : List Byte) :
    (events (rawWriteActs c bytes)).length = if bytes = [] then 0 else 1 := by
  rw [events_rawWriteActs, rawEvents, hv]
  cases bytes <;> rfl

/-- What a command of variant B costs: the session of its 8 bits. -/
theorem sendCmd_counts_B {c : Config} (hv : c.variant = .B) (level : Bool) (code : Byte) :
    (events (sendCmdActs c code)).length = 42 ∧ risingEdges level (events (sendCmdActs c code)) = 8 := by
  rw [events_sendCmdActs_B hv, length_bitSession, risingEdges_bitSession]
  exact ⟨rfl, rfl⟩

/-- What data of variant B cost: the session of 9 bits a byte. -/
theorem sendData_counts_B {c : Config} (hv : c.variant = .B) (level : Bool) (bytes : List Byte) :
    (events (sendDataActs c bytes)).length = 45 * bytes.length + 2 ∧
      risingEdges level (events (sendDataActs c bytes)) = 9 * bytes.length := by
  rw [events_sendDataActs_B hv, length_bitSession, risingEdges_bitSession, length_dataBits]
  exact ⟨by omega, rfl⟩

/-- What a raw write of variant B costs: 9 or 8 bits a byte, by the mode bit. -/
theorem rawWrite_counts_B {c : Config} (hv : c.variant = .B) (level : Bool) (bytes : List Byte) :
    (events (rawWriteActs c bytes)).length = (if c.bRawModeBit then 45 else 40) * bytes.length ∧
      risingEdges level (events (rawWriteActs c bytes)) = (if c.bRawModeBit then 9 else 8) * bytes.length := by
  have hedges := risingEdges_shiftBits level (rawBits c.bRawModeBit bytes) (more := []) fun _ => rfl
  rw [List.append_nil, length_rawBits] at hedges
  rw [rawWriteActs_B_bits hv, length_shiftBits, length_rawBits]
  refine ⟨?_, hedges⟩
  split <;> omega

/-- Settles O47: variant A by its short event lists, variant B by the number of bits each operation shifts. -/
theorem framerEventCounts : Obligations.FramerEventCounts := by
  unfold Obligations.FramerEventCounts
  intro s t code bytes _
  refine ⟨fun h ht => ⟨_, exec_bus (by simp) h ht, ?_, ?_⟩, fun h ht => ⟨_, exec_bus (by simp) h ht, ?_, ?_⟩,
    fun h ht => ⟨_, exec_bus (by simp) h ht, ?_, ?_⟩, fun h ht => ⟨_, exec_bus (by simp) h ht, ?_, ?_⟩,
    fun h ht => ⟨_, exec_bus (by simp) h ht, rfl, fun _ => rfl⟩⟩
  · exact fun hv => length_sendCmd_A hv code
  · exact fun hv => sendCmd_counts_B hv s.pins.sck code
  · exact fun hv => length_sendData_A hv bytes
  · exact fun hv => sendData_counts_B hv s.pins.sck bytes
  · exact fun hv => length_beginStream_A hv
  · intro hv
    rw [actsOf, events_beginStreamActs_B hv]
    exact ⟨rfl, rfl⟩
  · exact fun hv => length_rawWrite_A hv bytes
  · exact fun hv => rawWrite_counts_B hv s.pins.sck bytes

/-! ## Sampled bits (R146) -/

/-- The bits of an open session are sampled one by one, `SDA` as it stands at the rising edge. -/
theorem sessionBits_shiftBits (p : Pins) (bits vs : List Bool) (es : List Event) :
    sessionBits p (some bits) (events (shiftBits vs) ++ es) =
      sessionBits (p.applyAll (events (shiftBits vs))) (some (bits ++ vs)) es := by
  induction vs generalizing p bits with
  | nil => simp [shiftBits]
  | cons v vs ih =>
    have hcons : shiftBits (v :: vs) = shiftBit v ++ shiftBits vs := rfl
    have hbit (fs : List Event) : sessionBits p (some bits) (events (shiftBit v) ++ fs) =
      sessionBits (p.applyAll (events (shiftBit v))) (some (bits ++ [v])) fs := rfl
    rw [hcons, events_append, List.append_assoc, hbit, ih, applyAll_append, List.append_assoc]
    rfl

theorem sessionBits_bitSession (p : Pins) (vs : List Bool) : sessionBits p none (bitSession vs) = [vs] := by
  rw [bitSession, session, List.cons_append, sessionBits, sessionBits_shiftBits]
  rfl

/-- Each bit drives `SDA` before `SCK` falls and not again before it rises (R135). -/
theorem dataHeld_shiftBits (vs : List Bool) (es : List Event) :
    dataHeld false (events (shiftBits vs) ++ es) = dataHeld false es := by
  induction vs with
  | nil => rfl
  | cons v vs ih => exact ih

theorem dataHeld_bitSession (vs : List Bool) : dataHeld false (bitSession vs) = true :=
  dataHeld_shiftBits vs [.setCS .idle]

/-- The events between two histories, where they are those of a session of some bits. -/
theorem sampled_of_bus {s t : State} {es : List Event} {vs : List Bool} (hes : t.bus = s.bus ++ es)
    (hbus : t.bus = s.bus ++ bitSession vs) : sessionBits s.pins none es = [vs] ∧ dataHeld false es = true := by
  obtain rfl := List.append_cancel_left (hes.symm.trans hbus)
  exact ⟨sessionBits_bitSession s.pins vs, dataHeld_bitSession vs⟩

/-- A stream of raw writes from a ready state leaves the events of all its acts on the bus. -/
theorem runAll_stream {s : State} (hr : ready s) (hs : s.sess = .closed) (writes : List (List Byte)) :
    runAll (.beginStream :: writes.map .rawWrite ++ [.endStream]) s =
      .next (s.run (beginStreamActs s.cfg ++ writes.flatMap (rawWriteActs s.cfg) ++ endStreamActs)).complete := by
  have hend : inTurn .stream [.endStream] := ⟨rfl, .endStream, rfl, by decide, rfl, trivial⟩
  have hturn : inTurn s.sess (.beginStream :: (writes.map .rawWrite ++ [.endStream])) :=
    ⟨rfl, .beginStream, rfl, by decide, hs, inTurn_rawWrites writes id hend⟩
  have hacts : (Instr.beginStream :: (writes.map .rawWrite ++ [.endStream])).flatMap (actsOf s.cfg) =
      beginStreamActs s.cfg ++ writes.flatMap (rawWriteActs s.cfg) ++ endStreamActs := by
    simp [List.flatMap_map, actsOf]
  rw [← hacts]
  exact runAll_inTurn hr _ _ hturn

/-- Settles O48: each of the three is one session of its bits. -/
theorem sampledBits : Obligations.SampledBits := by
  unfold Obligations.SampledBits
  intro s t es hr hv hm hs hes bits
  refine ⟨fun code h => sampled_of_bus hes ?_, fun bytes h => sampled_of_bus hes ?_,
    fun writes h => sampled_of_bus hes ?_⟩
  · cases (exec_acts (op := .sendCmd) rfl (by decide) (available_of_both rfl _) hr hs).symm.trans h
    exact congrArg _ (events_sendCmdActs_B hv code)
  · cases (exec_acts (op := .sendData) rfl (by decide) (available_of_both rfl _) hr hs).symm.trans h
    exact congrArg _ (events_sendDataActs_B hv bytes)
  · cases (runAll_stream hr hs writes).symm.trans h
    exact congrArg _ (events_stream_B hv hm writes)

end Sys2Proof.Machine

/-! PROOF. What the panel controller driver's operations leave (`41_panel_driver.md` R171 to R173): each makes its
sessions one after the other, and of the pin levels those of the last one stay. -/

namespace Sys2Proof.Machine
open Sys2Proof Sys2Proof.Spec

/-- `exec_done` for an operation of both variants, with its events and the pin levels they leave given by name. -/
theorem exec_leaves {i : Instr} {op : Op} {s : State} {es : List Event} {p : Pins} (ho : opOf i = some op)
    (hne : op ≠ .render) (hboth : onlyIn i = none) (hr : ready s) (hs : s.sess = requiredSess op)
    (hes : opEvents s.cfg i = es) (hp : s.pins.applyAll es = p) :
    exec i s = .next (done s es p (finalSess op)) := by
  rw [exec_done ho hne (available_of_both hboth _) hr hs, hes, hp]

/-! ## SET_WINDOW (R171) -/

/-- A data block sets every level a command before it has set (R144). -/
theorem dataPins_cmdPins (c : Config) (p : Pins) (code : Byte) (first last : Half) :
    dataPins c (cmdPins c p code) (blockBytes first last) = dataPins c p (blockBytes first last) := by
  unfold dataPins cmdPins
  cases c.variant <;> rfl

/-- A data block sets every level another data block before it has set (R144). -/
theorem dataPins_dataPins (c : Config) (p : Pins) (bytes : List Byte) (first last : Half) :
    dataPins c (dataPins c p bytes) (blockBytes first last) = dataPins c p (blockBytes first last) := by
  unfold dataPins shiftedAll
  cases c.variant with
  | A => rfl
  | B => cases bytes.getLast? <;> rfl

/-- After `SET_WINDOW`: of the four sessions the last, the data block of the second axis, stays on the pins. -/
theorem applyAll_windowEvents (c : Config) (p : Pins) (x0 y0 x1 y1 : Half) :
    p.applyAll (windowEvents c x0 y0 x1 y1) = dataPins c p (blockBytes y0 y1) := by
  simp only [windowEvents, applyAll_append, applyAll_cmdSession, applyAll_dataSession]
  rw [dataPins_cmdPins, dataPins_dataPins, dataPins_cmdPins]

/-- The bit a data block shifts last is bit 0 of its second coordinate (R101, R136). -/
theorem shiftedAll_blockBytes (p : Pins) (first last : Half) :
    shiftedAll p (blockBytes first last) = { p with sck := true, sda := last.getLsbD 0 } := by
  have hlow : (BitVec.ofNat 8 last.toNat).getLsbD 0 = last.getLsbD 0 := by simp [BitVec.getLsbD]
  exact congrArg (fun v => { p with sck := true, sda := v }) hlow

/-- Settles O13: the pins are those of the last data block, whose last byte is the low byte of `y1`. -/
theorem setWindowCompletes : Obligations.SetWindowCompletes := by
  unfold Obligations.SetWindowCompletes
  intro s x0 y0 x1 y1 hr hs
  refine exec_leaves (op := .setWindow) rfl (by decide) rfl hr hs rfl ?_
  rw [applyAll_windowEvents, dataPins]
  cases s.cfg.variant with
  | A => rfl
  | B =>
    dsimp only
    rw [shiftedAll_blockBytes]

/-! ## BEGIN_FRAME and END_FRAME (R172, R173) -/

/-- Settles O14: the open stream asserts `CS` again, and in variant B the command byte stays on the data line. -/
theorem beginFrameCompletes : Obligations.BeginFrameCompletes := by
  unfold Obligations.BeginFrameCompletes
  intro s hr hs
  refine exec_leaves (op := .beginFrame) rfl (by decide) rfl hr hs rfl ?_
  rw [applyAll_append, applyAll_cmdSession, applyAll_streamEvents, streamPins, cmdPins]
  cases s.cfg.variant <;> rfl

/-- Settles O15: the one event of `END_FRAME` takes `CS` to idle. -/
theorem endFrameCompletes : Obligations.EndFrameCompletes := by
  unfold Obligations.EndFrameCompletes
  intro s hr hs
  exact exec_leaves (op := .endFrame) rfl (by decide) rfl hr hs rfl rfl

end Sys2Proof.Machine

/-! PROOF. The renderer's arithmetic (`42_renderer.md` R191 to R207): the viewport and its padding, the row and column
maps, and the sizes of the products and indices. -/

namespace Sys2Proof.Machine
open Sys2Proof Sys2Proof.Spec

/-! ## The viewport (R191, R192) -/

/-- The height fit: the width fit would be too high, strictly. -/
theorem viewport_heightFit {c : Config} (h : c.hDst < c.wDst * c.hSrc / c.wSrc) :
    (viewport c).actW = c.hDst * c.wSrc / c.hSrc ∧ (viewport c).actH = c.hDst := by
  have he : exceedsHeight c = true := decide_eq_true h
  exact ⟨if_pos he, if_pos he⟩

/-- The width fit, everywhere else. -/
theorem viewport_widthFit {c : Config} (h : ¬ c.hDst < c.wDst * c.hSrc / c.wSrc) :
    (viewport c).actW = c.wDst ∧ (viewport c).actH = c.wDst * c.hSrc / c.wSrc := by
  have he : ¬ exceedsHeight c = true := fun he => h (of_decide_eq_true he)
  exact ⟨if_neg he, if_neg he⟩

/-- One axis is filled (R192). -/
theorem viewport_fills (c : Config) : (viewport c).actW = c.wDst ∨ (viewport c).actH = c.hDst := by
  by_cases h : c.hDst < c.wDst * c.hSrc / c.wSrc
  · exact .inr (viewport_heightFit h).2
  · exact .inl (viewport_widthFit h).1

/-- The height fit is narrower than the panel: one more row would still fit the panel's width. -/
theorem heightFitWidth_lt {c : Config} (hc : legal c) (h : c.hDst < c.wDst * c.hSrc / c.wSrc) :
    c.hDst * c.wSrc / c.hSrc < c.wDst := by
  have hw : 1 ≤ c.wSrc := (legal_iff c).1 hc .wSrcMin
  refine Nat.div_lt_of_lt_mul ?_
  calc c.hDst * c.wSrc < (c.hDst + 1) * c.wSrc := Nat.mul_lt_mul_of_pos_right (Nat.lt_succ_self _) hw
    _ ≤ c.wDst * c.hSrc / c.wSrc * c.wSrc := Nat.mul_le_mul_right _ h
    _ ≤ c.wDst * c.hSrc := Nat.div_mul_le_self _ _
    _ = c.hSrc * c.wDst := Nat.mul_comm _ _

/-- Settles O31, in the height fit and in the width fit. -/
theorem viewportFillsOneAxis : Obligations.ViewportFillsOneAxis := by
  unfold Obligations.ViewportFillsOneAxis
  intro c hc
  refine ⟨?_, viewport_actW_le c, viewport_actH_le c, viewport_fills c, fun h => ?_⟩
  · split
    next h => exact Prod.ext (viewport_heightFit h).1 (viewport_heightFit h).2
    next h => exact Prod.ext (viewport_widthFit h).1 (viewport_widthFit h).2
  · rw [(viewport_heightFit h).1]
    exact Nat.le_sub_one_of_lt (heightFitWidth_lt hc h)

/-! ## The padding (R193, R194) -/

theorem viewport_yPad (c : Config) : (viewport c).yPad = (c.hDst - (viewport c).actH) / 2 := rfl

/-- Settles O32: half of what the active rectangle leaves free, which on the filled axis is nothing. -/
theorem paddingOnAtMostOneAxis : Obligations.PaddingOnAtMostOneAxis := by
  unfold Obligations.PaddingOnAtMostOneAxis
  intro c _ v
  have hx : v.xPad = (c.wDst - v.actW) / 2 := viewport_xPad c
  have hy : v.yPad = (c.hDst - v.actH) / 2 := viewport_yPad c
  have hW : v.actW ≤ c.wDst := viewport_actW_le c
  have hH : v.actH ≤ c.hDst := viewport_actH_le c
  have hfill : v.actW = c.wDst ∨ v.actH = c.hDst := viewport_fills c
  omega

/-! ## The map of both axes (R196, R198, R205) -/

/-- Position `j` of `m` active ones, scaled to `n` source positions. -/
def scaled (n m j : Nat) : Nat := j * n / m

theorem srcCol_eq_scaled (c : Config) (vp : Viewport) (x : Nat) : srcCol c vp x = scaled c.wSrc vp.actW x := rfl

theorem srcRow_eq_scaled (c : Config) (vp : Viewport) (y : Nat) :
    srcRow c vp y = scaled c.hSrc vp.actH (y - vp.yPad) := rfl

theorem scaled_zero (n m : Nat) : scaled n m 0 = 0 := by simp [scaled]

theorem scaled_mono (n m : Nat) {i j : Nat} (h : i ≤ j) : scaled n m i ≤ scaled n m j :=
  Nat.div_le_div_right (Nat.mul_le_mul_right n h)

/-- Scaling up repeats: a neighbour is at most one further. -/
theorem scaled_succ_le {n m : Nat} (h : n ≤ m) (j : Nat) : scaled n m (j + 1) ≤ scaled n m j + 1 := by
  rcases Nat.eq_zero_or_pos m with rfl | hm
  · simp [scaled]
  · calc scaled n m (j + 1) = (j * n + n) / m := by rw [scaled, Nat.succ_mul]
      _ ≤ (j * n + m) / m := Nat.div_le_div_right (Nat.add_le_add_left h _)
      _ = scaled n m j + 1 := Nat.add_div_right _ hm

/-- Scaling down skips: a neighbour is at least one further. -/
theorem scaled_succ_ge {n m : Nat} (hm : 0 < m) (h : m ≤ n) (j : Nat) : scaled n m j + 1 ≤ scaled n m (j + 1) := by
  calc scaled n m j + 1 = (j * n + m) / m := (Nat.add_div_right _ hm).symm
    _ ≤ (j * n + n) / m := Nat.div_le_div_right (Nat.add_le_add_left h _)
    _ = scaled n m (j + 1) := by rw [scaled, Nat.succ_mul]

/-- Scaling up uses every source position: `k` is used by the first `j` with `k * m ≤ j * n`. -/
theorem scaled_hits {n m k : Nat} (h : n ≤ m) (hk : k < n) : ∃ j, j < m ∧ scaled n m j = k := by
  have hn : 0 < n := Nat.zero_lt_of_lt hk
  have hdiv := Nat.div_add_mod (k * m + n - 1) n
  have hmod := Nat.mod_lt (k * m + n - 1) hn
  generalize (k * m + n - 1) / n = j at hdiv
  rw [Nat.mul_comm n j] at hdiv
  have hlo : k * m ≤ j * n := by omega
  have hhi : j * n < (k + 1) * m := by rw [Nat.succ_mul]; omega
  refine ⟨j, ?_, Nat.div_eq_of_lt_le hlo hhi⟩
  have hlast : j * n < m * n := hhi.trans_le (by rw [Nat.mul_comm m n]; exact Nat.mul_le_mul_right m hk)
  exact Nat.lt_of_mul_lt_mul_right hlast

/-- Scaling down leaves a source position out: there are fewer active positions than source positions. -/
theorem scaled_misses {n m : Nat} (h : m < n) : ∃ k, k < n ∧ ∀ j, j < m → scaled n m j ≠ k := by
  have hcard : ((Finset.range m).image (scaled n m)).card < (Finset.range n).card :=
    Finset.card_image_le.trans_lt (by simpa using h)
  obtain ⟨k, hk, hnot⟩ := Finset.exists_mem_notMem_of_card_lt_card hcard
  exact ⟨k, Finset.mem_range.1 hk, fun j hj e => hnot (Finset.mem_image.2 ⟨j, Finset.mem_range.2 hj, e⟩)⟩

/-! ## The maps stay inside the source (R196, R198, R65) -/

/-- The word of a source pixel is one of the words the caller guarantees (R65). -/
theorem wordIndex_lt {c : Config} (hc : legal c) {sx sy : Nat} (hx : sx < c.wSrc) (hy : sy < c.hSrc) :
    wordIndex c sx sy < sourceWords c := by
  have hword := wordInRow_lt_stride hc hx
  calc wordIndex c sx sy < (sy + 1) * c.stride := by rw [wordIndex, Nat.succ_mul]; omega
    _ ≤ sourceWords c := Nat.mul_le_mul_right _ hy

/-- Settles O33: both maps start at 0, grow with their argument and stay below the source's size. -/
theorem mapsStayInsideTheSource : Obligations.MapsStayInsideTheSource := by
  unfold Obligations.MapsStayInsideTheSource
  intro c hc v
  refine ⟨fun y hy => ⟨rfl, ?_, Nat.le_sub_one_of_lt (srcRow_lt hc hy)⟩, fun _ => ?_,
    fun x hx => ⟨rfl, Nat.le_sub_one_of_lt (srcCol_lt hc hx)⟩, ?_, fun _ _ => wordIndex_lt hc⟩
  · obtain ⟨_, _⟩ := (inBand_iff v y).1 hy
    exact scaled_mono c.hSrc v.actH (show y - v.yPad ≤ v.actH - 1 by omega)
  · rw [srcRow_eq_scaled, Nat.sub_self, scaled_zero]
  · rw [srcCol_eq_scaled, scaled_zero]

/-! ## The maps never invert (R205) -/

/-- The rows inside the band, counted from its first row. -/
theorem inBand_iff_exists (vp : Viewport) (y : Nat) :
    inBand vp y = true ↔ ∃ j, j < vp.actH ∧ y = vp.yPad + j := by
  rw [inBand_iff]
  constructor
  · rintro ⟨hlo, hhi⟩
    exact ⟨y - vp.yPad, by omega, by omega⟩
  · rintro ⟨j, hj, rfl⟩
    omega

theorem srcRow_add (c : Config) (vp : Viewport) (j : Nat) : srcRow c vp (vp.yPad + j) = scaled c.hSrc vp.actH j := by
  rw [srcRow_eq_scaled, Nat.add_sub_cancel_left]

/-- Settles O34: what the scaling does, said of the rows of the band and of the active columns. -/
theorem mapsAreMonotone : Obligations.MapsAreMonotone := by
  unfold Obligations.MapsAreMonotone
  intro c _ v
  simp only [srcCol_eq_scaled]
  refine ⟨fun y y' _ _ h => scaled_mono _ _ (Nat.sub_le_sub_right h _), fun x x' h _ => scaled_mono _ _ h,
    fun hup => ⟨fun sy hsy => ?_, fun y hy _ => ?_⟩, fun hdown => ⟨?_, fun y hy _ => ?_⟩,
    fun hup => ⟨fun sx hsx => scaled_hits hup hsx, fun x _ => scaled_succ_le hup x⟩,
    fun hdown => ⟨scaled_misses hdown, fun x hx => scaled_succ_ge (by omega) hdown.le x⟩⟩
  · obtain ⟨j, hj, e⟩ := scaled_hits hup hsy
    exact ⟨v.yPad + j, (inBand_iff_exists v _).2 ⟨j, hj, rfl⟩, (srcRow_add c v j).trans e⟩
  · obtain ⟨j, _, rfl⟩ := (inBand_iff_exists v y).1 hy
    rw [Nat.add_assoc, srcRow_add, srcRow_add]
    exact scaled_succ_le hup j
  · obtain ⟨sy, hsy, hmiss⟩ := scaled_misses hdown
    refine ⟨sy, hsy, fun y hy => ?_⟩
    obtain ⟨j, hj, rfl⟩ := (inBand_iff_exists v y).1 hy
    rw [srcRow_add]
    exact hmiss j hj
  · obtain ⟨j, hj, rfl⟩ := (inBand_iff_exists v y).1 hy
    rw [Nat.add_assoc, srcRow_add, srcRow_add]
    exact scaled_succ_ge (Nat.zero_lt_of_lt hj) hdown.le j

/-! ## Equal shapes (R204) -/

/-- Matching aspect ratios: the width fit is as high as the panel. -/
theorem viewport_of_sameRatio {c : Config} (hc : legal c) (h : c.wDst * c.hSrc = c.hDst * c.wSrc) :
    viewport c = { actW := c.wDst, actH := c.hDst, xPad := 0, yPad := 0 } := by
  have hw : 1 ≤ c.wSrc := (legal_iff c).1 hc .wSrcMin
  have hheight : c.wDst * c.hSrc / c.wSrc = c.hDst := by rw [h, Nat.mul_div_cancel _ hw]
  obtain ⟨hW, hH⟩ := viewport_widthFit (c := c) (by omega)
  rw [hheight] at hH
  have hx := viewport_xPad c
  have hy := viewport_yPad c
  rw [hW, Nat.sub_self] at hx
  rw [hH, Nat.sub_self] at hy
  calc viewport c = ⟨(viewport c).actW, (viewport c).actH, (viewport c).xPad, (viewport c).yPad⟩ := rfl
    _ = _ := by rw [hW, hH, hx, hy]

/-- Settles O35: equal sizes have matching ratios, and scaling to the same size does nothing. -/
theorem equalShapesNeedNoPadding : Obligations.EqualShapesNeedNoPadding := by
  unfold Obligations.EqualShapesNeedNoPadding
  intro c hc
  refine ⟨viewport_of_sameRatio hc, fun hw hh x y hx hy => ?_⟩
  rw [viewport_of_sameRatio hc (by rw [hw, hh, Nat.mul_comm]), srcCol, srcRow, hw, hh]
  exact ⟨Nat.mul_div_cancel x (Nat.zero_lt_of_lt hx), Nat.mul_div_cancel y (Nat.zero_lt_of_lt hy)⟩

/-! ## Degenerate viewports (R207) -/

/-- Outside the active rectangle a pixel is off (R209). -/
theorem pixel_outside {c : Config} {x y : Nat} (image : Nat → Nat → Bool)
    (h : ¬ ((viewport c).yPad ≤ y ∧ y < (viewport c).yPad + (viewport c).actH ∧
      (viewport c).xPad ≤ x ∧ x < (viewport c).xPad + (viewport c).actW)) :
    pixel c image x y = colorOff := if_neg h

/-- Settles O36: a quotient whose numerator is too small is 0, and an empty rectangle has no pixel inside. -/
theorem degenerateFramesAreOff : Obligations.DegenerateFramesAreOff := by
  unfold Obligations.DegenerateFramesAreOff
  intro c _
  refine ⟨fun h => ?_, fun hhigh h => ?_, fun hempty image x y => pixel_outside image (by omega)⟩
  · have hzero : c.wDst * c.hSrc / c.wSrc = 0 := Nat.div_eq_of_lt h
    rw [(viewport_widthFit (by omega)).2, hzero]
  · rw [(viewport_heightFit hhigh).1, Nat.div_eq_of_lt h]

/-! ## Sizes (R206) -/

/-- A product of two 16-bit quantities fits 32 bits. -/
theorem mul_lt_two_pow_32 {a b : Nat} (ha : a ≤ 65535) (hb : b ≤ 65535) : a * b < 2 ^ 32 :=
  (Nat.mul_le_mul ha hb).trans_lt (by decide)

/-- A row takes at most one word for each pixel (R10). -/
theorem stride_le {c : Config} (hc : legal c) : c.stride ≤ c.wSrc := by
  have hstride : c.stride = (c.wSrc + c.wordBits - 1) / c.wordBits := (legal_iff c).1 hc .stride
  have hw : 1 ≤ c.wSrc := (legal_iff c).1 hc .wSrcMin
  have hbits : 1 ≤ c.wordBits := (legal_iff c).1 hc .wordBitsMin
  rw [hstride]
  refine Nat.div_le_of_le_mul ?_
  obtain ⟨w, hw⟩ := Nat.exists_eq_add_of_le' hw
  rw [hw, Nat.mul_succ]
  have hrow : w ≤ c.wordBits * w := Nat.le_mul_of_pos_left w hbits
  omega

/-- Settles O37: every factor fits 16 bits, and the active columns end inside the row. -/
theorem thirtyTwoBitsSuffice : Obligations.ThirtyTwoBitsSuffice := by
  unfold Obligations.ThirtyTwoBitsSuffice
  intro c hc v
  have hwSrc : c.wSrc ≤ 65535 := (legal_iff c).1 hc .wSrcMax
  have hhSrc : c.hSrc ≤ 65535 := (legal_iff c).1 hc .hSrcMax
  have hwDst : c.wDst ≤ 65535 := (legal_iff c).1 hc .wDstMax
  have hhDst : c.hDst ≤ 65535 := (legal_iff c).1 hc .hDstMax
  have hW : v.xPad + v.actW ≤ c.wDst := viewport_band_le c
  have hH : v.actH ≤ c.hDst := viewport_actH_le c
  refine ⟨mul_lt_two_pow_32 hwDst hhSrc, mul_lt_two_pow_32 hhDst hwSrc, fun y hy => ?_, fun x hx => ?_,
    fun sx sy hx hy => ?_⟩
  · obtain ⟨_, _⟩ := (inBand_iff v y).1 hy
    exact mul_lt_two_pow_32 (by omega) hhSrc
  · exact ⟨mul_lt_two_pow_32 (by omega) hwSrc, by omega⟩
  · exact (wordIndex_lt hc hx hy).trans (mul_lt_two_pow_32 hhSrc ((stride_le hc).trans hwSrc))

end Sys2Proof.Machine

/-! PROOF. What a RENDER on a readable, stable buffer leaves (`42_renderer.md` R203, R208, R209): the events and pin
levels of the frame, and what a source of one colour gives. -/

namespace Sys2Proof.Machine
open Sys2Proof Sys2Proof.Spec

/-! ## The pins after the rows (R144) -/

/-- One raw write after another: the last byte of both stays on the pins. -/
theorem rawPins_append (c : Config) (p : Pins) (as bs : List Byte) :
    rawPins c p (as ++ bs) = rawPins c (rawPins c p as) bs := by
  unfold rawPins
  cases c.variant with
  | A => rfl
  | B =>
    induction as generalizing p with
    | nil => rfl
    | cons a as ih =>
      dsimp only at ih ⊢
      rw [List.cons_append, shiftedAll_cons, shiftedAll_cons, ih]

theorem rawPins_nil (c : Config) (p : Pins) : rawPins c p [] = p := by
  unfold rawPins
  cases c.variant <;> rfl

/-- Raw writes leave the pins as one raw write of all their bytes does. -/
theorem applyAll_rawWrites (c : Config) (p : Pins) (rows : List (List Byte)) :
    p.applyAll (rows.flatMap (rawEvents c)) = rawPins c p rows.flatten := by
  induction rows generalizing p with
  | nil => exact (rawPins_nil c p).symm
  | cons row rows ih =>
    rw [List.flatMap_cons, applyAll_append, applyAll_rawEvents, ih, List.flatten_cons, rawPins_append]

/-- The pins a whole frame of some bytes leaves: the last byte on the data line of variant B, the mode line of variant A
at data. -/
theorem applyAll_renderEvents (c : Config) (p : Pins) (rows : List (List Byte)) :
    p.applyAll (renderEvents c rows) =
      { rawPins c (streamPins c (cmdPins c (dataPins c p
          (blockBytes (BitVec.ofNat 16 c.yOff) (BitVec.ofNat 16 (c.yOff + c.hDst - 1)))) c.cmdRamwr)) rows.flatten with
        cs := .idle } := by
  simp only [renderEvents, renderOpening, applyAll_append, applyAll_windowEvents, applyAll_cmdSession,
    applyAll_streamEvents, applyAll_rawWrites]
  rfl

/-! ## The last byte of a frame (R76, R102) -/

/-- The rows of an image as the renderer sends them, one byte list each. -/
abbrev imageRows (c : Config) (image : Nat → Nat → Bool) : List (List Byte) :=
  (List.range c.hDst).map (rowBytes c image)

/-- The rows one after the other are the pixel bytes of the frame (R76). -/
theorem flatten_imageRows (c : Config) (image : Nat → Nat → Bool) :
    (imageRows c image).flatten = frameBytes c image := rfl

/-- The last byte of a frame is the low byte of its last pixel. -/
theorem getLast?_frameBytes {c : Config} (hc : legal c) (image : Nat → Nat → Bool) :
    (frameBytes c image).getLast? = some (lo8 (pixel c image (c.wDst - 1) (c.hDst - 1))) := by
  obtain ⟨w, hw⟩ : ∃ w, c.wDst = w + 1 := Nat.exists_eq_add_of_le' ((legal_iff c).1 hc .wDstMin)
  obtain ⟨h, hh⟩ : ∃ h, c.hDst = h + 1 := Nat.exists_eq_add_of_le' ((legal_iff c).1 hc .hDstMin)
  simp [frameBytes, rowBytes, hw, hh, List.range_succ, pixelBytes]

/-- The bit a pixel shifts last is its bit 0 (R102, R136). -/
theorem getLsbD_lo8 (p : Half) : (lo8 p).getLsbD 0 = p.getLsbD 0 := by simp [lo8]

/-! ## RENDER -/

/-- The acts of a whole RENDER make the spec's events (R203). -/
theorem events_renderActs (c : Config) (image : Nat → Nat → Bool) :
    events (prologueActs c ++ imageActs c image ++ endFrameActs) = renderEvents c (imageRows c image) := by
  have hrows : events (imageActs c image) = (imageRows c image).flatMap (rawEvents c) := by
    rw [imageActs, events_flatMap, List.flatMap_map]
    exact List.flatMap_congr fun y _ => events_rawWriteActs c _
  rw [events_append, events_append, events_prologueActs, hrows]
  rfl

/-- Some acts made at once, as a completed operation says it. -/
theorem complete_run_eq_done (s : State) (acts : List Act) :
    (s.run acts).complete = done s (events acts) (s.pins.applyAll (events acts)) (sessAfter s.sess acts) := rfl

/-- The pins after RENDER, by variant (R144). -/
theorem applyAll_imageEvents {c : Config} (hc : legal c) (p : Pins) (image : Nat → Nat → Bool) :
    p.applyAll (renderEvents c (imageRows c image)) =
      match c.variant with
      | .A => { p with cs := .idle, dc := .data }
      | .B => { p with
          cs := .idle
          sck := true
          sda := (pixel c image (c.wDst - 1) (c.hDst - 1)).getLsbD 0 } := by
  rw [applyAll_renderEvents, flatten_imageRows]
  unfold rawPins streamPins cmdPins dataPins
  cases c.variant with
  | A => rfl
  | B =>
    simp only [shiftedAll, getLast?_frameBytes hc, shifted, getLsbD_lo8]
    rfl

/-- Settles O40: the acts of the rows between opening and close make the events, and of the pin levels those of the
last row stay. -/
theorem renderSendsTheFrame : Obligations.RenderSendsTheFrame := by
  unfold Obligations.RenderSendsTheFrame
  intro s fb image h
  obtain ⟨u, hu, hexec⟩ := exec_render_renderable h
  refine ⟨_, hexec, ?_⟩
  have hsame := sameButRenderer_of_sent hu
  have hclosed (q : Sess) : sessAfter q (prologueActs s.cfg ++ imageActs s.cfg image ++ endFrameActs) = .closed := by
    rw [sessAfter_append]
    rfl
  rw [complete_run_eq_done, events_renderActs, hclosed, applyAll_imageEvents h.1.1] at hsame
  exact hsame

/-! ## Sources of one colour (R208) -/

/-- A stretch of equal pixels of equal bytes. -/
theorem flatMap_pairs {f : Nat → List Byte} {n : Nat} {b : Byte} (h : ∀ x, x < n → f x = [b, b]) :
    (List.range n).flatMap f = List.replicate (2 * n) b := by
  rw [List.flatMap_congr fun x hx => h x (List.mem_range.1 hx)]
  exact List.eq_replicate_iff.2 ⟨by simp [List.length_flatMap, Nat.mul_comm], by simp⟩

theorem flatMap_range_add {α : Type} (f : Nat → List α) (a b : Nat) :
    (List.range (a + b)).flatMap f = (List.range a).flatMap f ++ (List.range b).flatMap fun x => f (a + x) := by
  rw [List.range_add, List.flatMap_append, List.flatMap_map]

/-- A row without a lit pixel. -/
theorem rowBytes_off {c : Config} {image : Nat → Nat → Bool} {y : Nat} (h : ∀ x, pixel c image x y = colorOff) :
    rowBytes c image y = List.replicate (2 * c.wDst) 0x00#8 :=
  flatMap_pairs fun x _ => by rw [h x, pixelBytes_colorOff]

/-- Inside the active rectangle a pixel of an all-on source is on (R209). -/
theorem pixel_inside_allOn {c : Config} {x y : Nat} (hy : inBand (viewport c) y = true)
    (hx : (viewport c).xPad ≤ x ∧ x < (viewport c).xPad + (viewport c).actW) :
    pixel c (fun _ _ => true) x y = colorOn := by
  obtain ⟨hlo, hhi⟩ := (inBand_iff _ _).1 hy
  exact if_pos ⟨hlo, hhi, hx⟩

/-- A row of the band of an all-on source: lit between the two paddings. -/
theorem rowBytes_allOn {c : Config} {y : Nat} (hy : inBand (viewport c) y = true) :
    rowBytes c (fun _ _ => true) y =
      List.replicate (2 * (viewport c).xPad) 0x00#8 ++ List.replicate (2 * (viewport c).actW) 0xFF#8 ++
        List.replicate (2 * (c.wDst - (viewport c).xPad - (viewport c).actW)) 0x00#8 := by
  have hfit := viewport_band_le c
  have hsplit : c.wDst = (viewport c).xPad + (viewport c).actW +
      (c.wDst - (viewport c).xPad - (viewport c).actW) := by omega
  have hon : pixelBytes colorOn = [0xFF#8, 0xFF#8] := by decide
  rw [rowBytes]
  conv_lhs => rw [hsplit]
  rw [flatMap_range_add, flatMap_range_add]
  congr 1
  · congr 1
    · exact flatMap_pairs fun x hx => by rw [pixel_outside _ (by omega), pixelBytes_colorOff]
    · exact flatMap_pairs fun x hx => by rw [pixel_inside_allOn hy (by omega), hon]
  · exact flatMap_pairs fun x hx => by rw [pixel_outside _ (by omega), pixelBytes_colorOff]

/-- A source of one colour, row by row: lit inside the band if it is all on, off everywhere else. -/
theorem rowBytes_uniform (c : Config) (b : Bool) (y : Nat) :
    rowBytes c (fun _ _ => b) y =
      if b = true ∧ (viewport c).yPad ≤ y ∧ y < (viewport c).yPad + (viewport c).actH then
        List.replicate (2 * (viewport c).xPad) 0x00#8 ++ List.replicate (2 * (viewport c).actW) 0xFF#8 ++
          List.replicate (2 * (c.wDst - (viewport c).xPad - (viewport c).actW)) 0x00#8
      else List.replicate (2 * c.wDst) 0x00#8 := by
  split
  next h =>
    obtain ⟨rfl, hband⟩ := h
    exact rowBytes_allOn ((inBand_iff _ _).2 hband)
  next h =>
    refine rowBytes_off fun x => ?_
    cases b with
    | true => exact pixel_outside _ fun hin => h ⟨rfl, hin.1, hin.2.1⟩
    | false => exact ite_id _

/-- Settles O41: the frame of O40, whose rows are those of a source of one colour. -/
theorem uniformSourcesGiveUniformBands : Obligations.UniformSourcesGiveUniformBands := by
  unfold Obligations.UniformSourcesGiveUniformBands
  intro s fb b h v
  obtain ⟨t, hexec, hsame⟩ := renderSendsTheFrame s fb _ h
  refine ⟨t, hexec, ?_, ?_⟩
  · rw [hsame]
    exact h.1.2.1
  · rw [← List.map_congr_left fun y _ => rowBytes_uniform s.cfg b y, hsame]
    rfl

/-! ## Sessions (R210) -/

theorem sessionCount_append (es fs : List Event) : sessionCount (es ++ fs) = sessionCount es + sessionCount fs :=
  List.count_append

/-- Acts that open no session open none on the bus. -/
theorem sessionCount_driveOnly {acts : List Act} (hd : driveOnly acts) (hp : acts.all Act.proper = true) :
    sessionCount (events acts) = 0 := by
  refine List.count_eq_zero.2 fun h => ?_
  obtain ⟨a, ha, he⟩ := List.mem_map.1 h
  obtain ⟨e, rfl⟩ := hd a ha
  cases he
  exact absurd (List.all_eq_true.1 hp _ ha) (by decide)

theorem sessionCount_session (es : List Event) : sessionCount (session es) = sessionCount es + 1 := by
  have hopen : sessionCount (.setCS .asserted :: es) = sessionCount es + 1 := List.count_cons_self
  rw [session, sessionCount_append, hopen]
  rfl

theorem sessionCount_cmdEvents (c : Config) (code : Byte) : sessionCount (cmdEvents c code) = 0 := by
  obtain ⟨d, hleads⟩ := leads_cmdActs c .single code
  rw [← events_cmdActs]
  exact sessionCount_driveOnly (driveOnly_cmdActs c code) hleads.1

theorem sessionCount_dataEvents (c : Config) (bytes : List Byte) : sessionCount (dataEvents c bytes) = 0 := by
  rw [← events_dataActs]
  exact sessionCount_driveOnly (driveOnly_dataActs c bytes) (leads_dataActs c .single bytes).1

theorem sessionCount_rawWrites (c : Config) (rows : List (List Byte)) :
    sessionCount (rows.flatMap (rawEvents c)) = 0 := by
  have hacts : events (rows.flatMap (rawWriteActs c)) = rows.flatMap (rawEvents c) :=
    (events_flatMap rows _).trans (List.flatMap_congr fun row _ => events_rawWriteActs c row)
  rw [← hacts]
  exact sessionCount_driveOnly (driveOnly_flatMap rows _ (driveOnly_rawWriteActs c))
    (leads_flatMap rows (leads_rawWriteActs c)).1

theorem sessionCount_streamEvents (c : Config) : sessionCount (streamEvents c) = 1 := by
  unfold streamEvents
  cases c.variant <;> rfl

/-- A RENDER opens four sessions for the window, one for the memory-write command, and the stream. -/
theorem sessionCount_renderEvents (c : Config) (rows : List (List Byte)) : sessionCount (renderEvents c rows) = 6 := by
  simp only [renderEvents, renderOpening, windowEvents, sessionCount_append, sessionCount_session,
    sessionCount_cmdEvents, sessionCount_dataEvents, sessionCount_streamEvents, sessionCount_rawWrites]
  rfl

/-! ## Events and rising edges (R145, R210) -/

/-- In variant A a raw write of some bytes is one event (R133). -/
theorem length_rawWrites_A {c : Config} (hv : c.variant = .A) {rows : List (List Byte)}
    (hrows : ∀ row ∈ rows, row ≠ []) : (rows.flatMap (rawEvents c)).length = rows.length := by
  induction rows with
  | nil => rfl
  | cons row rows ih =>
    obtain ⟨hrow, hrest⟩ := List.forall_mem_cons.1 hrows
    rw [List.flatMap_cons, List.length_append, ih hrest, ← events_rawWriteActs, length_rawWrite_A hv, if_neg hrow,
      List.length_cons, Nat.add_comm]

theorem length_renderEvents_A {c : Config} (hv : c.variant = .A) {rows : List (List Byte)}
    (hrows : ∀ row ∈ rows, row ≠ []) : (renderEvents c rows).length = rows.length + 23 := by
  have hopening : (renderOpening c).length = 22 := by
    simp [renderOpening, windowEvents, session, cmdEvents, dataEvents, streamEvents, blockBytes, hv]
  rw [renderEvents, List.length_append, List.length_append, hopening, length_rawWrites_A hv hrows,
    List.length_singleton]
  omega

/-- The edges of a history in two parts: the second starts from the level of `SCK` the first leaves. -/
theorem risingEdges_append (p : Pins) (es fs : List Event) :
    risingEdges p.sck (es ++ fs) = risingEdges p.sck es + risingEdges (p.applyAll es).sck fs := by
  induction es generalizing p with
  | nil => exact (Nat.zero_add _).symm
  | cons e es ih =>
    have h := ih (p.apply e)
    cases e with
    | setSCK v => exact (congrArg (_ + ·) h).trans (Nat.add_assoc _ _ _).symm
    | setCS | setDC | xfer | setSDA | delay => exact h

/-- Some events number `n` and raise `SCK` `edges` times, whatever its level before. -/
def costs (es : List Event) (n edges : Nat) : Prop := es.length = n ∧ ∀ p : Pins, risingEdges p.sck es = edges

theorem costs_append {es fs : List Event} {n m k l : Nat} (he : costs es n k) (hf : costs fs m l) :
    costs (es ++ fs) (n + m) (k + l) := by
  obtain ⟨hn, hk⟩ := he
  obtain ⟨hm, hl⟩ := hf
  exact ⟨by rw [List.length_append, hn, hm], fun p => by rw [risingEdges_append, hk, hl]⟩

theorem costs_cmdSession {c : Config} (hv : c.variant = .B) (code : Byte) :
    costs (session (cmdEvents c code)) 42 8 := by
  rw [← events_sendCmdActs]
  exact ⟨(sendCmd_counts_B hv false code).1, fun p => (sendCmd_counts_B hv p.sck code).2⟩

theorem costs_dataSession {c : Config} (hv : c.variant = .B) (bytes : List Byte) :
    costs (session (dataEvents c bytes)) (45 * bytes.length + 2) (9 * bytes.length) := by
  rw [← events_sendDataActs_eq]
  exact ⟨(sendData_counts_B hv false bytes).1, fun p => (sendData_counts_B hv p.sck bytes).2⟩

/-- In variant B with the mode bit the stream of a frame is one more data session (R146). -/
theorem streamOfRows_B {c : Config} (hv : c.variant = .B) (hm : c.bRawModeBit = true) (rows : List (List Byte)) :
    streamEvents c ++ rows.flatMap (rawEvents c) ++ [.setCS .idle] = session (dataEvents c rows.flatten) := by
  rw [← events_sendDataActs_eq, events_sendDataActs_B hv, ← events_stream_B hv hm, events_append, events_append,
    events_beginStreamActs, events_flatMap, List.flatMap_congr fun row _ => (events_rawWriteActs c row).symm]
  rfl

/-- The cost of a RENDER in variant B: three commands, two window blocks, the pixel bytes. -/
theorem costs_renderEvents_B {c : Config} (hv : c.variant = .B) (hm : c.bRawModeBit = true)
    (rows : List (List Byte)) :
    costs (renderEvents c rows) (492 + 45 * rows.flatten.length) (88 + 8 + 9 * rows.flatten.length) := by
  have hblock (first last : Half) : costs (session (dataEvents c (blockBytes first last))) 182 36 :=
    costs_dataSession hv _
  have hwindow := costs_append (costs_append (costs_append (costs_cmdSession hv c.cmdCaset)
    (hblock (BitVec.ofNat 16 c.xOff) (BitVec.ofNat 16 (c.xOff + c.wDst - 1)))) (costs_cmdSession hv c.cmdRaset))
    (hblock (BitVec.ofNat 16 c.yOff) (BitVec.ofNat 16 (c.yOff + c.hDst - 1)))
  have hframe := costs_append (costs_append hwindow (costs_cmdSession hv c.cmdRamwr))
    (costs_dataSession hv rows.flatten)
  rw [← streamOfRows_B hv hm] at hframe
  have hevents : renderEvents c rows = windowEvents c (BitVec.ofNat 16 c.xOff) (BitVec.ofNat 16 c.yOff)
      (BitVec.ofNat 16 (c.xOff + c.wDst - 1)) (BitVec.ofNat 16 (c.yOff + c.hDst - 1)) ++
      session (cmdEvents c c.cmdRamwr) ++ (streamEvents c ++ rows.flatMap (rawEvents c) ++ [.setCS .idle]) := by
    simp only [renderEvents, renderOpening, List.append_assoc]
  rw [hevents]
  obtain ⟨hlength, hedges⟩ := hframe
  exact ⟨hlength.trans (by omega), fun p => (hedges p).trans (by omega)⟩

/-- A row of a legal panel has bytes. -/
theorem rowBytes_ne_nil {c : Config} (hc : legal c) (image : Nat → Nat → Bool) (y : Nat) :
    rowBytes c image y ≠ [] := by
  have hw : 1 ≤ c.wDst := (legal_iff c).1 hc .wDstMin
  have hlength := length_rowBytes c image y
  exact List.ne_nil_of_length_pos (by omega)

/-- Settles O46: the events are those of O40, in variant A one a row, in variant B those of nine bits a byte. -/
theorem renderSize : Obligations.RenderSize := by
  unfold Obligations.RenderSize
  intro s fb image t h hexec
  obtain ⟨u, hu, hsame⟩ := renderSendsTheFrame s fb image h
  obtain rfl := Host.Outcome.next.inj (hu.symm.trans hexec)
  refine ⟨renderEvents s.cfg (imageRows s.cfg image), by rw [hsame]; rfl, sessionCount_renderEvents _ _, fun hv => ?_,
    fun hv hm => ?_⟩
  · have hrows : ∀ row ∈ imageRows s.cfg image, row ≠ [] :=
      List.forall_mem_map.2 fun y _ => rowBytes_ne_nil h.1.1 image y
    rw [length_renderEvents_A hv hrows, List.length_map, List.length_range]
  · obtain ⟨hlength, hedges⟩ := costs_renderEvents_B hv hm (imageRows s.cfg image)
    rw [flatten_imageRows, length_frameBytes] at hlength hedges
    exact ⟨hlength.trans (by ring), (hedges s.pins).trans (by ring)⟩

end Sys2Proof.Machine

/-! PROOF. The checks of a request and the outcome each decides (`60_exceptions.md` R231 to R241): what every
instruction meets before anything of its own, whichever row of the table it is. -/

namespace Sys2Proof.Machine
open Sys2Proof Sys2Proof.Spec

/-! ## The checks, the same for all instructions -/

/-- What stands before the own part of an instruction: for a bus frame its variant (log 20), then acceptance (R239). -/
def checks (i : Instr) (s : State) (body : State → Host.Outcome State Fault Refusal) :
    Host.Outcome State Fault Refusal :=
  match onlyIn i with
  | some v => onVariant v s fun s => accept i s body
  | none => accept i s body

/-- An instruction that is no operation is a reserved code, whose own part is to record that code (R94). -/
theorem exec_checks_reserved {i : Instr} (ho : opOf i = none) (s : State) :
    ∃ code, exec i s = checks i s fun t => .next (t.takeFault (.reservedOp code)) := by
  cases i <;> cases ho <;> exact ⟨_, rfl⟩

/-- Every row of the table has the checks in front of its own part. -/
theorem exec_checks (i : Instr) (s : State) : ∃ body, exec i s = checks i s body := by
  cases ho : opOf i with
  | none =>
    obtain ⟨code, hexec⟩ := exec_checks_reserved ho s
    exact ⟨_, hexec⟩
  | some op =>
    by_cases hop : op = .render
    · subst hop
      cases i with
      | render fb => exact ⟨fun s => withSession .render s fun s => renderOutcome (s.renderBody fb), rfl⟩
      | _ => cases ho
    · refine ⟨fun t => withSession op t fun t => .next (t.run (actsOf s.cfg i)).complete, ?_⟩
      rw [exec_eq_perform s ho hop, checks]
      cases onlyIn i <;> rfl

/-- So has acceptance alone. -/
theorem startRequest_checks (i : Instr) (s : State) : ∃ body, startRequest i s = checks i s body := by
  unfold startRequest
  cases opOf i with
  | none => exact exec_checks i s
  | some op =>
    refine ⟨fun s => withSession op s fun s => .next s, ?_⟩
    unfold checks
    cases onlyIn i <;> rfl

section
variable {i : Instr} {s : State} {body : State → Host.Outcome State Fault Refusal}

/-- `FAULT` stops the machine ahead of every other check (R241). -/
theorem guarded_faulted {f : FaultMark} (hf : s.fault = some f) : guarded s body = .fault (.faulted f) := by
  simp only [guarded, hf]

/-- Under a configuration that breaks a bound nothing runs (R236). -/
theorem guarded_illegal {b : Bound} (hf : s.fault = none) (hb : firstBroken s.cfg = some b) :
    guarded s body = .next (faulted s (.illegalConfig b)) := by
  simp only [guarded, hf, hb, takeFault_eq_faulted hf]

/-- Whatever the instruction, `FAULT` and the configuration are looked at first. -/
theorem checks_guarded (i : Instr) (s : State) (body : State → Host.Outcome State Fault Refusal) :
    ∃ rest, checks i s body = guarded s rest := by
  unfold checks
  cases onlyIn i <;> exact ⟨_, rfl⟩

/-- An available instruction comes to its acceptance. -/
theorem checks_available (hc : legal s.cfg) (hf : s.fault = none) (ha : available i s.cfg) :
    checks i s body = accept i s body := by
  unfold checks
  cases hv : onlyIn i with
  | none => rfl
  | some v => exact onVariant_pass v s _ hc hf (ha v hv)

/-- What answers a next state under a legal configuration is available there. -/
theorem available_of_checks {t : State} (hc : legal s.cfg) (h : checks i s body = .next t) : available i s.cfg := by
  intro v hv
  unfold checks at h
  rw [hv] at h
  obtain ⟨-, ⟨b, hb, -⟩ | ⟨-, hvariant, -⟩⟩ := onVariant_next h
  · cases hc.symm.trans hb
  · exact hvariant

end

/-! ## A set FAULT (R241) -/

/-- Settles O28: the first of all checks is that of `FAULT`. -/
theorem faultedMachineStops : Obligations.FaultedMachineStops := by
  unfold Obligations.FaultedMachineStops
  intro i s f hf
  obtain ⟨body, hexec⟩ := exec_checks i s
  obtain ⟨rest, hchecks⟩ := checks_guarded i s body
  rw [hexec, hchecks, guarded_faulted hf]

/-! ## IllegalConfig (R236) -/

/-- The bound that `IllegalConfig` names is broken (R231). -/
theorem not_boundHolds_of_firstBroken {c : Config} {b : Bound} (h : firstBroken c = some b) : ¬ boundHolds c b := by
  rw [← Bound.met_iff, firstBroken_some h]
  exact Bool.false_ne_true

/-- Settles O25: under a configuration with a broken bound the checks end there, for `exec` and for acceptance alone. -/
theorem illegalConfigIsRefused : Obligations.IllegalConfigIsRefused := by
  unfold Obligations.IllegalConfigIsRefused
  intro i s hc hf
  obtain ⟨b, hb⟩ := Option.ne_none_iff_exists'.1 hc
  have refused (body : State → Host.Outcome State Fault Refusal) :
      checks i s body = .next (faulted s (.illegalConfig b)) := by
    obtain ⟨rest, hchecks⟩ := checks_guarded i s body
    rw [hchecks, guarded_illegal hf hb]
  obtain ⟨whole, hexec⟩ := exec_checks i s
  obtain ⟨start, hstart⟩ := startRequest_checks i s
  exact ⟨b, not_boundHolds_of_firstBroken hb, by rw [hexec, refused], by rw [hstart, hexec, refused, refused]⟩

/-! ## Overlap (R234) -/

/-- While an operation is in progress, every available instruction is an `Overlap`. -/
theorem exec_overlaps {i : Instr} {s : State} (hc : legal s.cfg) (hf : s.fault = none) (hb : s.busy = true)
    (ha : available i s.cfg) : exec i s = .next (faulted s (.overlap s.seq i)) := by
  obtain ⟨body, hexec⟩ := exec_checks i s
  rw [hexec, checks_available hc hf ha, accept_busy _ _ _ hc hf hb, takeFault_eq_faulted hf]

/-- Settles O23: `BUSY` is the check of acceptance, which comes before the own part of any request. -/
theorem overlapIsRecorded : Obligations.OverlapIsRecorded := by
  unfold Obligations.OverlapIsRecorded
  intro i s hc hf hb ha _
  exact exec_overlaps hc hf hb ha

/-! ## ReservedOp (R94, R233) -/

/-- The meaning of a reserved row is to record its code. -/
theorem exec_reserved {i : Instr} {code : BitVec 4} (hi : (i, code) ∈ reservedTable) (s : State) :
    exec i s = reject i code s := by
  simp only [reservedTable, List.mem_cons, Prod.mk.injEq, List.not_mem_nil, or_false] at hi
  rcases hi with ⟨rfl, rfl⟩ | ⟨rfl, rfl⟩ | ⟨rfl, rfl⟩ | ⟨rfl, rfl⟩ | ⟨rfl, rfl⟩ | ⟨rfl, rfl⟩ | ⟨rfl, rfl⟩ <;> rfl

/-- `reject` where acceptance lets the request through. -/
theorem reject_records {s : State} (hr : ready s) (i : Instr) (code : BitVec 4) :
    reject i code s = .next (faulted s (.reservedOp code)) := by
  obtain ⟨hc, hf, hb⟩ := hr
  rw [reject, accept_pass _ _ _ hc hf hb, ← takeFault_eq_faulted hf]
  rfl

/-- Settles O21: the `op` field alone picks the reserved row, whose meaning is `reject`. -/
theorem reservedCodesAreRecorded : Obligations.ReservedCodesAreRecorded := by
  unfold Obligations.ReservedCodesAreRecorded
  intro i code hi
  refine ⟨fun w hop => decode_reserved hi (BitVec.eq_of_toNat_eq ((op_toNat w).trans hop)), fun s hr => ?_⟩
  rw [exec_reserved hi, reject_records hr]

/-! ## The order of the checks (R239) -/

theorem sentOnly_fault {acts : List Act} {s t : State} (h : sentOnly acts s t) : t.fault = s.fault := by rw [h]; rfl

/-- The one fault a RENDER that passed the checks can end in is a word it cannot read (R235). -/
theorem exec_render_fault {fb : Handle} {s t : State} {f : FaultMark} (hr : ready s) (hs : s.sess = .closed)
    (h : exec (.render fb) s = .next t) (ht : t.fault = some f) : ∃ w, f = .sourceUndefined w := by
  have hnone : (s.atRows fb).fault = none := hr.2.1
  rw [exec_render_accepted hr hs] at h
  rcases render_cases fb s (viewport_band_le s.cfg) with
    ⟨bit, u, -, hu, e⟩ | ⟨bit, y, x, w, u, -, -, -, -, -, -, hu, -, -, e⟩ <;>
    obtain rfl := Host.Outcome.next.inj (e.symm.trans h)
  · cases ((sentOnly_fault hu).trans hnone).symm.trans ht
  · rw [State.takeFault_fault, sentOnly_fault hu, hnone] at ht
    exact ⟨w, (Option.some.inj ht).symm⟩

/-- With the `SESS` it requires, no operation but RENDER ends in a fault. -/
theorem exec_fault_passed {i : Instr} {op : Op} {s t : State} {f : FaultMark} (ho : opOf i = some op)
    (ha : available i s.cfg) (hr : ready s) (hs : s.sess = requiredSess op) (h : exec i s = .next t)
    (ht : t.fault = some f) : op = .render ∧ ∃ w, f = .sourceUndefined w := by
  by_cases hop : op = .render
  · subst hop
    cases i with
    | render fb => exact ⟨rfl, exec_render_fault hr hs h ht⟩
    | _ => cases ho
  · obtain rfl := Host.Outcome.next.inj ((exec_acts ho hop ha hr hs).symm.trans h)
    cases hr.2.1.symm.trans ht

/-- Settles O26: each check that fails decides the whole answer, so the fault is the one it records. -/
theorem firstFailingCheckDecides : Obligations.FirstFailingCheckDecides := by
  unfold Obligations.FirstFailingCheckDecides
  intro i s t hf h f ht
  have decided (g : FaultMark) (hg : exec i s = .next (faulted s g)) : f = g := by
    obtain rfl := Host.Outcome.next.inj (hg.symm.trans h)
    exact (Option.some.inj ht).symm
  have isAvailable (hc : legal s.cfg) : available i s.cfg := by
    obtain ⟨body, hexec⟩ := exec_checks i s
    exact available_of_checks hc (hexec.symm.trans h)
  refine ⟨fun hc => ?_, fun hc hb => ?_, fun hc hb code hi => ?_, fun hc hb op ho hs => ?_, fun hc hb op ho hs => ?_⟩
  · obtain ⟨b, hb, hexec, -⟩ := illegalConfigIsRefused i s hc hf
    exact ⟨b, decided _ hexec, hb⟩
  · exact decided _ (exec_overlaps hc hf hb (isAvailable hc))
  · exact decided _ ((reservedCodesAreRecorded i code hi).2 s ⟨hc, hf, hb⟩)
  · exact decided _ ((sessionDisciplineHolds i op s ho (isAvailable hc) ⟨hc, hf, hb⟩).1 hs)
  · rw [sessTable_eq] at hs
    exact exec_fault_passed ho (isAvailable hc) ⟨hc, hf, hb⟩ hs h ht

end Sys2Proof.Machine

/-! PROOF. What a step does to a set `FAULT` (`60_exceptions.md` R241). -/

namespace Sys2Proof.Machine
open Sys2Proof Sys2Proof.Spec

/-- An event of the operation in progress leaves a set `FAULT` as it is (R36). -/
theorem nextEvent_keepsMark {s : State} {f : FaultMark} (hf : s.fault = some f) : (nextEvent s).fault = some f := by
  cases hseq : s.seq with
  | idle => simpa only [nextEvent, hseq] using hf
  | busy i k =>
    rcases nextEvent_cases hseq with ⟨fb, rfl, e⟩ | ⟨-, e⟩ <;> rw [e]
    · rcases advanceRender_cases fb k s with
        ⟨a, -, e⟩ | ⟨j, -, ⟨w, u, -, hload, e⟩ | ⟨u, -, hload, e⟩ | ⟨-, e⟩⟩ <;> rw [e]
      · exact (openDue_fault fb k s).trans hf
      · rw [State.takeFault_fault, loadOnly_fault (loadRow_error hload).1, hf]
        rfl
      · exact (loadOnly_fault (loadDue_loadOnly hload)).trans hf
      · exact hf
    · rcases advanceActs_cases i k (actsOf s.cfg i) s with ⟨-, e⟩ | ⟨a, -, ⟨-, e⟩ | ⟨-, e⟩⟩ <;> rw [e] <;> exact hf

theorem advance_keepsMark {s : State} {f : FaultMark} (hf : s.fault = some f) : s.advance.fault = some f := by
  rcases advance_cases s with ⟨-, e⟩ | ⟨-, e⟩ <;> rw [e]
  · exact hf
  · exact nextEvent_keepsMark hf

/-- A step at a reset is that reset. -/
theorem step_reset {s : State} {rest : List Input} (h : s.tape = .reset :: rest) :
    step s = .next { s with tape := rest }.settle.powerReset := by
  simp only [step, serve, h]

/-- Settles O27, by the kind of move on the tape: a request to a machine whose `FAULT` is set answers no next state. -/
theorem faultIsSticky : Obligations.FaultIsSticky := by
  unfold Obligations.FaultIsSticky
  intro s f hf
  refine ⟨fun t h hreset => ?_, fun rest htape => ⟨_, step_reset htape, rfl⟩⟩
  rcases step_next h with ⟨-, rfl⟩ | ⟨rest, -, rfl⟩ | ⟨e, during, rest, i, u, -, -, hu, rfl⟩ |
    ⟨e, rest, i, u, -, -, hu, rfl⟩ | ⟨fb, index, value, rest, -, rfl⟩ | ⟨rest, htape, rfl⟩
  · exact advance_keepsMark hf
  · exact advance_keepsMark (s := { s with tape := rest }) hf
  · cases hf.symm.trans (exec_next hu).1
  · cases hf.symm.trans (startRequest_next hu).1
  · exact hf
  · exact absurd htape (hreset rest)

end Sys2Proof.Machine

/-! PROOF. A RENDER that meets a word it cannot read (`60_exceptions.md` R235, R240): what it has sent until then, and
the word it records. -/

namespace Sys2Proof.Machine
open Sys2Proof Sys2Proof.Spec

/-! ## Samples of a stable buffer (R64, R67) -/

/-- The source bit of active column `x` in row `y` of the panel, where its word can be read (R196, R198). -/
def bandBit (s : State) (fb : Handle) (y x : Nat) : Option Bool :=
  sourceBit s.cfg s.source fb (srcCol s.cfg (viewport s.cfg) x) (srcRow s.cfg (viewport s.cfg) y)

/-- The word that holds it. -/
def bandWord (c : Config) (y x : Nat) : Nat := wordIndex c (srcCol c (viewport c) x) (srcRow c (viewport c) y)

section
variable {s : State} {fb : Handle} {x y : Nat}

/-- With nothing in flight, a RENDER samples that bit, or names that word. -/
theorem pixelSample_stable (hf : s.inFlight = []) :
    (s.atRows fb).pixelSample y x = (bandBit s fb y x).elim (.error (bandWord s.cfg y x)) .ok :=
  sampleBit_stable (s := { s.atRows fb with
    ctr := { row := y, col := x, srcY := srcRow s.cfg (viewport s.cfg) y, srcX := srcCol s.cfg (viewport s.cfg) x } })
    hf

theorem bandBit_of_sample {b : Bool} (hf : s.inFlight = []) (h : (s.atRows fb).pixelSample y x = .ok b) :
    bandBit s fb y x = some b := by
  rw [pixelSample_stable hf] at h
  cases hbit : bandBit s fb y x with
  | none => simp [hbit] at h
  | some v => simpa [hbit] using h

/-- A sample that fails names its word, which cannot be read. -/
theorem bandWord_of_failure {w : Nat} (hf : s.inFlight = []) (h : (s.atRows fb).pixelSample y x = .error w) :
    w = bandWord s.cfg y x ∧ Memory.read (srcAddr fb w) s.source = none := by
  rw [pixelSample_stable hf] at h
  cases hbit : bandBit s fb y x with
  | some v => simp [hbit] at h
  | none =>
    obtain rfl : bandWord s.cfg y x = w := by simpa [hbit] using h
    exact ⟨rfl, Option.map_eq_none_iff.1 hbit⟩

end

/-- A row of the band is a row of the panel (R192, R193). -/
theorem lt_hDst_of_inBand {c : Config} {y : Nat} (h : inBand (viewport c) y = true) : y < c.hDst := by
  have hheight := viewport_actH_le c
  have hpad := viewport_yPad c
  obtain ⟨_, _⟩ := (inBand_iff _ _).1 h
  omega

/-! ## The partly sent frame (R240) -/

/-- Raw writes leave `CS` alone (R141). -/
theorem rawPins_cs (c : Config) (p : Pins) (bytes : List Byte) : (rawPins c p bytes).cs = p.cs := by
  unfold rawPins shiftedAll
  cases c.variant with
  | A => rfl
  | B => cases bytes.getLast? <;> rfl

theorem streamPins_cs (c : Config) (p : Pins) : (streamPins c p).cs = .asserted := by
  unfold streamPins
  cases c.variant <;> rfl

section
variable {s u : State} {fb : Handle} {bit : Nat → Nat → Bool} {n : Nat}

/-- The rows of the image a stable buffer shows, where its words can be read, are those that have been sampled. -/
theorem rowsOf_sampled (hf : s.inFlight = [])
    (hbit : ∀ z, z < n → inBand (viewport s.cfg) z = true → ∀ x, x < (viewport s.cfg).actW →
      (s.atRows fb).pixelSample z x = .ok (bit z x)) :
    (List.range n).map (rowOf s.cfg (viewport s.cfg) bit) =
      (List.range n).map (rowBytes s.cfg fun sx sy => (sourceBit s.cfg s.source fb sx sy).getD false) := by
  refine List.map_congr_left fun z hz => rowOf_eq_rowBytes _ _ _ _ fun hb x hx => ?_
  have hsampled := bandBit_of_sample hf (hbit z (List.mem_range.1 hz) hb x hx)
  exact (congrArg (Option.getD · false) hsampled).symm

/-- The events of the rows sent so far. -/
theorem events_rowsActs (c : Config) (vp : Viewport) (bit : Nat → Nat → Bool) (ys : List Nat) :
    events (rowsActs c vp bit ys) = (ys.map (rowOf c vp bit)).flatMap (rawEvents c) := by
  rw [rowsActs, events_flatMap, List.flatMap_map]
  exact List.flatMap_congr fun y _ => events_rawWriteActs _ _

/-- What is on the bus after `n` rows: the opening and a raw write for each. -/
theorem partFrame_bus (hu : sentOnly (rowsActs s.cfg (viewport s.cfg) bit (List.range n)) (s.atRows fb) u) :
    u.bus = s.bus ++ renderOpening s.cfg ++
      ((List.range n).map (rowOf s.cfg (viewport s.cfg) bit)).flatMap (rawEvents s.cfg) := by
  rw [← events_prologueActs, ← events_rowsActs, hu]
  rfl

/-- `CS` is asserted then, since the stream is open. -/
theorem partFrame_cs (hu : sentOnly (rowsActs s.cfg (viewport s.cfg) bit (List.range n)) (s.atRows fb) u) :
    u.pins.cs = .asserted := by
  have hpins : u.pins = (s.pins.applyAll (renderOpening s.cfg)).applyAll
      (((List.range n).map (rowOf s.cfg (viewport s.cfg) bit)).flatMap (rawEvents s.cfg)) := by
    rw [← events_prologueActs, ← events_rowsActs, hu]
    rfl
  rw [hpins, applyAll_rawWrites, rawPins_cs, renderOpening, applyAll_append, applyAll_streamEvents, streamPins_cs]

theorem partFrame_sess (hu : sentOnly (rowsActs s.cfg (viewport s.cfg) bit (List.range n)) (s.atRows fb) u) :
    u.sess = .stream := by
  rw [hu]
  simp [State.atRows]

/-- Where a sample of the band fails, RENDER stops in the first row with such a sample. -/
theorem exec_render_unreadable {x₀ y₀ : Nat} (hr : ready s) (hs : s.sess = .closed) (hf : s.inFlight = [])
    (hy : inBand (viewport s.cfg) y₀ = true) (hx : x₀ < (viewport s.cfg).actW) (hnone : bandBit s fb y₀ x₀ = none) :
    ∃ bit n x w u, inBand (viewport s.cfg) n = true ∧ x < (viewport s.cfg).actW ∧
      (∀ z, z < n → inBand (viewport s.cfg) z = true → ∀ x, x < (viewport s.cfg).actW →
        (s.atRows fb).pixelSample z x = .ok (bit z x)) ∧
      (s.atRows fb).pixelSample n x = .error w ∧
      sentOnly (rowsActs s.cfg (viewport s.cfg) bit (List.range n)) (s.atRows fb) u ∧
      exec (.render fb) s = .next (u.takeFault (.sourceUndefined w)) := by
  rw [exec_render_accepted hr hs]
  rcases render_cases fb s (viewport_band_le s.cfg) with
    ⟨bit, u, hbit, -⟩ | ⟨bit, n, x, w, u, -, hn, hx, hbit, -, hfail, hu, -, -, hout⟩
  · have hsome := bandBit_of_sample hf (hbit y₀ (lt_hDst_of_inBand hy) hy x₀ hx)
    cases hnone.symm.trans hsome
  · exact ⟨bit, n, x, w, u, hn, hx, hbit, hfail, hu, hout⟩

end

/-- Settles O42: the rows above the one RENDER stops in have been sampled and sent; the sample that fails names its
word. -/
theorem unreadableSourceIsRecorded : Obligations.UnreadableSourceIsRecorded := by
  unfold Obligations.UnreadableSourceIsRecorded
  intro s fb hr hs hf v read ⟨x₀, y₀, hx₀, hy₀, hnone⟩
  have ⟨hc, hfault, _⟩ := hr
  have hread (x y : Nat) : read x y = bandBit s fb (v.yPad + y) x := by
    rw [bandBit, srcRow_add]
    rfl
  have hband {y : Nat} (hy : y < v.actH) : inBand v (v.yPad + y) = true := (inBand_iff_exists _ _).2 ⟨y, hy, rfl⟩
  obtain ⟨bit, n, x, w, u, hn, hx, hbit, hfail, hu, hexec⟩ :=
    exec_render_unreadable hr hs hf (hband hy₀) hx₀ ((hread x₀ y₀).symm.trans hnone)
  obtain ⟨rfl, hword⟩ := bandWord_of_failure hf hfail
  obtain ⟨hlo, hhi⟩ : v.yPad ≤ n ∧ n < v.yPad + v.actH := (inBand_iff _ _).1 hn
  obtain ⟨hsource, -, htape⟩ := exec_sameOutside hexec
  refine ⟨_, _, n, hexec, ?_, wordIndex_lt hc (srcCol_lt hc hx) (srcRow_lt hc hn), hword, hlo, hhi,
    lt_hDst_of_inBand hn, ⟨x, hx, rfl⟩, fun x y hx hy => ?_, (partFrame_sess hu :), (partFrame_cs hu :), rfl, rfl,
    hsource, exec_cfg hexec, htape, ?_⟩
  · rw [State.takeFault_fault, sentOnly_fault hu, show (s.atRows fb).fault = none from hfault]
    rfl
  · rw [hread, bandBit_of_sample hf (hbit _ (by omega) (hband (by omega)) x hx)]
    rfl
  · rw [State.takeFault_bus, partFrame_bus hu, rowsOf_sampled hf hbit]

end Sys2Proof.Machine

/-! PROOF. Reset (`70_reset_and_hazards.md` R260, R262): the values it leaves, what it keeps, and the invariant. -/

namespace Sys2Proof.Machine
open Sys2Proof Sys2Proof.Spec

/-- Settles O29: a reset leaves all but the framebuffers, the tape and the epoch as power-on does. -/
theorem resetLeavesTheStatedValues : Obligations.ResetLeavesTheStatedValues := by
  unfold Obligations.ResetLeavesTheStatedValues
  rintro s t c (rfl | rfl) <;> exact ⟨rfl, rfl, rfl, rfl, rfl, rfl⟩

/-- Settles O30: the step at a reset puts the owner's changes in place and starts the engine over. -/
theorem resetAbandonsTheOperation : Obligations.ResetAbandonsTheOperation := by
  unfold Obligations.ResetAbandonsTheOperation
  exact fun s rest htape => ⟨_, step_reset htape, rfl⟩

/-- A machine at power-on is one just reset, but for its epoch, which the invariant does not look at. -/
theorem boot_consistent {c : Config} (hc : legal c) : Consistent (State.boot c) :=
  powerReset_consistent (s := State.boot c) hc rfl

/-- The parameters of R11 meet the bounds of R10. -/
theorem legal_reference : legal Config.reference := by decide

/-- Settles O60: the reset state is that of power-on in the reference configuration. -/
theorem resetIsConsistent : Obligations.ResetIsConsistent := by
  unfold Obligations.ResetIsConsistent
  exact ⟨boot_consistent legal_reference, fun _ hc => boot_consistent hc⟩

end Sys2Proof.Machine

/-! PROOF. No instruction reads a value reset leaves unspecified (`70_reset_and_hazards.md` R261). A view of a state
keeps what some part of the machine reads and puts the rest at the values of power-on; that a part of the machine reads
no more than a view keeps is `Function.FactorsThrough`: from states with the same view it comes to results that look the
same. -/

namespace Sys2Proof.Machine
open Sys2Proof Sys2Proof.Spec

/-! ## The views -/

/-- The pins, with `DC`, `SCK` and `SDA` forgotten. -/
def Pins.specified (p : Pins) : Pins := { Pins.reset with cs := p.cs }

/-- What the columns of a row read: all but the pins and the two counters every column writes first (R198). -/
def State.columnsView (s : State) : State :=
  { s with ctr := { s.ctr with col := 0, srcX := 0 }, pins := s.pins.specified }

/-- What the transmit of a row reads: all but the pins and the counters. -/
def State.sendView (s : State) : State :=
  { s with ctr := (State.boot s.cfg).ctr, pins := s.pins.specified }

/-- What the rows of a RENDER read: not the line buffer either, which each row clears first (R200). -/
def State.rowsView (s : State) : State := { s.sendView with lb := (State.boot s.cfg).lb }

/-- What an instruction reads: none of what reset leaves unspecified, since a RENDER writes `FB` and the viewport
first (R203). -/
def State.specified (s : State) : State :=
  { s.rowsView with vp := (State.boot s.cfg).vp, fb := (State.boot s.cfg).fb }

theorem cfg_of_specified {s s' : State} (h : s.specified = s'.specified) : s.cfg = s'.cfg :=
  (congrArg State.cfg h :)

/-- The end of a loop, as a view shows it. -/
def mapEnd (f : State → State) : Except (Nat × State) State → Except (Nat × State) State
  | .error (w, s) => .error (w, f s)
  | .ok s => .ok (f s)

/-- What comes to the same from a state and from its view reads no more than the view. -/
theorem factorsThrough_of_view {α β : Type} {view : State → State} {f : State → α} {g : α → β}
    (h : ∀ s, g (f (view s)) = g (f s)) : (g ∘ f).FactorsThrough view := by
  intro s s' hview
  calc g (f s) = g (f (view s)) := (h s).symm
    _ = g (f (view s')) := by rw [hview]
    _ = g (f s') := h s'

/-- A view that shows the same of a state and of its finer view is the coarser one. -/
theorem coarser_of_view {view last : State → State} (h : ∀ s, last (view s) = last s) : last.FactorsThrough view :=
  factorsThrough_of_view (g := id) h

/-- Two parts of a loop, one after the other: the second reads what the first shows. -/
theorem factorsThrough_bind {view mid last : State → State} {f g : State → Except (Nat × State) State}
    (hf : (mapEnd mid ∘ f).FactorsThrough view) (hg : (mapEnd last ∘ g).FactorsThrough mid)
    (hlast : last.FactorsThrough mid) : (mapEnd last ∘ fun s => (f s).bind g).FactorsThrough view := by
  intro s s' hview
  have hends := hf hview
  simp only [Function.comp_apply] at hends ⊢
  cases hs : f s <;> cases hs' : f s' <;> rw [hs, hs'] at hends
  case error.error e e' =>
    obtain ⟨hw, hmid⟩ := Prod.mk.inj (Except.error.inj hends)
    exact congrArg Except.error (Prod.ext hw (hlast hmid))
  case ok.ok t t' => exact hg (Except.ok.inj hends)
  all_goals cases hends

/-! ## Acts -/

/-- `CS` after an event depends on no other pin. -/
theorem apply_specified (p : Pins) (e : Event) : (p.specified.apply e).specified = (p.apply e).specified := by
  cases e <;> rfl

theorem applyAll_specified (p : Pins) (es : List Event) :
    (p.specified.applyAll es).specified = (p.applyAll es).specified := by
  induction es generalizing p with
  | nil => rfl
  | cons e es ih =>
    rw [applyAll_cons, applyAll_cons, ← ih (p.specified.apply e), apply_specified, ih]

theorem run_specified (acts : List Act) (s : State) : (s.specified.run acts).specified = (s.run acts).specified :=
  congrArg (fun p => { (s.run acts).specified with pins := p }) (applyAll_specified s.pins (events acts))

/-! ## The renderer's loops -/

theorem fillColumns_cons (x : Nat) (xs : List Nat) :
    State.fillColumns (x :: xs) = fun s => (s.fillColumn x).bind (State.fillColumns xs) := by
  funext s
  rw [State.fillColumns]
  cases s.fillColumn x <;> rfl

theorem renderRows_cons (y : Nat) (ys : List Nat) :
    State.renderRows (y :: ys) = fun s => (s.loadRow y).bind fun t => t.sendRow.renderRows ys := by
  funext s
  rw [State.renderRows]
  cases s.loadRow y <;> rfl

/-- `COL` at the end of its loop (R24). -/
def State.endColumn (s : State) : State := { s with ctr := { s.ctr with col := s.vp.actW } }

/-- A row of the band, as its line buffer is clear and its two row counters are written. -/
def State.startRow (y : Nat) (s : State) : State :=
  { s with ctr := { s.ctr with row := y, srcY := srcRow s.cfg s.vp y }, lb := List.replicate (2 * s.cfg.wDst) 0#8 }

theorem loadRow_band_bind {y : Nat} {s : State} (hb : inBand s.vp y = true) :
    s.loadRow y = ((s.startRow y).fillColumns (List.range s.vp.actW)).bind fun t => .ok t.endColumn := by
  rw [loadRow_band hb, ← State.startRow]
  cases (s.startRow y).fillColumns (List.range s.vp.actW) <;> rfl

theorem fillColumn_view (x : Nat) :
    (mapEnd State.columnsView ∘ State.fillColumn x).FactorsThrough State.columnsView := by
  refine factorsThrough_of_view fun s => ?_
  have hsample : s.columnsView.sampleAt x = s.sampleAt x := rfl
  rw [fillColumn_eq, fillColumn_eq, hsample]
  cases s.sampleAt x <;> rfl

theorem fillColumns_view (xs : List Nat) :
    (mapEnd State.columnsView ∘ State.fillColumns xs).FactorsThrough State.columnsView := by
  induction xs with
  | nil => exact fun s s' hview => congrArg Except.ok hview
  | cons x xs ih =>
    rw [fillColumns_cons]
    exact factorsThrough_bind (fillColumn_view x) ih fun s s' hview => hview

/-- A row clears the line buffer, writes its own two counters and, at each column, the other two, before it reads
them. -/
theorem loadRow_view (y : Nat) : (mapEnd State.sendView ∘ State.loadRow y).FactorsThrough State.rowsView := by
  refine factorsThrough_of_view fun s => ?_
  cases hb : inBand s.vp y with
  | false =>
    rw [loadRow_bar hb, loadRow_bar (s := s.rowsView) hb]
    rfl
  | true =>
    have hstart : (s.rowsView.startRow y).columnsView = (s.startRow y).columnsView := rfl
    have hend : (mapEnd State.sendView ∘ fun t => .ok t.endColumn).FactorsThrough State.columnsView :=
      factorsThrough_of_view fun _ => rfl
    have hsend : State.sendView.FactorsThrough State.columnsView := coarser_of_view fun _ => rfl
    rw [loadRow_band_bind hb, loadRow_band_bind (s := s.rowsView) hb]
    exact factorsThrough_bind (fillColumns_view (List.range s.vp.actW)) hend hsend hstart

theorem sendRow_view : (State.rowsView ∘ State.sendRow).FactorsThrough State.sendView :=
  factorsThrough_of_view fun s =>
    congrArg (fun p => { s.sendRow.rowsView with pins := p }) (applyAll_specified s.pins _)

/-- Each row is loaded from what the rows read, and shows what its transmit reads. -/
theorem renderRows_view (ys : List Nat) :
    (mapEnd State.rowsView ∘ State.renderRows ys).FactorsThrough State.rowsView := by
  induction ys with
  | nil => exact fun s s' hview => congrArg Except.ok hview
  | cons y ys ih =>
    have hrest : (mapEnd State.rowsView ∘ fun t => t.sendRow.renderRows ys).FactorsThrough State.sendView :=
      fun t t' hview => ih (sendRow_view hview)
    rw [renderRows_cons]
    exact factorsThrough_bind (loadRow_view y) hrest (coarser_of_view fun _ => rfl)

/-! ## RENDER -/

theorem renderBody_bind (fb : Handle) (s : State) :
    s.renderBody fb = (((s.startRender fb).run (prologueActs s.cfg)).renderRows (List.range s.cfg.hDst)).bind
      fun t => .ok t.closeFrame := by
  rw [State.renderBody]
  cases ((s.startRender fb).run (prologueActs s.cfg)).renderRows (List.range s.cfg.hDst) <;> rfl

/-- `FB` and the viewport are written before the rows start. -/
theorem opening_view (fb : Handle) :
    (State.rowsView ∘ fun s => (s.startRender fb).run (prologueActs s.cfg)).FactorsThrough State.specified :=
  factorsThrough_of_view fun s =>
    congrArg (fun p => { ((s.startRender fb).run (prologueActs s.cfg)).rowsView with pins := p })
      (applyAll_specified s.pins _)

theorem renderBody_view (fb : Handle) :
    (mapEnd State.specified ∘ State.renderBody fb).FactorsThrough State.specified := by
  intro s s' hview
  have hrange : s.cfg.hDst = s'.cfg.hDst := congrArg Config.hDst (cfg_of_specified hview)
  have hclose : (mapEnd State.specified ∘ fun t => .ok t.closeFrame).FactorsThrough State.rowsView :=
    factorsThrough_of_view fun _ => rfl
  have hrows := factorsThrough_bind (renderRows_view (List.range s'.cfg.hDst)) hclose
    (coarser_of_view fun _ => rfl) (opening_view fb hview)
  rw [Function.comp_apply, Function.comp_apply, renderBody_bind, renderBody_bind, hrange]
  exact hrows

theorem renderOutcome_view {r r' : Except (Nat × State) State}
    (h : mapEnd State.specified r = mapEnd State.specified r') :
    mapNext State.specified (renderOutcome r) = mapNext State.specified (renderOutcome r') := by
  cases r <;> cases r'
  case error.error e e' =>
    obtain ⟨hw, hview⟩ := Prod.mk.inj (Except.error.inj h)
    exact congrArg₂ (fun w t => Host.Outcome.next (State.takeFault (.sourceUndefined w) t)) hw hview
  case ok.ok t t' => exact congrArg (fun t => Host.Outcome.next t.retire.complete.specified) (Except.ok.inj h)
  all_goals cases h

/-! ## Any instruction -/

/-- What answers the same, but for unspecified values, from states that differ in unspecified values only. -/
def readsSpecified (run : State → Host.Outcome State Fault Refusal) : Prop :=
  (mapNext State.specified ∘ run).FactorsThrough State.specified

section
variable {body : State → Host.Outcome State Fault Refusal}

theorem guarded_readsSpecified (h : readsSpecified body) : readsSpecified fun s => guarded s body := by
  intro s s' hview
  have hfault : s.fault = s'.fault := (congrArg State.fault hview :)
  have hcfg := cfg_of_specified hview
  simp only [Function.comp_apply, guarded, hfault, hcfg]
  cases s'.fault with
  | some f => rfl
  | none =>
    cases firstBroken s'.cfg with
    | some b => exact congrArg (fun t => Host.Outcome.next (t.takeFault (.illegalConfig b))) hview
    | none => exact h hview

theorem ite_readsSpecified {test : State → Prop} [DecidablePred test]
    {other : State → Host.Outcome State Fault Refusal} (htest : ∀ s, test s.specified = test s)
    (h : readsSpecified body) (h' : readsSpecified other) :
    readsSpecified fun s => if test s then body s else other s := by
  intro s s' hview
  have htests : test s = test s' := by rw [← htest s, hview, htest]
  simp only [Function.comp_apply, htests]
  split
  · exact h hview
  · exact h' hview

theorem accept_readsSpecified (i : Instr) (h : readsSpecified body) : readsSpecified fun s => accept i s body :=
  guarded_readsSpecified <| ite_readsSpecified (fun _ => rfl) (factorsThrough_of_view fun _ => rfl)
    fun _ _ hview => h (congrArg (fun t => { t with busy := true, seq := .busy i 0 }) hview)

theorem withSession_readsSpecified (op : Op) (h : readsSpecified body) :
    readsSpecified fun s => withSession op s body :=
  ite_readsSpecified (fun _ => rfl) h (factorsThrough_of_view fun _ => rfl)

theorem onVariant_readsSpecified (v : Variant) (h : readsSpecified body) :
    readsSpecified fun s => onVariant v s body :=
  guarded_readsSpecified <| ite_readsSpecified (fun _ => rfl) h (factorsThrough_of_view fun _ => rfl)

end

theorem perform_readsSpecified (i : Instr) (op : Op) (acts : List Act) : readsSpecified (perform i op acts) :=
  accept_readsSpecified i <| withSession_readsSpecified op <| factorsThrough_of_view fun s =>
    congrArg (fun t : State => Host.Outcome.next t.complete) (run_specified acts s)

theorem reject_readsSpecified (i : Instr) (code : BitVec 4) : readsSpecified (reject i code) :=
  accept_readsSpecified i (factorsThrough_of_view fun _ => rfl)

theorem execRender_readsSpecified (fb : Handle) : readsSpecified (execRender fb) :=
  accept_readsSpecified _ <| withSession_readsSpecified _ fun _ _ hview => renderOutcome_view (renderBody_view fb hview)

/-- An instruction that is no operation is recorded with its code, in any state (R94). -/
theorem exec_eq_reject {i : Instr} (ho : opOf i = none) : ∃ code, exec i = reject i code := by
  cases i <;> cases ho <;> exact ⟨_, rfl⟩

theorem exec_readsSpecified (i : Instr) : readsSpecified (exec i) := by
  cases ho : opOf i with
  | none =>
    obtain ⟨code, hexec⟩ := exec_eq_reject ho
    exact hexec ▸ reject_readsSpecified i code
  | some op =>
    by_cases hop : op = .render
    · subst hop
      cases i with
      | render fb => exact execRender_readsSpecified fb
      | _ => cases ho
    · intro s s' hview
      have hcfg := cfg_of_specified hview
      rw [Function.comp_apply, Function.comp_apply, exec_eq_perform s ho hop, exec_eq_perform s' ho hop, hcfg]
      have hperform := perform_readsSpecified i op (actsOf s'.cfg i)
      cases onlyIn i with
      | none => exact hperform hview
      | some v => exact onVariant_readsSpecified v hperform hview

/-- An answer to one state is, but for unspecified values, the answer to any state that differs in those only. -/
theorem exec_next_of_specified {i : Instr} {s s' t : State} (hview : s'.specified = s.specified)
    (h : exec i s = .next t) : ∃ t', exec i s' = .next t' ∧ t'.specified = t.specified := by
  have hanswers := exec_readsSpecified i hview
  rw [Function.comp_apply, Function.comp_apply, h] at hanswers
  cases hexec : exec i s' <;> rw [hexec] at hanswers
  case next t' => exact ⟨t', rfl, Host.Outcome.next.inj hanswers⟩
  all_goals cases hanswers

/-- Settles O55: the two states show the same view, so their next states do. -/
theorem unspecifiedValuesAreNeverRead : Obligations.UnspecifiedValuesAreNeverRead := by
  unfold Obligations.UnspecifiedValuesAreNeverRead
  intro i s t vp ctr fb lb dc sck sda h
  have hview : State.specified { s with
      vp := vp, ctr := ctr, fb := fb, lb := lb, pins := { s.pins with dc := dc, sck := sck, sda := sda } } =
    s.specified := rfl
  obtain ⟨t', hexec, hsame⟩ := exec_next_of_specified hview h
  exact ⟨t', hexec, (congrArg State.bus hsame :), (congrArg State.sess hsame :), (congrArg (·.pins.cs) hsame :),
    (congrArg State.fault hsame :), (congrArg State.busy hsame :)⟩

end Sys2Proof.Machine
